-- ==== Sys2Proof/Word.lean ====
section
/-! DEFINITION. The word types of the core. -/

namespace Sys2Proof

/-- A byte of a buffer. -/
abbrev Byte := BitVec 8

/-- The 16-bit pattern of a PCM entry or of a `sample` register (10_state.md R21, 20_memory.md R60). -/
abbrev Half := BitVec 16

/-- A 32-bit register or command word (10_state.md R26, 30_encoding.md R90). -/
abbrev Word := BitVec 32

/-- A 4-bit code `n[3:0]` (30_encoding.md R81). -/
abbrev Nibble := BitVec 4

end Sys2Proof
end

