-- ==== Sys2Proof/Config.lean ====
section
/-! DEFINITION. What this implementation fixes (00_scope.md R6), and the values the spec leaves open: each of
those is an `opaque` constant without a body, so that no proof can rest on a value of it. -/

namespace Sys2Proof.Config

/-! ## Parameters (00_scope.md R6) -/

def maxChannels : Nat := 2
def stepRomEntries : Nat := 89
def indexRomEntries : Nat := 8
/-- The maximum search depth; this hardware fixes it at 3 (R6, D8). -/
def lookahead : Nat := 3
def headerBytesPerChannel : Nat := 4
def chunkSamples : Nat := 8
def minBlockSize : Nat := 256
def maxBlockSize : Nat := 32768
/-- Entries of the PCM buffer (20_memory.md R60). -/
def pcmEntries : Nat := 65536
/-- Bytes of the ADPCM buffer (20_memory.md R60). -/
def adpcmBytes : Nat := 32768
/-- Bytes of the register space (10_state.md R26). -/
def registerSpaceBytes : Nat := 128

/-! ## Placement in a platform's address map (20_memory.md R69, D31; log 8): open, and no rule depends on it. -/

opaque regBase : Nat
opaque pcmBase : Nat
opaque adpcmBase : Nat

/-! ## Free values -/

/-- What a byte of the PCM buffer (in the byte view of 20_memory.md R62) holds since hardware reset number
`epoch` while nothing has written it (10_state.md R40, U4; log 1). -/
opaque powerOnPcm : (epoch address : Nat) → Byte
/-- The same of a byte of the ADPCM buffer (R40, U4; log 1). -/
opaque powerOnAdpcm : (epoch address : Nat) → Byte
/-- What an entry of the STEP ROM above 88 would hold: it has none (10_state.md R37; log 12). -/
opaque stepBeyondEnd : (index : Nat) → Half

/-- PCM entry `entry` after the failed DECODE number `count` (41_decoder.md R158, U1; log 6). -/
opaque freePcm : (count entry : Nat) → Half
/-- ADPCM byte `address` after the failed ENCODE number `count` (60_exceptions.md R305, U3; log 7). -/
opaque freeAdpcm : (count address : Nat) → Byte
/-- The fields of channel bank `channel` after the failed ENCODE number `count` (R305, U2; log 7). -/
opaque freeSample : (count channel : Nat) → Half
opaque freeIndex : (count channel : Nat) → Fin 89
opaque freeH0 : (count channel : Nat) → Half
opaque freeH1 : (count channel : Nat) → Half
opaque freeWeight : (count channel : Nat) → Word
opaque freeError : (count channel : Nat) → Word

end Sys2Proof.Config
end

