-- ==== Sys2Proof/Machine/Blocks.lean ====
section
/-! DEFINITION. Block-size arithmetic (46_block_arithmetic.md), exact on natural numbers. -/

namespace Sys2Proof.Machine

/-- Samples per block, including the header frame (R240). -/
def samplesPerBlock (ch bs : Nat) : Nat := (bs - 4 * ch) * (ch ^^^ 3) + 1

/-- Chunks of a full block (R241). -/
def fullChunks (ch bs : Nat) : Nat := (samplesPerBlock ch bs - 1) / 8

/-- The AUTO block size (R242). -/
def autoBlockSize (ch rate : Nat) : Nat := 256 * ch * max 1 (rate / 11000)

/-- The padded frame count of `n ≥ 1` frames (R244). -/
def pad (n : Nat) : Nat := 8 * ((n - 1 + 7) / 8) + 1

/-- Bytes of a block of `n` frames (R245). -/
def blockBytes (ch n : Nat) : Nat := if n = 0 then 0 else 4 * ch * (1 + (pad n - 1) / 8)

/-- Bytes of a stream of `t` frames; a function of the host, computed by no command (R246). -/
def outputSize (ch bs t : Nat) : Nat :=
  t / samplesPerBlock ch bs * bs + blockBytes ch (t % samplesPerBlock ch bs)

/-- Bytes per second (R247). -/
def bytesPerSecond (ch bs rate : Nat) : Nat := rate * bs / samplesPerBlock ch bs

end Sys2Proof.Machine
end

