-- ==== Sys2Proof/Syntax.lean ====
section
/-! DEFINITION. The instructions: one constructor per row of spec/opcode_table.json (00_scope.md R2:
the 16 codes of 40_quantizer.md and the four host commands of 47_host_commands.md). -/

namespace Sys2Proof

/-- `p0 … n7` are the codes 0x0 … 0xF (30_encoding.md R97); `cfg`, `enc n`, `dec l`, `rsts` the commands
(30_encoding.md R91), whose operand is the LEN field (R92). -/
inductive Instr where
  | p0 | p1 | p2 | p3 | p4 | p5 | p6 | p7
  | n0 | n1 | n2 | n3 | n4 | n5 | n6 | n7
  /-- CONFIGURE, R261. -/
  | cfg
  /-- ENCODE `n` frames, R262. -/
  | enc (n : Nat)
  /-- DECODE a block of `l` bytes, R263. -/
  | dec (l : Nat)
  /-- RESET_STREAM, R264. -/
  | rsts
  deriving DecidableEq, Repr

/-- The instruction's name as the opcode table spells it (30_encoding.md R91, R97). -/
def Instr.mnemonic : Instr → String
  | .p0 => "P0" | .p1 => "P1" | .p2 => "P2" | .p3 => "P3"
  | .p4 => "P4" | .p5 => "P5" | .p6 => "P6" | .p7 => "P7"
  | .n0 => "N0" | .n1 => "N1" | .n2 => "N2" | .n3 => "N3"
  | .n4 => "N4" | .n5 => "N5" | .n6 => "N6" | .n7 => "N7"
  | .cfg => "CFG" | .enc _ => "ENC" | .dec _ => "DEC" | .rsts => "RSTS"

end Sys2Proof
end

