-- ==== Sys2Proof/Machine/State.lean ====
section
/-! DEFINITION. The state of the core and of the host that drives it, as plain data, with its reset value
(10_state.md R20 to R43; INVENTORY.md, State). -/

namespace Sys2Proof.Machine

/-! ## Channels -/

/-- Channel 0 (left or mono) and channel 1 (right) (R21). -/
inductive Channel where
  | left
  | right
  deriving DecidableEq, Repr

/-- One value for each of the two channels: a register bank of R21 or R38. -/
structure PerChannel (α : Type) where
  left : α
  right : α
  deriving DecidableEq, Repr

/-- The quantizer's part of a channel state: what a code reads and writes (R21, 40_quantizer.md R114). -/
structure Quant where
  /-- 16-bit signed. -/
  sample : Half
  /-- 7-bit unsigned, legal in [0, 88]. -/
  index : BitVec 7
  deriving DecidableEq, Repr

/-- A channel-state bank `cs[c]`, six fields (R21). -/
structure Chan extends Quant where
  h0 : Half
  h1 : Half
  weight : Word
  error : Word
  deriving DecidableEq, Repr

/-- All fields 0 (R40). -/
def Quant.zero : Quant := { sample := 0, index := 0 }

/-- All fields 0 (R40). -/
def Chan.zero : Chan := { sample := 0, index := 0, h0 := 0, h1 := 0, weight := 0, error := 0 }

/-- Both banks with all fields 0 (R23, R40). -/
def PerChannel.zeroBanks : PerChannel Chan := { left := Chan.zero, right := Chan.zero }

/-! ## The configuration latch (R25) -/

/-- The noise-shaping mode (44_noise_shaping.md R200). -/
inductive NsMode where
  | off
  | static
  | dynamic
  deriving DecidableEq, Repr

/-- The configuration in force. -/
structure Latch where
  /-- CFG_VALID. -/
  cfgValid : Bool
  /-- CH: 1 or 2, and 0 when invalid. -/
  ch : Nat
  nsMode : NsMode
  /-- BS in bytes. -/
  bs : Nat
  /-- SPB, frames per full block. -/
  spb : Nat
  /-- RATE in Hz. -/
  rate : Nat
  deriving DecidableEq, Repr

/-- The invalid latch (R25, R40). -/
def Latch.invalid : Latch :=
  { cfgValid := false, ch := 0, nsMode := .off, bs := 0, spb := 0, rate := 0 }

/-! ## Errors (60_exceptions.md R300) -/

/-- The error codes of STATUS.ERR. -/
inductive ErrCode where
  | noError
  | configurationError
  | malformedBlockHeader
  | truncatedInput
  | encodingSizeMismatch
  | illegalCommand
  | notConfigured
  | badLength
  | numericRange
  deriving DecidableEq, Repr

/-! ## Buffers (20_memory.md R60) -/

/-- A buffer: the bytes written since hardware reset, addresses strictly rising (`Memory.wf`). A byte not listed
holds what it held at reset, an arbitrary value (R40, U4; log 1). -/
abbrev Memory := List Host.Cell

/-! ## Hidden state (R24, R38) -/

/-- Whose channel state a code is applied to (40_quantizer.md R114): the encoder's `cs[c]` or the decoder's
working registers. -/
inductive Engine where
  | encoder
  | decoder
  deriving DecidableEq, Repr

/-- The sequencer's counters (R24), in the loop order of 41_decoder.md R154 and 43_encoder.md R185. -/
structure Position where
  chunk : Nat
  channel : Channel
  byte : Nat
  nibble : Nat
  deriving DecidableEq, Repr

/-- The sequencer, with the code waiting at the quantizer, if any (log 3, log 4). -/
structure Sequencer where
  engine : Engine
  pos : Position
  code : Option Nibble
  deriving DecidableEq, Repr

/-- The idle sequencer (R24: its counters do not survive a command; log 3). -/
def Sequencer.idle : Sequencer :=
  { engine := .encoder, pos := { chunk := 0, channel := .left, byte := 0, nibble := 0 }, code := none }

/-! ## The host (R20) -/

/-- The three host-visible address spaces (20_memory.md R60). -/
inductive Space where
  | regs
  | pcm
  | adpcm
  deriving DecidableEq, Repr

/-- One access of the host: `bytes` wide, at a byte offset in a space (PCM in the byte view of R62), or the
hardware reset input (70_reset_and_hazards.md R330). -/
inductive HostAccess where
  | write (space : Space) (offset bytes : Nat) (value : Word)
  | read (space : Space) (offset bytes : Nat)
  | hardwareReset
  deriving DecidableEq, Repr

/-! ## The state -/

/-- Everything the spec gives the machine (INVENTORY.md, State). -/
structure State where
  /-- CONFIG (R27). -/
  config : Word
  /-- BLOCK_SIZE (R28). -/
  blockSize : Word
  /-- SAMPLE_RATE (R29). -/
  sampleRate : Word
  /-- The configuration latch (R25). -/
  latch : Latch
  /-- CTX_VALID (R23). -/
  ctxValid : Bool
  /-- The channel-state banks `cs[0]`, `cs[1]` (R21). -/
  cs : PerChannel Chan
  /-- STATUS.ERR (R31). -/
  err : ErrCode
  /-- STATUS.FAULT, sticky (R32). -/
  fault : Bool
  /-- RESULT (R33). -/
  result : Word
  /-- The decoder working registers `dsample[c]`, `dindex[c]` (R38). -/
  dec : PerChannel Quant
  /-- The sequencer (R24). -/
  seq : Sequencer
  /-- The PCM buffer in its byte view (20_memory.md R60, R62). -/
  pcm : Memory
  /-- The ADPCM buffer (20_memory.md R60). -/
  adpcm : Memory
  /-- The host's accesses not yet performed, oldest first (R20, 20_memory.md R71; log 5). -/
  inbox : List HostAccess
  /-- The values the host has read, newest first (R43; log 5). -/
  reads : List Word
  /-- The MODEL's own: how many failed commands have left unspecified values (log 6, log 7). -/
  freeCount : Nat
  /-- The MODEL's own: how many times hardware reset was asserted (log 1). -/
  epoch : Nat
  deriving DecidableEq, Repr

/-- After hardware reset (R40, 70_reset_and_hazards.md R330): the values the spec gives; the buffers list nothing
(log 1); hidden state, host side and the model's own fields as logs 2, 3, 5, 6 and 7 say. -/
def State.reset : State :=
  { config := 0, blockSize := 0, sampleRate := 0
    latch := Latch.invalid
    ctxValid := false, cs := PerChannel.zeroBanks
    err := .noError, fault := false, result := 0
    dec := { left := Quant.zero, right := Quant.zero }
    seq := Sequencer.idle
    pcm := [], adpcm := []
    inbox := [], reads := []
    freeCount := 0, epoch := 0 }

/-! ## How a step can stop -/

/-- Why the machine stops. -/
inductive Fault where
  /-- Raised by ENC and DEC when CFG_VALID = 1 but the latch holds a configuration no CONFIGURE can have latched
  (R25, 47_host_commands.md R261). No run from reset reaches such a state. Safe (log 10). -/
  | illegalLatch
  deriving DecidableEq, Repr

/-- Why the machine gives an input no meaning. -/
inductive Refusal where
  /-- Raised by an arm of `exec` for an instruction without a meaning. Safe. -/
  | notModelled (mnemonic : String)
  /-- Raised by `step` for a host access outside the interface of 20_memory.md R66: "A model refuses it and gives it
  no meaning" (U5). Safe (log 9). -/
  | outsideInterface
  deriving DecidableEq, Repr

end Sys2Proof.Machine
end

