-- ==== Sys2Proof/Machine/Flags.lean ====
section
/-! DEFINITION. The STATUS register: the error code, the sticky FAULT bit, and the register's layout
(10_state.md R31, R32; 60_exceptions.md R300). Codes write no flag (40_quantizer.md R118 to R133). -/

namespace Sys2Proof.Machine

/-- The number of an error code (R300). -/
def ErrCode.code : ErrCode → Nibble
  | .noError => 0
  | .configurationError => 1
  | .malformedBlockHeader => 2
  | .truncatedInput => 3
  | .encodingSizeMismatch => 4
  | .illegalCommand => 5
  | .notConfigured => 6
  | .badLength => 7
  | .numericRange => 8

/-- The errors that set FAULT (R32, R301). -/
def ErrCode.setsFault : ErrCode → Bool
  | .numericRange | .encodingSizeMismatch => true
  | .noError | .configurationError | .malformedBlockHeader | .truncatedInput => false
  | .illegalCommand | .notConfigured | .badLength => false

/-- The number of a noise-shaping mode (R31). -/
def NsMode.code : NsMode → BitVec 2
  | .off => 0
  | .static => 1
  | .dynamic => 2

/-- `STATUS[9:8]`: the latched mode, and 0 while CFG_VALID = 0 (R31). -/
def Latch.nsField (l : Latch) : BitVec 2 := if l.cfgValid then l.nsMode.code else 0#2

/-- The value STATUS reads (R31), from bit 31 down: 0, NS_MODE, 0, FAULT, CTX_VALID, CFG_VALID, ERR. -/
def State.statusWord (s : State) : Word :=
  0#22 ++ (s.latch.nsField ++ (0#1 ++ (BitVec.ofBool s.fault ++
    (BitVec.ofBool s.ctxValid ++ (BitVec.ofBool s.latch.cfgValid ++ s.err.code)))))

end Sys2Proof.Machine
end

