-- ==== Sys2Proof/Machine/Ops.lean ====
section
/-! DEFINITION. The named operations the meanings share: integers (00_scope.md R8, R9), buffers (20_memory.md),
channel banks (10_state.md R21), context invalidation (R23), and ending a command with success or with an error
(60_exceptions.md R301). The core has no trap: an error is recorded, and there is no handler to enter or to return
from (R308, R309). -/

namespace Sys2Proof.Machine

/-! ## Integers -/

/-- `clamp(v, lo, hi)` (R8). -/
def clamp (v lo hi : Int) : Int := if v < lo then lo else if v > hi then hi else v

/-- `a >> k`, the floor of `a / 2^k` (R8). -/
def asr (a : Int) (k : Nat) : Int := a / ((2 ^ k : Nat) : Int)

/-- The signed 32-bit range of the datapath (R9). -/
def inDatapath (v : Int) : Bool := -2147483648 ≤ v && v ≤ 2147483647

/-- A computation that may raise an error. -/
abbrev Checked (α : Type) := Except ErrCode α

/-- `chk(v)`: `v` in range, and otherwise NUMERIC_RANGE; nothing wraps (R9). -/
def chk (v : Int) : Checked Int := if inDatapath v then .ok v else .error .numericRange

/-! ## Channels -/

namespace Channel

/-- The channel's number `c` (10_state.md R21). -/
def toNat : Channel → Nat
  | .left => 0
  | .right => 1

end Channel

/-- Channels `0 .. CH-1` (R23). -/
def channels (ch : Nat) : List Channel := [Channel.left, Channel.right].take ch

namespace PerChannel

/-- The bank of channel `c`. -/
def get {α : Type} (p : PerChannel α) : Channel → α
  | .left => p.left
  | .right => p.right

/-- Write the bank of channel `c`. -/
def set {α : Type} (p : PerChannel α) (c : Channel) (v : α) : PerChannel α :=
  match c with
  | .left => { p with left := v }
  | .right => { p with right := v }

end PerChannel

/-! ## Buffers -/

namespace Memory

/-- The form every buffer has: addresses strictly rising, so that two buffers with the same written bytes are the
same list. A byte once written stays listed, and what an unlisted byte reads as is an arbitrary value no comparison
can decide (log 1). -/
abbrev wf (m : Memory) : Prop := m.Pairwise (fun a b => a.1 < b.1)

/-- Every listed address is inside a buffer of `size` bytes. -/
abbrev inside (m : Memory) (size : Nat) : Prop := ∀ cell ∈ m, cell.1 < size

/-- The byte written at `a`, if any. -/
def find (m : Memory) (a : Nat) : Option Byte :=
  match m with
  | [] => none
  | (k, b) :: rest => if k = a then some b else find rest a

/-- Write byte `b` at `a`. -/
def write (m : Memory) (a : Nat) (b : Byte) : Memory :=
  match m with
  | [] => [(a, b)]
  | (k, c) :: rest =>
    if a < k then (a, b) :: (k, c) :: rest
    else if a = k then (a, b) :: rest
    else (k, c) :: write rest a b

end Memory

/-- A PCM byte of the byte view (R62): the byte written, or the power-on byte of the last reset (R40, U4; log 1). -/
def pcmByte (m : Memory) (epoch a : Nat) : Byte := (Memory.find m a).getD (Config.powerOnPcm epoch a)

/-- `MemRead(ADPCM, a, 1)` (00_scope.md R10): the byte written, or the power-on byte (log 1). -/
def adpcmByte (m : Memory) (epoch a : Nat) : Byte := (Memory.find m a).getD (Config.powerOnAdpcm epoch a)

/-- The pattern of `PCM[i] = {byte[2i+1], byte[2i]}`, little-endian (R62, R64). -/
def pcmEntry (m : Memory) (epoch i : Nat) : Half := pcmByte m epoch (2 * i + 1) ++ pcmByte m epoch (2 * i)

/-- `PCM[i] <- v` (R62). -/
def writePcmEntry (m : Memory) (i : Nat) (v : Half) : Memory :=
  Memory.write (Memory.write m (2 * i) (v.extractLsb' 0 8)) (2 * i + 1) (v.extractLsb' 8 8)

/-- Write `n` consecutive PCM entries from entry 0, entry `i` as `v i`. -/
def writePcmPrefix (v : Nat → Half) (m : Memory) : Nat → Memory
  | 0 => m
  | n + 1 => writePcmEntry (writePcmPrefix v m n) n (v n)

/-- Write `n` consecutive bytes from address 0, byte `a` as `v a`. -/
def writePrefix (v : Nat → Byte) (m : Memory) : Nat → Memory
  | 0 => m
  | n + 1 => Memory.write (writePrefix v m n) n (v n)

namespace State

/-- The byte `ADPCM[a]`. -/
def adpcmAt (s : State) (a : Nat) : Byte := adpcmByte s.adpcm s.epoch a

/-- The pattern of the entry `PCM[i]`. -/
def pcmAt (s : State) (i : Nat) : Half := pcmEntry s.pcm s.epoch i

/-! ## Context and command end -/

/-- Invalidate the context: CTX_VALID and every field of both banks to the reset value (10_state.md R23). -/
def invalidateContext (s : State) : State := { s with ctxValid := false, cs := PerChannel.zeroBanks }

/-- End a command with success: ERR ← NONE and RESULT ← `r` (47_host_commands.md R260, 10_state.md R33). The
sequencer's counters do not survive the command (R24). FAULT stays (R32). -/
def finish (s : State) (r : Nat) : State :=
  { s with err := .noError, result := BitVec.ofNat 32 r, seq := Sequencer.idle }

/-- The error epilogue (60_exceptions.md R301). -/
def raise (s : State) (e : ErrCode) : State :=
  { s with err := e, result := 0, fault := s.fault || e.setsFault, seq := Sequencer.idle }

/-! ## Hardware reset (70_reset_and_hazards.md R330) -/

/-- Every piece of the core's state takes its reset value; the buffers become unspecified anew (a new `epoch`); what
the host still wants and what it has read are the host's (log 14). -/
def hardwareReset (s : State) : State :=
  { State.reset with inbox := s.inbox, reads := s.reads, freeCount := s.freeCount, epoch := s.epoch + 1 }

end State

end Sys2Proof.Machine
end

