-- ==== Sys2Proof/Machine/Roms.lean ====
section
/-! DEFINITION. The read-only tables (10_state.md R37; 40_quantizer.md R110, R111). -/

namespace Sys2Proof.Machine

/-- The STEP ROM, ten entries a row as R110 prints it. -/
def stepRows : List (List Nat) :=
  [[7, 8, 9, 10, 11, 12, 13, 14, 16, 17],
   [19, 21, 23, 25, 28, 31, 34, 37, 41, 45],
   [50, 55, 60, 66, 73, 80, 88, 97, 107, 118],
   [130, 143, 157, 173, 190, 209, 230, 253, 279, 307],
   [337, 371, 408, 449, 494, 544, 598, 658, 724, 796],
   [876, 963, 1060, 1166, 1282, 1411, 1552, 1707, 1878, 2066],
   [2272, 2499, 2749, 3024, 3327, 3660, 4026, 4428, 4871, 5358],
   [5894, 6484, 7132, 7845, 8630, 9493, 10442, 11487, 12635, 13899],
   [15289, 16818, 18500, 20350, 22385, 24623, 27086, 29794, 32767]]

/-- `STEP[i]`; above the last entry a free value, which no run reads (R171, 10_state.md R22; log 12). -/
def stepRom (i : Nat) : Nat :=
  match stepRows[i / 10]? with
  | some row =>
    match row[i % 10]? with
    | some v => v
    | none => (Config.stepBeyondEnd i).toNat
  | none => (Config.stepBeyondEnd i).toNat

/-- The IDX ROM (R111). -/
def indexTable : List Int := [-1, -1, -1, -1, 2, 4, 6, 8]

/-- `IDX[n[2:0]]`: the sign bit does not affect the adjustment (R111). -/
def indexRom (n : Nibble) : Int := indexTable[(n.extractLsb' 0 3).toNat]'((n.extractLsb' 0 3).isLt)

end Sys2Proof.Machine
end

