-- ==== Sys2Proof/Machine/Operands.lean ====
section
/-! DEFINITION. Operand forms: a code's step (30_encoding.md R82), the codes of a byte, the header fields
(R83, R84), the places of a block and of a frame (R85 to R87, 20_memory.md R61), a command's PCM input
(43_encoder.md R181), and the host accesses the interface admits (20_memory.md R66). The LEN operand is
`lenField` of Sys2Proof/Decode.lean. -/

namespace Sys2Proof.Machine

/-! ## Codes -/

/-- A code's operand: `STEP[index]` of the channel state it applies to (R82). -/
def Quant.step (q : Quant) : Nat := stepRom q.index.toNat

/-- Every code, in ascending order (45_lookahead.md R224). -/
def allCodes : List Nibble :=
  [0x0#4, 0x1#4, 0x2#4, 0x3#4, 0x4#4, 0x5#4, 0x6#4, 0x7#4,
   0x8#4, 0x9#4, 0xA#4, 0xB#4, 0xC#4, 0xD#4, 0xE#4, 0xF#4]

/-- Code `h` of a byte: the low nibble first in time (R85). -/
def codeOfByte (b : Byte) (h : Nat) : Nibble := if h = 0 then b.extractLsb' 0 4 else b.extractLsb' 4 4

/-- `{hi, lo}` (R85). -/
def packCodes (lo hi : Nibble) : Byte := hi ++ lo

/-! ## Headers (R83, R84) -/

/-- The address of byte `k` of channel `c`'s header (R83). -/
def headerAddress (c : Channel) (k : Nat) : Nat := 4 * c.toNat + k

/-- The channel state a header carries: `sext_16({b1, b0})`, and the low 7 bits of the index byte, all of it when
the header is well formed (R84; log 15). -/
def headerQuant (b0 b1 b2 : Byte) : Quant := { sample := b1 ++ b0, index := b2.setWidth 7 }

/-- A header is well formed iff the index is at most 88 and the reserved byte is 0 (R84). -/
def headerWellFormed (b2 b3 : Byte) : Bool := b2.toNat ≤ 88 && b3 == 0#8

/-- The bytes of a header, for encoding (R84). -/
def headerByte (q : Quant) (k : Nat) : Byte :=
  if k = 0 then q.sample.extractLsb' 0 8
  else if k = 1 then q.sample.extractLsb' 8 8
  else if k = 2 then q.index.setWidth 8
  else 0#8

/-! ## Places -/

namespace Position

/-- The ADPCM address of the byte at a position: `4·CH + 4·CH·k + 4·c + b` (R85). -/
def address (p : Position) (ch : Nat) : Nat :=
  4 * ch + 4 * ch * p.chunk + 4 * p.channel.toNat + p.byte

/-- The frame whose code stands at a position: `1 + 8k + 2b + h` (R85). -/
def frame (p : Position) : Nat := 1 + 8 * p.chunk + 2 * p.byte + p.nibble

end Position

/-- The entry of sample `c` of frame `f`: `f·CH + c` (20_memory.md R61). -/
def pcmIndex (ch f : Nat) (c : Channel) : Nat := f * ch + c.toNat

/-- Where the code of frame `f ≥ 1` of channel `c` stands: byte address and nibble (30_encoding.md R87). -/
def codePlace (ch f : Nat) (c : Channel) : Nat × Nat :=
  (4 * ch + 4 * ch * ((f - 1) / 8) + 4 * c.toNat + (f - 1) % 8 / 2, (f - 1) % 2)

/-- The byte positions of `chunks` chunks, in the order of 41_decoder.md R154 and 43_encoder.md R185: chunk, then
channel, then byte. -/
def bytePositions (ch chunks : Nat) : List Position :=
  (List.range chunks).flatMap fun k => (channels ch).flatMap fun c => (List.range 4).map fun b =>
    { chunk := k, channel := c, byte := b, nibble := 0 }

/-- The code positions: both nibbles of each byte, the low one first (41_decoder.md R154). -/
def codePositions (ch chunks : Nat) : List Position :=
  (bytePositions ch chunks).flatMap fun p => [p, { p with nibble := 1 }]

/-! ## The PCM input of ENCODE -/

/-- `x(f, c) = sext_16(PCM[min(f, n-1)*CH + c])`: frames past the last are copies of it, and the padding is virtual
(43_encoder.md R181). -/
def State.input (s : State) (n f : Nat) (c : Channel) : Int :=
  (s.pcmAt (pcmIndex s.latch.ch (min f (n - 1)) c)).toInt

/-! ## Host accesses -/

/-- The accesses the interface admits: aligned 32-bit in the register space, whole entries in PCM, bytes in ADPCM,
none beyond the end (20_memory.md R66). -/
def Space.admits (space : Space) (offset bytes : Nat) : Bool :=
  match space with
  | .regs => bytes == 4 && offset % 4 == 0 && offset < Config.registerSpaceBytes
  | .pcm => bytes == 2 && offset % 2 == 0 && offset < 2 * Config.pcmEntries
  | .adpcm => bytes == 1 && offset < Config.adpcmBytes

/-- Where a space begins in the platform's address map: open (20_memory.md R69; log 8). -/
def Space.base : Space → Nat
  | .regs => Config.regBase
  | .pcm => Config.pcmBase
  | .adpcm => Config.adpcmBase

/-- The platform address of a byte offset of a space (R69). No rule depends on it. -/
def Space.platformAddress (space : Space) (offset : Nat) : Nat := space.base + offset

end Sys2Proof.Machine
end

