-- ==== Sys2Proof/Machine/Quantizer.lean ====
section
/-! DEFINITION. The quantizer pipeline and the meaning of the 16 codes (40_quantizer.md). -/

namespace Sys2Proof.Machine

/-- `codeDelta(step, n)`: each shift is applied to `step` itself, and the negation comes last (R113). -/
def codeDelta (step : Nat) (n : Nibble) : Int :=
  let d := step >>> 3
  let d := if n.getLsbD 0 then d + step >>> 2 else d
  let d := if n.getLsbD 1 then d + step >>> 1 else d
  let d := if n.getLsbD 2 then d + step else d
  if n.getLsbD 3 then -(d : Int) else d

/-- The sample after a code (R114). -/
def nextSample (sample : Int) (step : Nat) (n : Nibble) : Int :=
  clamp (sample + codeDelta step n) (-32768) 32767

/-- The index after a code (R114). -/
def nextIndex (index : Nat) (n : Nibble) : Nat := (clamp (index + indexRom n) 0 88).toNat

/-- `applyCode(sample, index, n)`: the step is the one the index selects before the update (R114). -/
def applyCode (sample : Int) (index : Nat) (n : Nibble) : Int × Nat :=
  (nextSample sample (stepRom index) n, nextIndex index n)

/-- The quantizer update of a channel state (R114): the one operation through which a code changes it. -/
def Quant.apply (q : Quant) (n : Nibble) : Quant :=
  let r := applyCode q.sample.toInt q.index.toNat n
  { sample := BitVec.ofInt 16 r.1, index := BitVec.ofNat 7 r.2 }

namespace State

/-- The channel state a code executed on its own applies to (log 4). -/
def selectedQuant (s : State) : Quant :=
  match s.seq.engine with
  | .encoder => (s.cs.get s.seq.pos.channel).toQuant
  | .decoder => s.dec.get s.seq.pos.channel

/-- Write the selected channel state, and nothing else of the bank. -/
def setSelectedQuant (s : State) (q : Quant) : State :=
  match s.seq.engine with
  | .encoder =>
    { s with cs := s.cs.set s.seq.pos.channel { s.cs.get s.seq.pos.channel with toQuant := q } }
  | .decoder => { s with dec := s.dec.set s.seq.pos.channel q }

/-- Apply a code to the selected channel state. -/
def applySelected (s : State) (n : Nibble) : State := s.setSelectedQuant (s.selectedQuant.apply n)

end State

/-! ## The codes (R118 to R133): no flag is written and none raises an exception. -/

/-- P0, R118. -/
def execP0 (s : State) : Host.Outcome State Fault Refusal := .next (s.applySelected 0x0#4)
/-- P1, R119. -/
def execP1 (s : State) : Host.Outcome State Fault Refusal := .next (s.applySelected 0x1#4)
/-- P2, R120. -/
def execP2 (s : State) : Host.Outcome State Fault Refusal := .next (s.applySelected 0x2#4)
/-- P3, R121. -/
def execP3 (s : State) : Host.Outcome State Fault Refusal := .next (s.applySelected 0x3#4)
/-- P4, R122. -/
def execP4 (s : State) : Host.Outcome State Fault Refusal := .next (s.applySelected 0x4#4)
/-- P5, R123. -/
def execP5 (s : State) : Host.Outcome State Fault Refusal := .next (s.applySelected 0x5#4)
/-- P6, R124. -/
def execP6 (s : State) : Host.Outcome State Fault Refusal := .next (s.applySelected 0x6#4)
/-- P7, R125. -/
def execP7 (s : State) : Host.Outcome State Fault Refusal := .next (s.applySelected 0x7#4)
/-- N0, R126. -/
def execN0 (s : State) : Host.Outcome State Fault Refusal := .next (s.applySelected 0x8#4)
/-- N1, R127. -/
def execN1 (s : State) : Host.Outcome State Fault Refusal := .next (s.applySelected 0x9#4)
/-- N2, R128. -/
def execN2 (s : State) : Host.Outcome State Fault Refusal := .next (s.applySelected 0xA#4)
/-- N3, R129. -/
def execN3 (s : State) : Host.Outcome State Fault Refusal := .next (s.applySelected 0xB#4)
/-- N4, R130. -/
def execN4 (s : State) : Host.Outcome State Fault Refusal := .next (s.applySelected 0xC#4)
/-- N5, R131. -/
def execN5 (s : State) : Host.Outcome State Fault Refusal := .next (s.applySelected 0xD#4)
/-- N6, R132. -/
def execN6 (s : State) : Host.Outcome State Fault Refusal := .next (s.applySelected 0xE#4)
/-- N7, R133. -/
def execN7 (s : State) : Host.Outcome State Fault Refusal := .next (s.applySelected 0xF#4)

end Sys2Proof.Machine
end

