-- ==== Sys2Proof/Machine/Shaping.lean ====
section
/-! DEFINITION. Noise shaping: the pre-filter of encode-sample and the error accumulation after it
(44_noise_shaping.md). Every value the rules mark `chk` is checked (00_scope.md R9). -/

namespace Sys2Proof.Machine

/-- The mode CONFIGURE selects (R200). -/
def selectNsMode (nsEn : Bool) (rate : Nat) : NsMode :=
  if !nsEn then .off else if rate > 64000 then .static else .dynamic

/-- Static shaping: the bank after it and the shaped sample (R201). -/
def shapeStatic (b : Chan) (s : Int) : Checked (Chan × Int) := do
  let s ← chk (s - b.error.toInt)
  let e ← chk (-s)
  .ok ({ b with error := BitVec.ofInt 32 e }, s)

/-- Dynamic step 1: the second-difference prediction `sam` (R202). -/
def predict (b : Chan) : Checked Int := do
  let p ← chk (3 * b.h0.toInt - b.h1.toInt)
  .ok (asr p 1)

/-- Dynamic step 1: the residual `temp` against the weighted prediction (R202). -/
def residual (weight sam s : Int) : Checked Int := do
  let product ← chk (weight * sam)
  let rounded ← chk (product + 512)
  chk (s - asr rounded 10)

/-- Dynamic step 2: the weight after adaptation; no change when either value is 0 (R203). -/
def adaptWeight (weight sam temp : Int) : Checked Int :=
  if sam ≠ 0 ∧ temp ≠ 0 then
    if (sam < 0) = (temp < 0) then chk (weight + 2) else chk (weight - 2)
  else .ok weight

/-- Dynamic step 4: the gain of the adapted weight (R205). -/
def shapingGain (weight : Int) : Checked Int :=
  if weight < 256 then .ok 1024
  else do
    let twice ← chk (2 * weight)
    chk (1536 - twice)

/-- Dynamic step 5: the filtered error term `t` before its correction (R206). -/
def errorTerm (sw error : Int) : Checked Int := do
  let product ← chk (sw * error)
  let rounded ← chk (product + 512)
  .ok (-(asr rounded 10))

/-- Dynamic step 5: the ±1 correction toward 0 when the term equals the accumulated error (R206). -/
def correctTerm (t error : Int) : Int :=
  if t = error then (if t < 0 then t + 1 else if t > 0 then t - 1 else t) else t

/-- Dynamic step 5: the new error and the shaped sample. With a negative gain and a term other than 0 the error is
negated from the raw sample, otherwise from the shaped one (R206). -/
def feedBack (sw error s : Int) : Checked (Int × Int) := do
  let t ← errorTerm sw error
  if sw < 0 ∧ t ≠ 0 then
    let e ← chk (-s)
    let shaped ← chk (s + correctTerm t error)
    .ok (e, shaped)
  else
    let shaped ← chk (s + t)
    let e ← chk (-shaped)
    .ok (e, shaped)

/-- Dynamic shaping: the steps in the order R202, R203, R204, R205, R206 (R208). The history takes the raw input
(R204). -/
def shapeDynamic (b : Chan) (s : Int) : Checked (Chan × Int) := do
  let sam ← predict b
  let temp ← residual b.weight.toInt sam s
  let weight ← adaptWeight b.weight.toInt sam temp
  let sw ← shapingGain weight
  let fed ← feedBack sw b.error.toInt s
  .ok ({ b with h1 := b.h0, h0 := BitVec.ofInt 16 s, weight := BitVec.ofInt 32 weight,
                error := BitVec.ofInt 32 fed.1 }, fed.2)

/-- `shape(c, s)` (R200): the identity when NS_MODE = OFF. -/
def shape (mode : NsMode) (b : Chan) (s : Int) : Checked (Chan × Int) :=
  match mode with
  | .off => .ok (b, s)
  | .static => shapeStatic b s
  | .dynamic => shapeDynamic b s

/-- After the code is applied, the new reconstructed sample is added to the error; not in OFF mode (R207). -/
def accumulateError (mode : NsMode) (b : Chan) : Checked Chan :=
  match mode with
  | .off => .ok b
  | .static | .dynamic => do
    let e ← chk (b.error.toInt + b.sample.toInt)
    .ok { b with error := BitVec.ofInt 32 e }

end Sys2Proof.Machine
end

