-- ==== Sys2Proof/Machine/Latch.lean ====
section
/-! DEFINITION. The configuration latch: what CONFIGURE accepts and latches (47_host_commands.md R261). -/

namespace Sys2Proof.Machine

/-- The check of CONFIGURE that failed, its info value 0, 1 or 2; recorded nowhere (R261, U10). -/
inductive ConfigProblem where
  | channelsOrReserved
  | sampleRate
  | blockSize
  deriving DecidableEq, Repr

/-- `CONFIG[1:0]`, CHANNELS (10_state.md R27). -/
def configChannels (config : Word) : Nat := (config.extractLsb' 0 2).toNat
/-- `CONFIG[2]`, NS_EN (R27). -/
def configNsEn (config : Word) : Bool := config.getLsbD 2
/-- `CONFIG[31:3]`, reserved (R27). -/
def configReserved (config : Word) : BitVec 29 := config.extractLsb' 3 29

/-- The explicit block sizes: the powers of two in [256, 32768] (10_state.md R28). -/
def explicitBlockSizes : List Nat := [256, 512, 1024, 2048, 4096, 8192, 16384, 32768]

/-- The block size in force: AUTO when BLOCK_SIZE is 0 (R261, 46_block_arithmetic.md R242, R243). -/
def effectiveBlockSize (ch rate bsr : Nat) : Except ConfigProblem Nat :=
  if bsr = 0 then
    if autoBlockSize ch rate > 32768 then .error .blockSize else .ok (autoBlockSize ch rate)
  else if bsr ∈ explicitBlockSizes then .ok bsr
  else .error .blockSize

/-- The checks of CONFIGURE and the configuration it latches (R261). -/
def checkConfig (config blockSize sampleRate : Word) : Except ConfigProblem Latch :=
  let ch := configChannels config
  let rate := sampleRate.toNat
  if (ch ≠ 1 ∧ ch ≠ 2) ∨ configReserved config ≠ 0#29 then .error .channelsOrReserved
  else if rate = 0 ∨ rate > 2147483647 then .error .sampleRate
  else
    match effectiveBlockSize ch rate blockSize.toNat with
    | .error e => .error e
    | .ok bs =>
      .ok { cfgValid := true, ch := ch, nsMode := selectNsMode (configNsEn config) rate, bs := bs,
            spb := samplesPerBlock ch bs, rate := rate }

/-- The latch after CONFIGURE reads these register values: invalid where a check fails (R261). -/
def latchedBy (config blockSize sampleRate : Word) : Latch :=
  match checkConfig config blockSize sampleRate with
  | .ok latch => latch
  | .error _ => Latch.invalid

/-- The noise-shaping mode is one that `selectNsMode` gives at this rate (44_noise_shaping.md R200). -/
def nsModeFits (mode : NsMode) (rate : Nat) : Bool :=
  match mode with
  | .off => true
  | .static => rate > 64000
  | .dynamic => rate ≤ 64000

/-- A configuration of the shape CONFIGURE latches: any block size that is a multiple of 256 in range passes, whether
or not AUTO gives it at this rate (10_state.md R25, R261; log 10). -/
def Latch.legal (l : Latch) : Bool :=
  l.cfgValid && (l.ch == 1 || l.ch == 2) && nsModeFits l.nsMode l.rate &&
  (256 ≤ l.bs && l.bs ≤ 32768 && l.bs % 256 == 0) && l.spb == samplesPerBlock l.ch l.bs &&
  (1 ≤ l.rate && l.rate ≤ 2147483647)

end Sys2Proof.Machine
end

