-- ==== Sys2Proof/Machine/Commands.lean ====
section
/-! DEFINITION. The commands that act on the core's environment (47_host_commands.md R271): CFG and RSTS. -/

namespace Sys2Proof.Machine

/-- CFG: CONFIGURE (R261). The latch and the context are invalidated first, even when a check then fails. -/
def execCfg (s : State) : Host.Outcome State Fault Refusal :=
  let s := { s.invalidateContext with latch := Latch.invalid }
  match checkConfig s.config s.blockSize s.sampleRate with
  | .error _ => .next (s.raise .configurationError)
  | .ok latch => .next ({ s with latch := latch }.finish 0)

/-- RSTS: RESET_STREAM (R264). -/
def execRsts (s : State) : Host.Outcome State Fault Refusal := .next (s.invalidateContext.finish 0)

end Sys2Proof.Machine
end

