-- ==== Sys2Proof/Machine/Decoder.lean ====
section
/-! DEFINITION. The decoder and the DEC command (41_decoder.md; 47_host_commands.md R263). It never reads or writes
`cs[]` or CTX_VALID (R150). -/

namespace Sys2Proof.Machine

/-- Chunks of a block of `l` bytes; the bytes after the last whole chunk are ignored (R153). -/
def chunkCount (ch l : Nat) : Nat := (l - 4 * ch) / (4 * ch)

/-- Frames a block of `l` bytes carries (R155), and would have carried (R158). -/
def frameCount (ch l : Nat) : Nat := 1 + 8 * chunkCount ch l

/-- Header parse (R152), channel by channel; it stops at the first malformed header. It answers the working
registers as it leaves them and whether every header is well formed. -/
def parseHeaders (byte : Nat → Byte) : List Channel → PerChannel Quant → PerChannel Quant × Bool
  | [], dec => (dec, true)
  | c :: rest, dec =>
    let b := fun k => byte (headerAddress c k)
    let dec := dec.set c (headerQuant (b 0) (b 1) (b 2))
    if headerWellFormed (b 2) (b 3) then parseHeaders byte rest dec else (dec, false)

/-- What the chunk loop carries: the working registers and the PCM buffer. -/
structure DecodeWork where
  dec : PerChannel Quant
  pcm : Memory

/-- Write channel `c`'s working sample to frame `f` (R152, R156). -/
def emitSample (ch f : Nat) (w : DecodeWork) (c : Channel) : DecodeWork :=
  { w with pcm := writePcmEntry w.pcm (pcmIndex ch f c) (w.dec.get c).sample }

/-- One code of the chunk loop: apply it to the channel's working registers and write the sample (R154). -/
def decodeOne (ch : Nat) (byte : Nat → Byte) (w : DecodeWork) (p : Position) : DecodeWork :=
  let n := codeOfByte (byte (p.address ch)) p.nibble
  emitSample ch p.frame { w with dec := w.dec.set p.channel ((w.dec.get p.channel).apply n) } p.channel

/-- The block after its headers are parsed: frame 0 is the header sample, then the chunk loop (R152 to R154). -/
def decodeChunks (ch l : Nat) (byte : Nat → Byte) (dec : PerChannel Quant) (pcm : Memory) : DecodeWork :=
  (codePositions ch (chunkCount ch l)).foldl (decodeOne ch byte)
    ((channels ch).foldl (emitSample ch 0) { dec := dec, pcm := pcm })

namespace State

/-- What a failed DECODE leaves of PCM: the entries `PCM[0 .. CH·Fw - 1]` hold arbitrary values, the others stay
(R158, 60_exceptions.md R304; log 6). -/
def afterDecodeError (s : State) (l : Nat) : State :=
  { s with
    pcm := writePcmPrefix (Config.freePcm s.freeCount) s.pcm (s.latch.ch * frameCount s.latch.ch l)
    freeCount := s.freeCount + 1 }

/-- DECODE once its operand is accepted (R151 to R155, R158). -/
def decodeBlock (s : State) (l : Nat) : State :=
  let ch := s.latch.ch
  if l < 4 * ch then (s.afterDecodeError l).raise .truncatedInput
  else
    let parsed := parseHeaders s.adpcmAt (channels ch) s.dec
    if parsed.2 then
      let w := decodeChunks ch l s.adpcmAt parsed.1 s.pcm
      { s with dec := w.dec, pcm := w.pcm }.finish (frameCount ch l)
    else { s.afterDecodeError l with dec := parsed.1 }.raise .malformedBlockHeader

end State

/-- DEC L: DECODE (47_host_commands.md R263). -/
def execDec (l : Nat) (s : State) : Host.Outcome State Fault Refusal :=
  if !s.latch.cfgValid then .next (s.raise .notConfigured)
  else if !s.latch.legal then .fault .illegalLatch
  else if l > s.latch.bs then .next (s.raise .badLength)
  else .next (s.decodeBlock l)

/-! ## One channel of a block -/

/-- The code of frame `f ≥ 1` of channel `c` (30_encoding.md R87). -/
def codeOfFrame (ch : Nat) (byte : Nat → Byte) (c : Channel) (f : Nat) : Nibble :=
  codeOfByte (byte (codePlace ch f c).1) (codePlace ch f c).2

/-- The working registers of channel `c` after frame `f` of a block: the header's, then one code a frame. -/
def decodedQuant (ch : Nat) (byte : Nat → Byte) (c : Channel) : Nat → Quant
  | 0 => headerQuant (byte (headerAddress c 0)) (byte (headerAddress c 1)) (byte (headerAddress c 2))
  | f + 1 => (decodedQuant ch byte c f).apply (codeOfFrame ch byte c (f + 1))

end Sys2Proof.Machine
end

