-- ==== Sys2Proof/Machine/Search.lean ====
section
/-! DEFINITION. The lookahead minimum-error search (45_lookahead.md), a pure function of a hypothetical channel
state, a target and the raw targets of the frames looked at (R220, R223, R228). Errors are exact natural numbers,
never checked (R227). -/

namespace Sys2Proof.Machine

/-- The magnitude `min(7, (|delta| << 2) / step)` of the greedy code, its shift checked (R221). -/
def greedyMagnitude (distance : Int) (step : Nat) : Checked Nat := do
  let scaled ← chk (distance * 4)
  .ok (min 7 (scaled.toNat / step))

/-- The code computed directly from the difference; a difference of 0 gives 0x0 (R221). -/
def greedy (sample : Int) (index : Nat) (s : Int) : Checked Nibble := do
  let delta ← chk (s - sample)
  if delta < 0 then
    let distance ← chk (-delta)
    let m ← greedyMagnitude distance (stepRom index)
    .ok (BitVec.ofNat 4 (8 + m))
  else
    let m ← greedyMagnitude delta (stepRom index)
    .ok (BitVec.ofNat 4 m)

/-- The squared error of a reconstruction (R222). -/
def squaredError (reconstruction target : Int) : Nat := (reconstruction - target).natAbs ^ 2

/-- One alternative of the loop of R224: skipped if it is the greedy code, discarded without recursion unless its
immediate error beats the running minimum (R225), and taken only if its total is strictly smaller (R226). Every
alternative starts from the pre-search state. -/
def tryCode (sample : Int) (index : Nat) (s : Int) (g : Nibble) (child : Int → Nat → Checked (Nibble × Nat))
    (best : Nibble × Nat) (n : Nibble) : Checked (Nibble × Nat) :=
  if n = g then .ok best
  else
    let trial := applyCode sample index n
    let e := squaredError trial.1 s
    if e < best.2 then do
      let below ← child trial.1 trial.2
      if e + below.2 < best.2 then .ok (n, e + below.2) else .ok best
    else .ok best

/-- `search(sample, index, s, c, f, depth)` (R220): `future` holds the raw targets `x(f+1, c) .. x(f+depth, c)`
(R223), so `depth` is its length. It answers the chosen code and the minimum total error. At depth 0 it is the
greedy code with its immediate error (R222); otherwise the greedy code is the first candidate and the others are
tried in ascending order (R224). -/
def search (sample : Int) (index : Nat) (s : Int) : List Int → Checked (Nibble × Nat)
  | [] => do
    let g ← greedy sample index s
    .ok (g, squaredError (applyCode sample index g).1 s)
  | target :: future => do
    let g ← greedy sample index s
    let trial := applyCode sample index g
    let below ← search trial.1 trial.2 target future
    allCodes.foldlM (tryCode sample index s g (fun s1 i1 => search s1 i1 target future))
      (g, squaredError trial.1 s + below.2)

end Sys2Proof.Machine
end

