-- ==== Sys2Proof/Machine/Seeding.lean ====
section
/-! DEFINITION. Context seeding (42_context_init.md). -/

namespace Sys2Proof.Machine

/-- The running average of absolute first differences, from frame pair `(t, t-1)` down to `(1, 0)` (R170). -/
def runningAverage (x : Nat → Int) : Nat → Nat → Nat
  | 0, avg => avg
  | t + 1, avg => runningAverage x t (avg - avg >>> 3 + (x (t + 1) - x t).natAbs)

/-- `delta0` of one channel over its `frames` padded frames (R170). -/
def initialDelta (x : Nat → Int) (frames : Nat) : Nat := runningAverage x (frames - 1) 0 >>> 3

/-- The midpoint between a step and the next, rounded down (R171). -/
def midpoint (i : Nat) : Nat := (stepRom i + stepRom (i + 1)) / 2

/-- The smallest index whose midpoint is above the initial delta, and 88 if there is none (R171). -/
def seedIndex (d : Nat) : Nat := ((List.range 88).find? fun i => d < midpoint i).getD 88

/-- Seed the index of bank `c` from the block's frames; the other fields keep their values (R172). -/
def seedBank (b : Chan) (x : Nat → Int) (frames : Nat) : Chan :=
  { b with index := BitVec.ofNat 7 (seedIndex (initialDelta x frames)) }

end Sys2Proof.Machine
end

