-- ==== Sys2Proof/Machine/Encoder.lean ====
section
/-! DEFINITION. The encoder and the ENC command (43_encoder.md; 47_host_commands.md R262). -/

namespace Sys2Proof.Machine

/-! ## One sample -/

/-- encode-sample (R186) on one channel bank: shape the raw input, search, apply the code as the decoder will, and
accumulate the error. `future` holds the raw inputs the search looks at (R187). -/
def encodeSample (mode : NsMode) (b : Chan) (raw : Int) (future : List Int) : Checked (Nibble × Chan) := do
  let shaped ← shape mode b raw
  let found ← search shaped.1.sample.toInt shaped.1.index.toNat shaped.2 future
  let b ← accumulateError mode { shaped.1 with toQuant := shaped.1.toQuant.apply found.1 }
  .ok (found.1, b)

/-- The raw inputs after frame `f` that the search looks at: `min(r - 1, LOOKAHEAD)` frames, where `r = N - f`
(R187). -/
def lookaheadTargets (x : Nat → Int) (frames f : Nat) : List Int :=
  (List.range (min (frames - f - 1) Config.lookahead)).map fun j => x (f + 1 + j)

/-- encode-sample for frame `f` of a block of `frames` padded frames with inputs `x`. -/
def encodeFrame (mode : NsMode) (x : Nat → Int) (frames : Nat) (b : Chan) (f : Nat) : Checked (Nibble × Chan) :=
  encodeSample mode b (x f) (lookaheadTargets x frames f)

/-! ## One block -/

/-- What the chunk loop carries: the banks, the ADPCM buffer and the count of bytes written (R188). -/
structure EncodeWork where
  cs : PerChannel Chan
  adpcm : Memory
  written : Nat

/-- `MemWrite(ADPCM, a, 1, v)`, counted. -/
def EncodeWork.put (w : EncodeWork) (a : Nat) (v : Byte) : EncodeWork :=
  { w with adpcm := Memory.write w.adpcm a v, written := w.written + 1 }

/-- The header of channel `c`, emitted from its bank (R184). -/
def emitHeader (w : EncodeWork) (c : Channel) : EncodeWork :=
  (List.range 4).foldl (fun w k => w.put (headerAddress c k) (headerByte (w.cs.get c).toQuant k)) w

/-- One byte of the chunk loop: two samples of one channel, the first in the low nibble (R185). -/
def encodeByte (mode : NsMode) (ch frames : Nat) (x : Channel → Nat → Int) (w : EncodeWork) (p : Position) :
    Checked EncodeWork := do
  let lo ← encodeFrame mode (x p.channel) frames (w.cs.get p.channel) p.frame
  let hi ← encodeFrame mode (x p.channel) frames lo.2 { p with nibble := 1 : Position }.frame
  .ok ({ w with cs := w.cs.set p.channel hi.2 }.put (p.address ch) (packCodes lo.1 hi.1))

/-- Block start: seed the context of a new stream, then load the running sample from the block's first frame
(42_context_init.md R172, R183). -/
def startBank (seed : Bool) (x : Nat → Int) (frames : Nat) (b : Chan) : Chan :=
  { (if seed then seedBank b x frames else b) with sample := BitVec.ofInt 16 (x 0) }

/-- Block start for channels `0 .. CH-1`. -/
def startBanks (seed : Bool) (ch : Nat) (x : Channel → Nat → Int) (frames : Nat) (cs : PerChannel Chan) :
    PerChannel Chan :=
  (channels ch).foldl (fun cs c => cs.set c (startBank seed (x c) frames (cs.get c))) cs

/-- The block: headers, then the chunk loop (R183 to R185). -/
def encodeChunks (mode : NsMode) (ch frames : Nat) (x : Channel → Nat → Int) (seed : Bool) (cs : PerChannel Chan)
    (adpcm : Memory) : Checked EncodeWork :=
  let start : EncodeWork := { cs := startBanks seed ch x frames cs, adpcm := adpcm, written := 0 }
  (bytePositions ch ((frames - 1) / 8)).foldlM (encodeByte mode ch frames x)
    ((channels ch).foldl emitHeader start)

/-- The self-check of the output length (R188). -/
def checkLength (ch n : Nat) (w : EncodeWork) : Checked EncodeWork :=
  if w.written = blockBytes ch n then .ok w else .error .encodingSizeMismatch

/-- The bank of a channel after a failed ENCODE: arbitrary within each field's legal range (60_exceptions.md R305,
U2; log 7). -/
def freeBank (count channel : Nat) : Chan :=
  { sample := Config.freeSample count channel
    index := BitVec.ofNat 7 (Config.freeIndex count channel).val
    h0 := Config.freeH0 count channel
    h1 := Config.freeH1 count channel
    weight := Config.freeWeight count channel
    error := Config.freeError count channel }

namespace State

/-- What NUMERIC_RANGE and ENCODING_SIZE_MISMATCH leave (R305): CTX_VALID = 1, the banks `0 .. CH-1` and the bytes
`ADPCM[0 .. blockBytes(CH, n) - 1]` arbitrary, the rest as it was (log 7). -/
def afterEncodeError (s : State) (n : Nat) : State :=
  { s with
    ctxValid := true
    cs := (channels s.latch.ch).foldl (fun cs c => cs.set c (freeBank s.freeCount c.toNat)) s.cs
    adpcm := writePrefix (Config.freeAdpcm s.freeCount) s.adpcm (blockBytes s.latch.ch n)
    freeCount := s.freeCount + 1 }

/-- The block of the `n ≥ 1` frames in PCM, encoded (R181 to R188). -/
def encodedBlock (s : State) (n : Nat) : Checked EncodeWork := do
  let w ← encodeChunks s.latch.nsMode s.latch.ch (pad n) (fun c f => s.input n f c) (!s.ctxValid) s.cs s.adpcm
  checkLength s.latch.ch n w

/-- ENCODE once its operand is accepted: an empty block changes nothing (R182), an encoded one updates the context
and the ADPCM buffer (R189), an error ends it by R301 and R305. -/
def encodeBlock (s : State) (n : Nat) : State :=
  if n = 0 then s.finish 0
  else
    match s.encodedBlock n with
    | .ok w => { s with ctxValid := true, cs := w.cs, adpcm := w.adpcm }.finish w.written
    | .error e => (s.afterEncodeError n).raise e

end State

/-- ENC n: ENCODE (47_host_commands.md R262). -/
def execEnc (n : Nat) (s : State) : Host.Outcome State Fault Refusal :=
  if !s.latch.cfgValid then .next (s.raise .notConfigured)
  else if !s.latch.legal then .fault .illegalLatch
  else if n > s.latch.spb then .next (s.raise .badLength)
  else .next (s.encodeBlock n)

/-! ## The running reconstruction (R190) -/

/-- The bank of one channel after frame `f` of a block is coded, from its bank at block start: `rec(f, c)` is its
`sample`. -/
def bankAfter (mode : NsMode) (x : Nat → Int) (frames : Nat) (start : Chan) : Nat → Checked Chan
  | 0 => .ok start
  | f + 1 => do
    let b ← bankAfter mode x frames start f
    let r ← encodeFrame mode x frames b (f + 1)
    .ok r.2

/-- The code chosen for frame `f ≥ 1` of one channel. -/
def chosenCode (mode : NsMode) (x : Nat → Int) (frames : Nat) (start : Chan) (f : Nat) : Checked Nibble := do
  let b ← bankAfter mode x frames start (f - 1)
  let r ← encodeFrame mode x frames b f
  .ok r.1

end Sys2Proof.Machine
end

