-- ==== Sys2Proof/Machine/Dispatch.lean ====
section
/-! DEFINITION. One arm per instruction, each one call of its meaning. -/

namespace Sys2Proof.Machine

/-- The instruction's effect: the codes of 40_quantizer.md, the commands of 47_host_commands.md R260. -/
def exec (i : Instr) (s : State) : Host.Outcome State Fault Refusal :=
  match i with
  | .p0 => Sys2Proof.Machine.execP0 s
  | .p1 => Sys2Proof.Machine.execP1 s
  | .p2 => Sys2Proof.Machine.execP2 s
  | .p3 => Sys2Proof.Machine.execP3 s
  | .p4 => Sys2Proof.Machine.execP4 s
  | .p5 => Sys2Proof.Machine.execP5 s
  | .p6 => Sys2Proof.Machine.execP6 s
  | .p7 => Sys2Proof.Machine.execP7 s
  | .n0 => Sys2Proof.Machine.execN0 s
  | .n1 => Sys2Proof.Machine.execN1 s
  | .n2 => Sys2Proof.Machine.execN2 s
  | .n3 => Sys2Proof.Machine.execN3 s
  | .n4 => Sys2Proof.Machine.execN4 s
  | .n5 => Sys2Proof.Machine.execN5 s
  | .n6 => Sys2Proof.Machine.execN6 s
  | .n7 => Sys2Proof.Machine.execN7 s
  | .cfg => Sys2Proof.Machine.execCfg s
  | .enc n => Sys2Proof.Machine.execEnc n s
  | .dec l => Sys2Proof.Machine.execDec l s
  | .rsts => Sys2Proof.Machine.execRsts s

end Sys2Proof.Machine
end

