-- ==== Sys2Proof/WellFormed.lean ====
section
/-! DEFINITION. Which instructions have an encoding: the LEN operand is 16 bits unsigned
(30_encoding.md R90, R92). -/

namespace Sys2Proof

/-- A LEN operand fits its 16-bit field (R92). -/
def lenFits (n : Nat) : Bool := n < 65536

/-- Every instruction but an `enc` or `dec` whose operand does not fit LEN has an encoding. -/
def Instr.wellFormed : Instr → Bool
  | .enc n => lenFits n
  | .dec l => lenFits l
  | .p0 | .p1 | .p2 | .p3 | .p4 | .p5 | .p6 | .p7 => true
  | .n0 | .n1 | .n2 | .n3 | .n4 | .n5 | .n6 | .n7 => true
  | .cfg | .rsts => true

end Sys2Proof
end

