-- ==== Sys2Proof/Decode.lean ====
section
/-! DEFINITION. The decoder, total on any encoding and rejecting by name, and the encoder. Two formats carry
instructions: the 4-bit code (30_encoding.md R81, R97) and the 32-bit command word (R90 to R93). -/

namespace Sys2Proof

/-- What is given to the decoder: a code at the quantizer or a word written to COMMAND. -/
inductive Encoding where
  | code (n : Nibble)
  | command (w : Word)
  deriving DecidableEq, Repr

/-- Why a command word is illegal (30_encoding.md R93). No code is (R81, R89). -/
inductive Illegal where
  /-- RSV is not 0. -/
  | reservedBits
  /-- OP is not 0x1, 0x2, 0x3 or 0x4. -/
  | unknownOpcode
  /-- OP is 0x1 or 0x4 and LEN is not 0. -/
  | lengthNotZero
  deriving DecidableEq, Repr

/-! ## Fields of a command word (R90) -/

def opField (w : Word) : Nibble := w.extractLsb' 0 4
def rsvField (w : Word) : BitVec 12 := w.extractLsb' 4 12
/-- `LEN = zext_16(word[31:16])`: never sign-extended or scaled (R92). -/
def lenField (w : Word) : Nat := (w.extractLsb' 16 16).toNat

/-- A command word's instruction (R91, R93). -/
def decodeCommand (w : Word) : Except Illegal Instr :=
  if rsvField w ≠ 0#12 then .error .reservedBits
  else if opField w = 0x1#4 then
    if lenField w = 0 then .ok .cfg else .error .lengthNotZero
  else if opField w = 0x2#4 then .ok (.enc (lenField w))
  else if opField w = 0x3#4 then .ok (.dec (lenField w))
  else if opField w = 0x4#4 then
    if lenField w = 0 then .ok .rsts else .error .lengthNotZero
  else .error .unknownOpcode

/-- The codes 0x0 to 0xF in order (R97). -/
def codeList : List Instr :=
  [.p0, .p1, .p2, .p3, .p4, .p5, .p6, .p7, .n0, .n1, .n2, .n3, .n4, .n5, .n6, .n7]

/-- A code's instruction: all 16 values are legal (R81). -/
def decodeCode (n : Nibble) : Instr := codeList[n.toNat]'(n.isLt)

/-- The decoder. -/
def decode : Encoding → Except Illegal Instr
  | .code n => .ok (decodeCode n)
  | .command w => decodeCommand w

/-! ## The encoder -/

/-- A command word from its fields, `(LEN << 16) | OP` with RSV = 0 (R90, R95). -/
def commandWord (op : Nibble) (len : Nat) : Word := BitVec.ofNat 16 len ++ (0#12 ++ op)

/-- The encoding of an instruction (R81, R91, R97). -/
def encode : Instr → Encoding
  | .p0 => .code 0x0#4 | .p1 => .code 0x1#4 | .p2 => .code 0x2#4 | .p3 => .code 0x3#4
  | .p4 => .code 0x4#4 | .p5 => .code 0x5#4 | .p6 => .code 0x6#4 | .p7 => .code 0x7#4
  | .n0 => .code 0x8#4 | .n1 => .code 0x9#4 | .n2 => .code 0xA#4 | .n3 => .code 0xB#4
  | .n4 => .code 0xC#4 | .n5 => .code 0xD#4 | .n6 => .code 0xE#4 | .n7 => .code 0xF#4
  | .cfg => .command (commandWord 0x1#4 0)
  | .enc n => .command (commandWord 0x2#4 n)
  | .dec l => .command (commandWord 0x3#4 l)
  | .rsts => .command (commandWord 0x4#4 0)

/-! ## The opcode table's rows -/

/-- The encoding whose bits are `w`, for a row of `nbits` bits: a row of at most 8 bits is a code (4 bits, so the
byte's high half is 0), a wider one a command word. -/
def tableEncoding (nbits w : Nat) : Option Encoding :=
  if nbits ≤ 8 then
    if w < 16 then some (.code (BitVec.ofNat 4 w)) else none
  else if w < 2 ^ 32 then some (.command (BitVec.ofNat 32 w)) else none

/-- The instruction the decoder reads from a row's word. -/
def decodeTableWord (nbits w : Nat) : Option Instr :=
  match tableEncoding nbits w with
  | some e => (decode e).toOption
  | none => none

end Sys2Proof
end

