-- ==== Sys2Proof/Machine/HostPort.lean ====
section
/-! DEFINITION. The host's side: the register map (10_state.md R26 to R36), register and buffer accesses
(47_host_commands.md R265, R266; 20_memory.md R66, R67), hardware reset, and which accesses carry an instruction. -/

namespace Sys2Proof.Machine

/-! ## The register map (R26) -/

/-- The registers of the table of R26. -/
inductive Register where
  | config | blockSize | sampleRate | command | status | result
  | effBlockSize | samplesPerBlock | bytesPerSecond
  | chSample (c : Channel) | chIndex (c : Channel) | chHist0 (c : Channel)
  | chHist1 (c : Channel) | chWeight (c : Channel) | chError (c : Channel)
  deriving DecidableEq, Repr

/-- A register's byte offset (R26). -/
def Register.offset : Register → Nat
  | .config => 0x00
  | .blockSize => 0x04
  | .sampleRate => 0x08
  | .command => 0x0C
  | .status => 0x10
  | .result => 0x14
  | .effBlockSize => 0x18
  | .samplesPerBlock => 0x1C
  | .bytesPerSecond => 0x20
  | .chSample c => 0x40 + 0x20 * c.toNat
  | .chIndex c => 0x44 + 0x20 * c.toNat
  | .chHist0 c => 0x48 + 0x20 * c.toNat
  | .chHist1 c => 0x4C + 0x20 * c.toNat
  | .chWeight c => 0x50 + 0x20 * c.toNat
  | .chError c => 0x54 + 0x20 * c.toNat

/-- Every register of the table. -/
def registerList : List Register :=
  [.config, .blockSize, .sampleRate, .command, .status, .result, .effBlockSize, .samplesPerBlock, .bytesPerSecond,
   .chSample .left, .chIndex .left, .chHist0 .left, .chHist1 .left, .chWeight .left, .chError .left,
   .chSample .right, .chIndex .right, .chHist0 .right, .chHist1 .right, .chWeight .right, .chError .right]

/-- The register at a byte offset; none at an offset the table does not list. -/
def registerAt (offset : Nat) : Option Register := registerList.find? fun r => r.offset == offset

namespace State

/-- The value a register reads (R27 to R36, R266). No read has a side effect. -/
def readRegister (s : State) : Register → Word
  | .config => s.config
  | .blockSize => s.blockSize
  | .sampleRate => s.sampleRate
  | .command => 0
  | .status => s.statusWord
  | .result => s.result
  | .effBlockSize => if s.latch.cfgValid then BitVec.ofNat 32 s.latch.bs else 0
  | .samplesPerBlock => if s.latch.cfgValid then BitVec.ofNat 32 s.latch.spb else 0
  | .bytesPerSecond =>
    if s.latch.cfgValid then BitVec.ofNat 32 (Machine.bytesPerSecond s.latch.ch s.latch.bs s.latch.rate) else 0
  | .chSample c => (s.cs.get c).sample.signExtend 32
  | .chIndex c => (s.cs.get c).index.setWidth 32
  | .chHist0 c => (s.cs.get c).h0.signExtend 32
  | .chHist1 c => (s.cs.get c).h1.signExtend 32
  | .chWeight c => (s.cs.get c).weight
  | .chError c => (s.cs.get c).error

/-- A write to a register: CONFIG, BLOCK_SIZE and SAMPLE_RATE store the value, every other write is ignored (R265).
A write of COMMAND never comes here: `step` gives its word to the decoder. -/
def writeRegister (s : State) (v : Word) : Register → State
  | .config => { s with config := v }
  | .blockSize => { s with blockSize := v }
  | .sampleRate => { s with sampleRate := v }
  | .command | .status | .result | .effBlockSize | .samplesPerBlock | .bytesPerSecond => s
  | .chSample _ | .chIndex _ | .chHist0 _ | .chHist1 _ | .chWeight _ | .chError _ => s

/-! ## Accesses -/

/-- The value read at an admitted place, zero-extended to 32 bits; an unlisted register offset reads 0 (R26). -/
def readAt (s : State) (space : Space) (offset : Nat) : Word :=
  match space with
  | .regs =>
    match registerAt offset with
    | some r => s.readRegister r
    | none => 0
  | .pcm => (s.pcmAt (offset / 2)).setWidth 32
  | .adpcm => (s.adpcmAt offset).setWidth 32

/-- A write at an admitted place, of the low 32, 16 or 8 bits; an unlisted register offset ignores it (R26). -/
def writeAt (s : State) (space : Space) (offset : Nat) (v : Word) : State :=
  match space with
  | .regs =>
    match registerAt offset with
    | some r => s.writeRegister v r
    | none => s
  | .pcm => { s with pcm := writePcmEntry s.pcm (offset / 2) (v.setWidth 16) }
  | .adpcm => { s with adpcm := Memory.write s.adpcm offset (v.setWidth 8) }

/-- A host access that carries no command (20_memory.md R66, R67; 70_reset_and_hazards.md R330). An access the
interface does not admit is refused (R66; log 9). -/
def perform (s : State) : HostAccess → Host.Outcome State Fault Refusal
  | .write space offset bytes v =>
    if space.admits offset bytes then .next (s.writeAt space offset v) else .refused .outsideInterface
  | .read space offset bytes =>
    if space.admits offset bytes then .next { s with reads := s.readAt space offset :: s.reads }
    else .refused .outsideInterface
  | .hardwareReset => .next s.hardwareReset

end State

/-- A 32-bit write of `v` to a register. -/
def HostAccess.writeReg (r : Register) (v : Word) : HostAccess := .write .regs r.offset 4 v

/-- A 32-bit read of a register. -/
def HostAccess.readReg (r : Register) : HostAccess := .read .regs r.offset 4

/-- The command word an access carries: a 32-bit write to COMMAND issues one (10_state.md R30). -/
def HostAccess.commandWord? : HostAccess → Option Word
  | .write .regs offset bytes v => if offset = Register.command.offset ∧ bytes = 4 then some v else none
  | .write .pcm _ _ _ | .write .adpcm _ _ _ | .read _ _ _ | .hardwareReset => none

/-! ## What step fetches -/

/-- What the machine does next. -/
inductive Pending where
  /-- A code waits at the quantizer (log 4). -/
  | code (n : Nibble)
  /-- The host issues a command word. -/
  | command (w : Word) (rest : List HostAccess)
  /-- The host makes another access. -/
  | access (a : HostAccess) (rest : List HostAccess)
  /-- Nothing: the core is idle (R317, R331). -/
  | idle

/-- The waiting code, else the host's oldest access. -/
def State.pending (s : State) : Pending :=
  match s.seq.code with
  | some n => .code n
  | none =>
    match s.inbox with
    | [] => .idle
    | a :: rest =>
      match a.commandWord? with
      | some w => .command w rest
      | none => .access a rest

/-- The state with the waiting code taken. -/
def State.takeCode (s : State) : State := { s with seq := { s.seq with code := none } }

/-- The state with the host's oldest access taken. -/
def State.takeAccess (s : State) (rest : List HostAccess) : State := { s with inbox := rest }

/-- The state in which the instruction with these bits is the next one: a code at the quantizer, or a command word
the host is about to write, with no code before it. -/
def State.placeWord (s : State) (nbits w : Nat) : State :=
  if nbits ≤ 8 then { s with seq := { s.seq with code := some (BitVec.ofNat 4 w) } }
  else { s with seq := { s.seq with code := none },
                inbox := HostAccess.writeReg .command (BitVec.ofNat 32 w) :: s.inbox }

end Sys2Proof.Machine
end

