-- ==== Sys2Proof/Machine/Step.lean ====
section
/-! DEFINITION. One step of the machine. -/

namespace Sys2Proof.Machine

/-- A command word: its instruction runs whole, as one indivisible step (10_state.md R24); an illegal word ends with
ILLEGAL_COMMAND and changes nothing else (30_encoding.md R93, 60_exceptions.md R302). -/
def runCommand (w : Word) (s : State) : Host.Outcome State Fault Refusal :=
  match decode (.command w) with
  | .ok i => exec i s
  | .error _ => .next (s.raise .illegalCommand)

/-- A code: every value is legal (30_encoding.md R81), and its instruction runs on the selected channel state
(log 4). -/
def runCode (n : Nibble) (s : State) : Host.Outcome State Fault Refusal := exec (decodeCode n) s

/-- One step: the waiting code if there is one, else the host's oldest access, in the host's program order
(20_memory.md R71). With neither, the core is idle and all state is retained (60_exceptions.md R317). -/
def step (s : State) : Host.Outcome State Fault Refusal :=
  match s.pending with
  | .code n => runCode n s.takeCode
  | .command w rest => runCommand w (s.takeAccess rest)
  | .access a rest => (s.takeAccess rest).perform a
  | .idle => .next s

/-- The state whose very next step runs the instruction with these bits (log 5). -/
def State.withFetchWord (s : State) (nbits w : Nat) : State := s.placeWord nbits w

end Sys2Proof.Machine
end

