-- ==== Sys2Proof/Machine/Program.lean ====
section
/-! DEFINITION. Host programs: the statements of the assembly syntax and the accesses they expand to
(30_encoding.md R95, R96), with the configuration that is in force where a statement stands in its program. A program
is a list of statements; it runs when its accesses stand in `inbox` (log 5). -/

namespace Sys2Proof.Machine

/-- The statements of R95 and the pseudo-instructions of R96. -/
inductive Statement where
  | cfg | enc (n : Nat) | dec (l : Nat) | rsts
  | wr (r : Register) (v : Word) | rd (r : Register) | word (w : Word)
  | pcmw (i : Nat) (vs : List Int) | pcmfill (i count : Nat) (v : Int) | adpw (a : Nat) (bs : List Byte)
  | setup (ch ns bs rate : Nat) | encblk | decblk
  deriving DecidableEq, Repr

/-- A write of a command word to COMMAND. -/
def issue (w : Word) : HostAccess := HostAccess.writeReg .command w

/-- Writes of consecutive PCM entries from entry `i`, 16-bit signed values (R95). -/
def pcmWrites : Nat → List Int → List HostAccess
  | _, [] => []
  | i, v :: vs => .write .pcm (2 * i) 2 ((BitVec.ofInt 16 v).setWidth 32) :: pcmWrites (i + 1) vs

/-- Writes of consecutive ADPCM bytes from address `a` (R95). -/
def adpcmWrites : Nat → List Byte → List HostAccess
  | _, [] => []
  | a, b :: bs => .write .adpcm a 1 (b.setWidth 32) :: adpcmWrites (a + 1) bs

/-- The accesses of a statement; `latch` is the configuration in force there, whose SPB and BS the pseudo-instructions
ENCBLK and DECBLK take (R96). -/
def Statement.accesses (latch : Latch) : Statement → List HostAccess
  | .cfg => [issue (commandWord 0x1#4 0)]
  | .enc n => [issue (commandWord 0x2#4 n)]
  | .dec l => [issue (commandWord 0x3#4 l)]
  | .rsts => [issue (commandWord 0x4#4 0)]
  | .wr r v => [HostAccess.writeReg r v]
  | .rd r => [HostAccess.readReg r]
  | .word w => [issue w]
  | .pcmw i vs => pcmWrites i vs
  | .pcmfill i count v => pcmWrites i (List.replicate count v)
  | .adpw a bs => adpcmWrites a bs
  | .setup ch ns bs rate =>
    [HostAccess.writeReg .config (BitVec.ofNat 32 (ns <<< 2 ||| ch)),
     HostAccess.writeReg .blockSize (BitVec.ofNat 32 bs),
     HostAccess.writeReg .sampleRate (BitVec.ofNat 32 rate),
     issue (commandWord 0x1#4 0)]
  | .encblk => [issue (commandWord 0x2#4 latch.spb)]
  | .decblk => [issue (commandWord 0x3#4 latch.bs)]

/-! ## The configuration in force when a queued statement is reached (R96) -/

/-- What decides the configuration in force: the registers CONFIGURE reads, and the latch (10_state.md R25, R27 to
R29). -/
structure Settings where
  config : Word
  blockSize : Word
  sampleRate : Word
  latch : Latch
  deriving DecidableEq, Repr

def State.settings (s : State) : Settings :=
  { config := s.config, blockSize := s.blockSize, sampleRate := s.sampleRate, latch := s.latch }

/-- A host write of `v` to a register, or to an unlisted offset (47_host_commands.md R265). -/
def Settings.write (c : Settings) (v : Word) : Option Register → Settings
  | some .config => { c with config := v }
  | some .blockSize => { c with blockSize := v }
  | some .sampleRate => { c with sampleRate := v }
  | _ => c

/-- The settings after one access of the host: register writes store, CFG latches (47_host_commands.md R261), hardware
reset resets, and nothing else matters to them. -/
def Settings.after (c : Settings) (a : HostAccess) : Settings :=
  match a.commandWord? with
  | some w =>
    if w = commandWord 0x1#4 0 then { c with latch := latchedBy c.config c.blockSize c.sampleRate } else c
  | none =>
    match a with
    | .write .regs offset _ v => c.write v (registerAt offset)
    | .write .pcm _ _ _ | .write .adpcm _ _ _ | .read _ _ _ => c
    | .hardwareReset => State.reset.settings

/-- The settings once every access in the queue is performed. -/
def State.settingsAhead (s : State) : Settings := s.inbox.foldl Settings.after s.settings

/-- Append a statement's accesses to what the host still wants. ENCBLK and DECBLK expand for the configuration in force
once the accesses queued before them are performed (R96). -/
def State.submit (s : State) (p : Statement) : State :=
  { s with inbox := s.inbox ++ p.accesses s.settingsAhead.latch }

/-- Append a program, statement after statement. -/
def State.submitAll (s : State) (program : List Statement) : State := program.foldl State.submit s

end Sys2Proof.Machine
end

