-- ==== Sys2Proof/Safety.lean ====
section
/-! DEFINITION. What the core keeps true between steps, what a safe run is, and the terms of the claims. -/

namespace Sys2Proof.Machine

/-- What every state of a run from reset meets. -/
structure Invariant (s : State) : Prop where
  /-- The PCM buffer keeps its canonical form, inside its 65536 entries (20_memory.md R60, R65). -/
  pcm_wf : Memory.wf s.pcm
  pcm_inside : Memory.inside s.pcm (2 * Config.pcmEntries)
  /-- The ADPCM buffer keeps its canonical form, inside its 32768 bytes (R60, R65). -/
  adpcm_wf : Memory.wf s.adpcm
  adpcm_inside : Memory.inside s.adpcm Config.adpcmBytes
  /-- The latch is invalid, every field 0 or OFF, or holds a configuration of the shape CONFIGURE latches (10_state.md R25;
  log 10). -/
  latch : s.latch = Latch.invalid ∨ s.latch.legal = true
  /-- A context belongs to a configuration (R23, 60_exceptions.md R303). -/
  context : s.ctxValid = true → s.latch.cfgValid = true
  /-- Without a context both banks hold their reset values (R23, R40). -/
  no_context : s.ctxValid = false → s.cs = PerChannel.zeroBanks
  /-- In mono, bank 1 keeps its reset values (R23). -/
  mono : s.latch.ch = 1 → s.cs.right = Chan.zero
  /-- Every step index is in [0, 88] (R22). -/
  index : ∀ c, (s.cs.get c).index.toNat ≤ 88
  /-- RESULT is 0 after a command that ended in error (R33). -/
  result : s.err ≠ .noError → s.result = 0
  /-- Between steps the sequencer is idle and no code waits (R24). -/
  idle : s.seq = Sequencer.idle

/-- A command, as against a code: what a word written to COMMAND can be (00_scope.md R2). -/
def isCommand : Instr → Bool
  | .cfg | .enc _ | .dec _ | .rsts => true
  | .p0 | .p1 | .p2 | .p3 | .p4 | .p5 | .p6 | .p7 => false
  | .n0 | .n1 | .n2 | .n3 | .n4 | .n5 | .n6 | .n7 => false

/-- The host's next access, if it makes one, is inside the interface (20_memory.md R66). -/
def nextAdmitted (s : State) : Bool :=
  match s.inbox with
  | [] => true
  | .write space offset bytes _ :: _ => space.admits offset bytes
  | .read space offset bytes :: _ => space.admits offset bytes
  | .hardwareReset :: _ => true

/-- The machine neither faults nor refuses in this state. -/
def Safe (s : State) : Prop := ∃ t, step s = .next t

/-! ## The terms of the claims -/

/-- From every state, `i` goes on and moves the selected channel state: its sample by `delta` of its step, its index
by `adjust`, both saturating (40_quantizer.md R114; which state is selected, log 4). -/
def CodeActs (i : Instr) (delta : Nat → Int) (adjust : Int) : Prop :=
  ∀ s : State, ∃ t, exec i s = .next t ∧
    t.selectedQuant.sample.toInt =
      clamp (s.selectedQuant.sample.toInt + delta (stepRom s.selectedQuant.index.toNat)) (-32768) 32767 ∧
    (t.selectedQuant.index.toNat : Int) = clamp (s.selectedQuant.index.toNat + adjust) 0 88

/-- CONFIGURE accepts these values of CONFIG, BLOCK_SIZE and SAMPLE_RATE, with `bs` the block size in force
(47_host_commands.md R261). -/
def ConfigAccepted (config blockSize rate bs : Nat) : Prop :=
  (config % 4 = 1 ∨ config % 4 = 2) ∧ config / 8 = 0 ∧ 1 ≤ rate ∧ rate ≤ 2147483647 ∧
  (blockSize = 0 ∧ bs = 256 * (config % 4) * max 1 (rate / 11000) ∧ bs ≤ 32768 ∨
   blockSize = bs ∧ bs ∈ [256, 512, 1024, 2048, 4096, 8192, 16384, 32768])

namespace State

/-- The bank of channel `c` when a block of `n` frames starts: the first frame as its sample, the index seeded for a
new stream, and every other field carried (42_context_init.md R172, 43_encoder.md R183, R191). -/
def blockStart (s : State) (n : Nat) (c : Channel) : Chan :=
  { s.cs.get c with
    sample := s.pcmAt c.toNat
    index := if s.ctxValid then (s.cs.get c).index
             else BitVec.ofNat 7 (seedIndex (initialDelta (fun f => s.input n f c) (pad n))) }

/-- The bank of channel `c` after frame `f` of a block of `n` frames; its `sample` is `rec(f, c)` (R190). -/
def runAfter (s : State) (n : Nat) (c : Channel) (f : Nat) : Checked Chan :=
  bankAfter s.latch.nsMode (fun f => s.input n f c) (pad n) (s.blockStart n c) f

/-- The code of frame `f ≥ 1` of channel `c` (R185, R186). -/
def codeChosen (s : State) (n : Nat) (c : Channel) (f : Nat) : Checked Nibble :=
  chosenCode s.latch.nsMode (fun f => s.input n f c) (pad n) (s.blockStart n c) f

end State

/-- The minimum error of the subtree below code `n` (45_lookahead.md R222, R224). -/
def childError (sample : Int) (index : Nat) (n : Nibble) (target : Int) (future : List Int) : Nat :=
  match search (applyCode sample index n).1 (applyCode sample index n).2 target future with
  | .ok r => r.2
  | .error _ => 0

/-- The total error of code `n`: its immediate error and that of the subtree below it (R222, R224). -/
def totalError (sample : Int) (index : Nat) (s : Int) (target : Int) (future : List Int) (n : Nibble) : Nat :=
  squaredError (applyCode sample index n).1 s + childError sample index n target future

/-- A value of a PCM sample (00_scope.md R6). -/
def is16 (v : Int) : Prop := -32768 ≤ v ∧ v ≤ 32767

end Sys2Proof.Machine
end

