-- ==== Sys2Proof/Certificates/Slice0/Obligations.lean ====
section
/-! DEFINITION. The statements about this model, each from a numbered rule of spec/. -/

open Sys2Proof
open Sys2Proof.Machine

/-! ## Encodings (30_encoding.md) -/

/-- Decoding and encoding agree on every encoding and every instruction: a word decodes to an instruction exactly if
it is that well-formed instruction's own word (R81, R90 to R93, R97). -/
def Obligations.DecodeEncodeAgree : Prop :=
  ∀ (e : Encoding) (i : Instr), decode e = .ok i ↔ i.wellFormed = true ∧ encode i = e

/-- Words written out from the encoding tables decode to what they stand for (R81, R90, R91; `ENC 505` is R260's), and
every 4-bit value is a legal code, named by its sign and magnitude (R97). -/
def Obligations.SpecWordsDecode : Prop :=
  decode (.code 0b0000#4) = .ok .p0 ∧ decode (.code 0b0111#4) = .ok .p7 ∧
  decode (.code 0b1000#4) = .ok .n0 ∧ decode (.code 0b1101#4) = .ok .n5 ∧
  decode (.command 0b0000000000000000_000000000000_0001#32) = .ok .cfg ∧
  decode (.command 0b0000000111111001_000000000000_0010#32) = .ok (.enc 505) ∧
  decode (.command 0b1000000000000000_000000000000_0011#32) = .ok (.dec 32768) ∧
  decode (.command 0b0000000000000000_000000000000_0100#32) = .ok .rsts ∧
  ∀ n : Nibble, ∃ i, decode (.code n) = .ok i ∧ isCommand i = false ∧
    i.mnemonic = (if n.toNat / 8 = 1 then "N" else "P") ++
      (["0", "1", "2", "3", "4", "5", "6", "7"][n.toNat % 8]?).getD ""

/-- The LEN operand is the zero-extended high half of the word, and a command's word is `(LEN << 16) | OP`
(R91, R92, R95). -/
def Obligations.CommandWordOperand : Prop :=
  (∀ w : Word, w.toNat % 65536 = 2 → decode (.command w) = .ok (.enc (w.toNat / 65536))) ∧
  (∀ w : Word, w.toNat % 65536 = 3 → decode (.command w) = .ok (.dec (w.toNat / 65536))) ∧
  (∀ n, n < 65536 → encode (.enc n) = .command (BitVec.ofNat 32 (n * 65536 + 2))) ∧
  (∀ l, l < 65536 → encode (.dec l) = .command (BitVec.ofNat 32 (l * 65536 + 3))) ∧
  encode .cfg = .command 0x00000001#32 ∧ encode .rsts = .command 0x00000004#32

/-- Which command words are illegal, and what one does: it changes ERR and RESULT and nothing else (R93). -/
def Obligations.IllegalWords : Prop :=
  ∀ (s : State) (w : Word) (rest : List HostAccess),
    (w.toNat / 16 % 4096 ≠ 0 ∨ w.toNat % 16 ∉ [0x1, 0x2, 0x3, 0x4] ∨
      (w.toNat % 16 ∈ [0x1, 0x4] ∧ w.toNat / 65536 ≠ 0)) →
    s.seq = Sequencer.idle → s.inbox = HostAccess.writeReg .command w :: rest →
    step s = .next { s with inbox := rest, err := .illegalCommand, result := 0 }

/-- The code of a frame stands where the loop order puts it, and no two frames of any channels share a place
(R85, R87). -/
def Obligations.CodePlaces : Prop :=
  (∀ ch k b h (c : Channel), b < 4 → h < 2 →
    codePlace ch (1 + 8 * k + 2 * b + h) c = (4 * ch + 4 * ch * k + 4 * c.toNat + b, h)) ∧
  (∀ ch f g (c d : Channel), c.toNat < ch → d.toNat < ch → 1 ≤ f → 1 ≤ g →
    codePlace ch f c = codePlace ch g d → f = g ∧ c = d)

/-! ## One step -/

/-- A step runs the decoded instruction: the waiting code, or the command word the host writes, on the state with the
code or the access taken and nothing else changed; `withFetchWord` makes that instruction the next one; and with no code
and no access waiting the core is idle and all state is retained (10_state.md R24, 20_memory.md R71,
60_exceptions.md R317; log 4, log 5). -/
def Obligations.StepRunsDecodedInstruction : Prop :=
  ∀ s : State,
    (∀ n i, s.seq.code = some n → decode (.code n) = .ok i →
      step s = exec i { s with seq := { s.seq with code := none } }) ∧
    (∀ w rest i, s.seq.code = none → s.inbox = HostAccess.writeReg .command w :: rest →
      decode (.command w) = .ok i → step s = exec i { s with inbox := rest }) ∧
    (∀ nbits w e i, tableEncoding nbits w = some e → decode e = .ok i →
      step (s.withFetchWord nbits w) = exec i { s with seq := { s.seq with code := none } }) ∧
    (s.seq.code = none → s.inbox = [] → step s = .next s)

/-- The pseudo-instructions: SETUP expands to three register writes and CFG, its first word `(ns << 2) | ch`; and ENCBLK
and DECBLK, put behind any queue of accesses, are `ENC SPB` and `DEC BS` of the configuration in force when they are
reached, whatever the accesses before them configure (30_encoding.md R90, R96; the queue is log 5). -/
def Obligations.PseudoInstructions : Prop :=
  (∀ (s : State) (ch ns bs rate : Nat), (s.submit (.setup ch ns bs rate)).inbox = s.inbox ++
    [HostAccess.writeReg .config (BitVec.ofNat 32 (ns <<< 2 ||| ch)),
     HostAccess.writeReg .blockSize (BitVec.ofNat 32 bs), HostAccess.writeReg .sampleRate (BitVec.ofNat 32 rate),
     HostAccess.writeReg .command 0x00000001#32]) ∧
  ∀ s t : State, s.seq.code = none →
    (core.run s.inbox.length (s.submit .encblk) = .next t →
      t.inbox = [HostAccess.writeReg .command (BitVec.ofNat 32 (t.latch.spb * 65536 + 2))]) ∧
    (core.run s.inbox.length (s.submit .decblk) = .next t →
      t.inbox = [HostAccess.writeReg .command (BitVec.ofNat 32 (t.latch.bs * 65536 + 3))])

/-! ## The codes (40_quantizer.md) -/

/-- What each of the eight positive codes does (R118 to R125, which the spec derives from R113 and R114). The channel
state a code executed on its own applies to is the model's choice (log 4). -/
def Obligations.PositiveCodes : Prop :=
  CodeActs .p0 (fun step => step / 8) (-1) ∧
  CodeActs .p1 (fun step => step / 8 + step / 4) (-1) ∧
  CodeActs .p2 (fun step => step / 8 + step / 2) (-1) ∧
  CodeActs .p3 (fun step => step / 8 + step / 4 + step / 2) (-1) ∧
  CodeActs .p4 (fun step => step / 8 + step) 2 ∧
  CodeActs .p5 (fun step => step / 8 + step / 4 + step) 4 ∧
  CodeActs .p6 (fun step => step / 8 + step / 2 + step) 6 ∧
  CodeActs .p7 (fun step => step / 8 + step / 4 + step / 2 + step) 8

/-- What each of the eight negative codes does (R126 to R133, which the spec derives from R113 and R114). The channel
state a code executed on its own applies to is the model's choice (log 4). -/
def Obligations.NegativeCodes : Prop :=
  CodeActs .n0 (fun step => -(step / 8)) (-1) ∧
  CodeActs .n1 (fun step => -(step / 8 + step / 4)) (-1) ∧
  CodeActs .n2 (fun step => -(step / 8 + step / 2)) (-1) ∧
  CodeActs .n3 (fun step => -(step / 8 + step / 4 + step / 2)) (-1) ∧
  CodeActs .n4 (fun step => -(step / 8 + step)) 2 ∧
  CodeActs .n5 (fun step => -(step / 8 + step / 4 + step)) 4 ∧
  CodeActs .n6 (fun step => -(step / 8 + step / 2 + step)) 6 ∧
  CodeActs .n7 (fun step => -(step / 8 + step / 4 + step / 2 + step)) 8

/-- What a code leaves unchanged: everything but the sample and the index of the selected channel state. No flag is
written and no byte of a buffer changes. The selected channel state is the model's convention (log 4). -/
def Obligations.CodesFrame : Prop :=
  ∀ (i : Instr) (s t : State), isCommand i = false → exec i s = .next t →
    t = { s with cs := t.cs, dec := t.dec } ∧
    (s.seq.engine = .decoder → t.cs = s.cs) ∧ (s.seq.engine = .encoder → t.dec = s.dec) ∧
    ∀ c, (c ≠ s.seq.pos.channel → t.cs.get c = s.cs.get c ∧ t.dec.get c = s.dec.get c) ∧
      (t.cs.get c).h0 = (s.cs.get c).h0 ∧ (t.cs.get c).h1 = (s.cs.get c).h1 ∧
      (t.cs.get c).weight = (s.cs.get c).weight ∧ (t.cs.get c).error = (s.cs.get c).error

/-- The codes `m` and `8 + m` have opposite deltas and the same index adjustment (R134). -/
def Obligations.CodeSymmetry : Prop :=
  ∀ (step m : Nat), m < 8 →
    codeDelta step (BitVec.ofNat 4 (8 + m)) = -codeDelta step (BitVec.ofNat 4 m) ∧
    indexRom (BitVec.ofNat 4 (8 + m)) = indexRom (BitVec.ofNat 4 m)

/-- On every step of the ROM the delta grows strictly with the magnitude; on the smallest step it takes the values the
rule lists; and P0 and N0 coincide on that step only (R135). -/
def Obligations.CodeMonotonicity : Prop :=
  (∀ i m, i ≤ 88 → m < 7 →
    codeDelta (stepRom i) (BitVec.ofNat 4 m) < codeDelta (stepRom i) (BitVec.ofNat 4 (m + 1))) ∧
  (List.range 8).map (fun m => codeDelta 7 (BitVec.ofNat 4 m)) = [0, 1, 3, 4, 7, 8, 10, 11] ∧
  (∀ i, i ≤ 88 → stepRom i / 4 + stepRom i / 2 < stepRom i) ∧
  (∀ i, i ≤ 88 → (codeDelta (stepRom i) 0x0#4 = codeDelta (stepRom i) 0x8#4 ↔ stepRom i = 7))

/-- The ROMs: the 89 steps, strictly increasing, and the eight index adjustments, whatever the sign bit
(R110, R111; the values are K1 and K2 of 93_implementation_defined.md, log 13). -/
def Obligations.RomContents : Prop :=
  (List.range 89).map stepRom =
    [7, 8, 9, 10, 11, 12, 13, 14, 16, 17] ++ [19, 21, 23, 25, 28, 31, 34, 37, 41, 45] ++
    [50, 55, 60, 66, 73, 80, 88, 97, 107, 118] ++ [130, 143, 157, 173, 190, 209, 230, 253, 279, 307] ++
    [337, 371, 408, 449, 494, 544, 598, 658, 724, 796] ++
    [876, 963, 1060, 1166, 1282, 1411, 1552, 1707, 1878, 2066] ++
    [2272, 2499, 2749, 3024, 3327, 3660, 4026, 4428, 4871, 5358] ++
    [5894, 6484, 7132, 7845, 8630, 9493, 10442, 11487, 12635, 13899] ++
    [15289, 16818, 18500, 20350, 22385, 24623, 27086, 29794, 32767] ∧
  (∀ i, i < 88 → stepRom i < stepRom (i + 1)) ∧
  ∀ n : Nibble, [-1, -1, -1, -1, 2, 4, 6, 8][n.toNat % 8]? = some (indexRom n)

/-! ## Block arithmetic (46_block_arithmetic.md) -/

/-- A full block is whole chunks and fills its bytes and its padded frames exactly (R240, R241). -/
def Obligations.FullBlockIsWholeChunks : Prop :=
  ∀ ch bs, ch = 1 ∨ ch = 2 → bs % 8 = 0 → 8 ≤ bs →
    samplesPerBlock ch bs = (if ch = 1 then (bs - 4) * 2 else bs - 8) + 1 ∧
    fullChunks ch bs = (if ch = 1 then (bs - 4) / 4 else (bs - 8) / 8) ∧
    samplesPerBlock ch bs = 8 * fullChunks ch bs + 1 ∧
    4 * ch * (1 + fullChunks ch bs) = bs ∧
    pad (samplesPerBlock ch bs) = samplesPerBlock ch bs ∧ blockBytes ch (samplesPerBlock ch bs) = bs

/-- `pad(n)` is the smallest value of the form `8K + 1` that is at least `n` (R244). -/
def Obligations.PadIsLeast : Prop :=
  ∀ n, 1 ≤ n → n ≤ pad n ∧ (∃ k, pad n = 8 * k + 1) ∧ ∀ k, n ≤ 8 * k + 1 → pad n ≤ 8 * k + 1

/-- In every legal configuration the block of any `n` in `1 .. SPB` has the expected size and fits, so no ENCODE ends
with ENCODING_SIZE_MISMATCH (R248). -/
def Obligations.SizesAgree : Prop :=
  ∀ (s : State) (n : Nat), s.latch.legal = true → 1 ≤ n → n ≤ s.latch.spb →
    4 * s.latch.ch * (1 + (pad n - 1) / 8) = blockBytes s.latch.ch n ∧ blockBytes s.latch.ch n ≤ s.latch.bs ∧
    ∀ t, exec (.enc n) s = .next t → t.err ≠ .encodingSizeMismatch

/-- The size of a stream grows by one full block with every SPB frames, and has the rule's boundary values (R246). -/
def Obligations.OutputSizes : Prop :=
  (∀ ch bs q r, r < samplesPerBlock ch bs →
    outputSize ch bs (q * samplesPerBlock ch bs + r) = q * bs + blockBytes ch r) ∧
  [0, 504, 505, 506].map (outputSize 1 256) = [0, 256, 256, 260] ∧
  [0, 248, 249, 250].map (outputSize 2 256) = [0, 256, 256, 264]

/-- BYTES_PER_SECOND is the exact quotient, and it fits its 32 bits, in every legal configuration
(10_state.md R35, R247). -/
def Obligations.BytesPerSecondFits : Prop :=
  ∀ s : State, s.latch.legal = true →
    s.latch.rate * s.latch.bs / s.latch.spb < 2 ^ 32 ∧
    (s.readRegister .bytesPerSecond).toNat = s.latch.rate * s.latch.bs / s.latch.spb

/-! ## CONFIGURE and RESET_STREAM (47_host_commands.md) -/

/-- CFG with register values it accepts: the latch takes the configuration, the context is invalidated (R261). That the
sequencer stands idle afterwards, with no code waiting, is the model's choice (log 3). -/
def Obligations.ConfigureLatches : Prop :=
  ∀ (s : State) (bs : Nat), ConfigAccepted s.config.toNat s.blockSize.toNat s.sampleRate.toNat bs →
    exec .cfg s = .next { s with
      latch := { cfgValid := true
                 ch := s.config.toNat % 4
                 nsMode := if s.config.toNat / 4 % 2 = 0 then .off
                           else if s.sampleRate.toNat > 64000 then .static else .dynamic
                 bs := bs
                 spb := (bs - 4 * (s.config.toNat % 4)) * ((s.config.toNat % 4) ^^^ 3) + 1
                 rate := s.sampleRate.toNat }
      ctxValid := false, cs := { left := Chan.zero, right := Chan.zero }
      err := .noError, result := 0, seq := Sequencer.idle }

/-- CFG with register values it does not accept: CONFIGURATION_ERROR, the latch and the context invalidated all the
same, neither buffer touched, and ENC and DEC answer NOT_CONFIGURED afterwards (R261; 60_exceptions.md R303). That the sequencer stands idle
afterwards is the model's choice (log 3). -/
def Obligations.ConfigureRejects : Prop :=
  ∀ s : State, (∀ bs, ¬ ConfigAccepted s.config.toNat s.blockSize.toNat s.sampleRate.toNat bs) →
    ∃ t, exec .cfg s = .next t ∧
      t = { s with
        latch := { cfgValid := false, ch := 0, nsMode := .off, bs := 0, spb := 0, rate := 0 }
        ctxValid := false, cs := { left := Chan.zero, right := Chan.zero }
        err := .configurationError, result := 0, seq := Sequencer.idle } ∧
      ∀ n, exec (.enc n) t = .next { t with err := .notConfigured } ∧
        exec (.dec n) t = .next { t with err := .notConfigured }

/-- RSTS with an idle sequencer (log 3), configured or not: the context invalidated, RESULT 0, ERR NONE, and nothing
else changed (R264). -/
def Obligations.ResetStreamEndsStream : Prop :=
  ∀ s : State, s.seq = Sequencer.idle →
    exec .rsts s = .next { s with
      ctxValid := false, cs := { left := Chan.zero, right := Chan.zero }, err := .noError, result := 0 }

/-! ## Errors (60_exceptions.md) -/

/-- NOT_CONFIGURED and BAD_LENGTH change ERR and RESULT and nothing else; they are checked in this order
(R302, R306; 47_host_commands.md R262, R263). -/
def Obligations.RejectedCommandsChangeNothing : Prop :=
  ∀ (s : State) (n : Nat), s.seq = Sequencer.idle →
    (s.latch.cfgValid = false →
      exec (.enc n) s = .next { s with err := .notConfigured, result := 0 } ∧
      exec (.dec n) s = .next { s with err := .notConfigured, result := 0 }) ∧
    (s.latch.legal = true → s.latch.spb < n →
      exec (.enc n) s = .next { s with err := .badLength, result := 0 }) ∧
    (s.latch.legal = true → s.latch.bs < n →
      exec (.dec n) s = .next { s with err := .badLength, result := 0 })

/-- FAULT is set exactly by the commands that end with NUMERIC_RANGE or ENCODING_SIZE_MISMATCH; no command clears it,
only hardware reset does; and commands execute the same while it is set (10_state.md R32). -/
def Obligations.FaultIsSticky : Prop :=
  (∀ (i : Instr) (s t : State), isCommand i = true → exec i s = .next t →
    (t.fault = true ↔ s.fault = true ∨ t.err = .numericRange ∨ t.err = .encodingSizeMismatch)) ∧
  (∀ s t : State, step s = .next t → s.fault = true → t.fault = false →
    ∃ rest, s.inbox = .hardwareReset :: rest) ∧
  (∀ (i : Instr) (s t : State), exec i { s with fault := false } = .next t →
    exec i { s with fault := true } = .next { t with fault := true })

/-- What RESULT holds after each command: the bytes written, the frames written, or 0 (10_state.md R33). -/
def Obligations.ResultCounts : Prop :=
  ∀ (s t : State),
    (exec .cfg s = .next t → t.result = 0) ∧ (exec .rsts s = .next t → t.result = 0) ∧
    (∀ n, exec (.enc n) s = .next t → t.err = .noError → t.result.toNat = blockBytes s.latch.ch n) ∧
    (∀ l, exec (.dec l) s = .next t → t.err = .noError →
      t.result.toNat = 1 + 8 * ((l - 4 * s.latch.ch) / (4 * s.latch.ch))) ∧
    (∀ i, isCommand i = true → exec i s = .next t → t.err ≠ .noError → t.result = 0)

/-- ERR and RESULT describe the last command only: a command overwrites both, and depends on neither
(70_reset_and_hazards.md R337). -/
def Obligations.StatusIsPerCommand : Prop :=
  ∀ (i : Instr) (s : State) (e : ErrCode) (r : Word), isCommand i = true →
    exec i { s with err := e, result := r } = exec i s

/-! ## Registers and buffers as the host sees them (10_state.md, 20_memory.md) -/

/-- The fields of STATUS and the numbers of the error codes (R31; 60_exceptions.md R300). -/
def Obligations.StatusLayout : Prop :=
  (∀ s : State,
    s.statusWord.extractLsb' 0 4 = s.err.code ∧
    s.statusWord.getLsbD 4 = s.latch.cfgValid ∧ s.statusWord.getLsbD 5 = s.ctxValid ∧
    s.statusWord.getLsbD 6 = s.fault ∧ s.statusWord.getLsbD 7 = false ∧
    (s.statusWord.extractLsb' 8 2).toNat =
      (if s.latch.cfgValid = false ∨ s.latch.nsMode = .off then 0
       else if s.latch.nsMode = .static then 1 else 2) ∧
    s.statusWord.extractLsb' 10 22 = 0) ∧
  [ErrCode.noError, .configurationError, .malformedBlockHeader, .truncatedInput, .encodingSizeMismatch,
    .illegalCommand, .notConfigured, .badLength, .numericRange].map (fun e => e.code.toNat) =
    [0, 1, 2, 3, 4, 5, 6, 7, 8]

/-- What a read of each offset of the register space returns (R26 to R36; 47_host_commands.md R266). -/
def Obligations.RegisterMap : Prop :=
  ∀ s : State,
    s.readAt .regs 0x00 = s.config ∧ s.readAt .regs 0x04 = s.blockSize ∧ s.readAt .regs 0x08 = s.sampleRate ∧
    s.readAt .regs 0x0C = 0 ∧ s.readAt .regs 0x10 = s.statusWord ∧ s.readAt .regs 0x14 = s.result ∧
    (s.latch.cfgValid = false →
      s.readAt .regs 0x18 = 0 ∧ s.readAt .regs 0x1C = 0 ∧ s.readAt .regs 0x20 = 0) ∧
    (s.latch.legal = true →
      (s.readAt .regs 0x18).toNat = s.latch.bs ∧ (s.readAt .regs 0x1C).toNat = s.latch.spb ∧
      (s.readAt .regs 0x20).toNat = bytesPerSecond s.latch.ch s.latch.bs s.latch.rate) ∧
    (∀ c : Channel,
      (s.readAt .regs (0x40 + 0x20 * c.toNat)).toInt = (s.cs.get c).sample.toInt ∧
      (s.readAt .regs (0x44 + 0x20 * c.toNat)).toNat = (s.cs.get c).index.toNat ∧
      (s.readAt .regs (0x48 + 0x20 * c.toNat)).toInt = (s.cs.get c).h0.toInt ∧
      (s.readAt .regs (0x4C + 0x20 * c.toNat)).toInt = (s.cs.get c).h1.toInt ∧
      s.readAt .regs (0x50 + 0x20 * c.toNat) = (s.cs.get c).weight ∧
      s.readAt .regs (0x54 + 0x20 * c.toNat) = (s.cs.get c).error) ∧
    (∀ off, off ∉ [0x00, 0x04, 0x08, 0x0C, 0x10, 0x14, 0x18, 0x1C, 0x20, 0x40, 0x44, 0x48, 0x4C, 0x50, 0x54,
      0x60, 0x64, 0x68, 0x6C, 0x70, 0x74] → s.readAt .regs off = 0)

/-- A read inside the interface has no side effect: only the host gains the value; and what it gains from the buffers is
the PCM entry's 16-bit pattern or the ADPCM byte (20_memory.md R60, R66, R67), zero-extended to the host's 32 bits. The
host's queue, its record of values read and the zero extension are the model's form (log 5). -/
def Obligations.ReadsHaveNoSideEffect : Prop :=
  (∀ (s : State) (space : Space) (off bytes : Nat) (rest : List HostAccess),
    s.seq.code = none → s.inbox = .read space off bytes :: rest →
    (match space with
      | .regs => bytes = 4 ∧ off % 4 = 0 ∧ off < 128
      | .pcm => bytes = 2 ∧ off % 2 = 0 ∧ off / 2 < 65536
      | .adpcm => bytes = 1 ∧ off < 32768) →
    step s = .next { s with inbox := rest, reads := s.readAt space off :: s.reads }) ∧
  (∀ (s : State) (i : Nat), s.readAt .pcm (2 * i) = (s.pcmAt i).setWidth 32) ∧
  (∀ (s : State) (a : Nat), s.readAt .adpcm a = (s.adpcmAt a).setWidth 32)

/-- A write to CONFIG, BLOCK_SIZE or SAMPLE_RATE stores all 32 bits and does nothing else; a write to any other offset
but COMMAND's is ignored (47_host_commands.md R265; log 5). -/
def Obligations.RegisterWrites : Prop :=
  ∀ (s : State) (off : Nat) (v : Word) (rest : List HostAccess),
    s.seq.code = none → s.inbox = .write .regs off 4 v :: rest → off % 4 = 0 → off < 128 → off ≠ 0x0C →
    step s = .next (
      if off = 0x00 then { s with inbox := rest, config := v }
      else if off = 0x04 then { s with inbox := rest, blockSize := v }
      else if off = 0x08 then { s with inbox := rest, sampleRate := v }
      else { s with inbox := rest })

/-- Host writes of the buffers. A PCM entry takes the low 16 bits, its low byte at PCM byte `2i` and its high byte at
`2i + 1`; an ADPCM byte takes the low 8 bits; every other entry and byte keeps its value (20_memory.md R62, R66;
log 1, log 5). -/
def Obligations.BufferWrites : Prop :=
  ∀ (s : State) (i : Nat) (v : Word) (rest : List HostAccess), s.seq.code = none →
    (s.inbox = .write .pcm (2 * i) 2 v :: rest → i < 65536 →
      ∃ t, step s = .next t ∧ t = { s with inbox := rest, pcm := t.pcm } ∧
        (∀ j, t.pcmAt j = if j = i then v.setWidth 16 else s.pcmAt j) ∧
        pcmByte t.pcm t.epoch (2 * i) = v.extractLsb' 0 8 ∧
        pcmByte t.pcm t.epoch (2 * i + 1) = v.extractLsb' 8 8) ∧
    (s.inbox = .write .adpcm i 1 v :: rest → i < 32768 →
      ∃ t, step s = .next t ∧ t = { s with inbox := rest, adpcm := t.adpcm } ∧
        ∀ x, t.adpcmAt x = if x = i then v.setWidth 8 else s.adpcmAt x)

/-- A host access outside the interface is refused (20_memory.md R66; the refusal is the model's, log 9). -/
def Obligations.OutsideAccessesAreRefused : Prop :=
  ∀ (s : State) (space : Space) (off bytes : Nat) (v : Word) (rest : List HostAccess),
    s.seq.code = none →
    (s.inbox = .write space off bytes v :: rest ∨ s.inbox = .read space off bytes :: rest) →
    (match space with
      | .regs => bytes ≠ 4 ∨ off % 4 ≠ 0 ∨ 128 ≤ off
      | .pcm => bytes ≠ 2 ∨ off % 2 ≠ 0 ∨ 65536 ≤ off / 2
      | .adpcm => bytes ≠ 1 ∨ 32768 ≤ off) →
    step s = .refused .outsideInterface

/-- Hardware reset gives every piece of state the value of the table: it is asserted between commands, and STATUS then
reads 0 (70_reset_and_hazards.md R330, 10_state.md R40). That the buffers list nothing, so that each entry is a free
value, is log 1; that the host keeps its queue and its record is log 14. -/
def Obligations.HardwareReset : Prop :=
  ∀ (s : State) (rest : List HostAccess), s.seq.code = none → s.inbox = .hardwareReset :: rest →
    ∃ t, step s = .next t ∧ t.ctxValid = false ∧ (∀ c, t.cs.get c = Chan.zero) ∧
      t.latch = { cfgValid := false, ch := 0, nsMode := .off, bs := 0, spb := 0, rate := 0 } ∧
      t.config = 0 ∧ t.blockSize = 0 ∧ t.sampleRate = 0 ∧
      t.err = .noError ∧ t.fault = false ∧ t.result = 0 ∧ t.statusWord = 0 ∧
      t.pcm = [] ∧ t.adpcm = [] ∧ t.inbox = rest ∧ t.reads = s.reads

/-! ## DECODE (41_decoder.md) -/

/-- DEC of a block whose length and headers are legal: it goes on without error, and every sample of every frame is
what the header and then one code a frame give, at its interleaved entry (R152 to R156; 30_encoding.md R84, R87). -/
def Obligations.DecodeReconstructs : Prop :=
  ∀ (s : State) (l : Nat), s.latch.legal = true → 4 * s.latch.ch ≤ l → l ≤ s.latch.bs →
    (∀ c : Channel, c.toNat < s.latch.ch →
      (s.adpcmAt (4 * c.toNat + 2)).toNat ≤ 88 ∧ s.adpcmAt (4 * c.toNat + 3) = 0) →
    let ch := s.latch.ch
    let chunks := (l - 4 * ch) / (4 * ch)
    ∃ (t : State) (q : Channel → Nat → Quant), exec (.dec l) s = .next t ∧
      t.err = .noError ∧ t.result.toNat = 1 + 8 * chunks ∧
      ∀ c, c.toNat < ch →
        (q c 0).sample = s.adpcmAt (4 * c.toNat + 1) ++ s.adpcmAt (4 * c.toNat) ∧
        (q c 0).index.toNat = (s.adpcmAt (4 * c.toNat + 2)).toNat ∧
        (∀ f, f < 8 * chunks → q c (f + 1) = (q c f).apply
          (codeOfByte (s.adpcmAt (4 * ch + 4 * ch * (f / 8) + 4 * c.toNat + f % 8 / 2)) (f % 2))) ∧
        (∀ f, f ≤ 8 * chunks → t.pcmAt (f * ch + c.toNat) = (q c f).sample) ∧
        t.dec.get c = q c (8 * chunks)

/-- What DEC leaves unchanged: the encoder context, the latch, the registers, FAULT, the ADPCM buffer, every PCM entry
past the frames the block has (or would have had), and all of PCM when it is rejected (R150, R158;
20_memory.md R65; log 6). -/
def Obligations.DecodeFrame : Prop :=
  ∀ (s t : State) (l : Nat), exec (.dec l) s = .next t →
    t = { s with err := t.err, result := t.result, dec := t.dec, pcm := t.pcm, seq := t.seq,
                 freeCount := t.freeCount } ∧
    (∀ i, s.latch.ch * (1 + 8 * ((l - 4 * s.latch.ch) / (4 * s.latch.ch))) ≤ i → t.pcmAt i = s.pcmAt i) ∧
    (t.err = .notConfigured ∨ t.err = .badLength → t.pcm = s.pcm ∧ t.dec = s.dec) ∧
    (∀ c : Channel, s.latch.ch ≤ c.toNat → t.dec.get c = s.dec.get c)

/-- DEC neither reads nor writes the encoder context (R150). -/
def Obligations.DecodeIgnoresContext : Prop :=
  ∀ (s t : State) (l : Nat) (cs : PerChannel Chan) (valid : Bool), exec (.dec l) s = .next t →
    exec (.dec l) { s with cs := cs, ctxValid := valid } = .next { t with cs := cs, ctxValid := valid }

/-- DEC ends with TRUNCATED_INPUT if the block is shorter than its headers, else with MALFORMED_BLOCK_HEADER if a
header's index is above 88 or its reserved byte is not 0, and then RESULT is 0 (R151, R152, R158). -/
def Obligations.DecodeErrors : Prop :=
  ∀ (s : State) (l : Nat), s.latch.legal = true → l ≤ s.latch.bs →
    (l < 4 * s.latch.ch → ∃ t, exec (.dec l) s = .next t ∧ t.err = .truncatedInput ∧ t.result = 0) ∧
    (∀ c : Channel, 4 * s.latch.ch ≤ l → c.toNat < s.latch.ch →
      (88 < (s.adpcmAt (4 * c.toNat + 2)).toNat ∨ s.adpcmAt (4 * c.toNat + 3) ≠ 0) →
      ∃ t, exec (.dec l) s = .next t ∧ t.err = .malformedBlockHeader ∧ t.result = 0)

/-- The result of DEC depends only on CH, L and the L bytes of the block (R157). -/
def Obligations.DecodeBlockIndependence : Prop :=
  ∀ (s u : State) (l : Nat), s.latch.legal = true → u.latch.legal = true → s.latch.ch = u.latch.ch →
    l ≤ s.latch.bs → l ≤ u.latch.bs → (∀ a, a < l → s.adpcmAt a = u.adpcmAt a) →
    ∃ s' u', exec (.dec l) s = .next s' ∧ exec (.dec l) u = .next u' ∧
      s'.err = u'.err ∧ s'.result = u'.result ∧
      (s'.err = .noError → ∀ i, i < s.latch.ch * s'.result.toNat → s'.pcmAt i = u'.pcmAt i)

/-! ## Context seeding (42_context_init.md) -/

/-- The initial index is the smallest whose midpoint is above the initial delta, and 88 if there is none; equally, it
counts the thresholds not above it; and the thresholds are those the rule lists (R171; the rounding is K6 and the steps are K1, log 13). -/
def Obligations.SeedIndexIsLeast : Prop :=
  (∀ d, seedIndex d ≤ 88 ∧
    (seedIndex d = 88 ∨ d < (stepRom (seedIndex d) + stepRom (seedIndex d + 1)) / 2) ∧
    (∀ i, i < seedIndex d → (stepRom i + stepRom (i + 1)) / 2 ≤ d) ∧
    seedIndex d = ((List.range 88).filter fun i => (stepRom i + stepRom (i + 1)) / 2 ≤ d).length) ∧
  (List.range 88).map (fun i => (stepRom i + stepRom (i + 1)) / 2) =
    [7, 8, 9, 10, 11, 12, 13, 15, 16, 18, 20, 22, 24, 26, 29, 32, 35, 39, 43, 47, 52, 57, 63, 69, 76, 84, 92, 102] ++
    [112, 124, 136, 150, 165, 181, 199, 219, 241, 266, 293, 322, 354, 389, 428, 471, 519, 571, 628, 691, 760] ++
    [836, 919, 1011, 1113, 1224, 1346, 1481, 1629, 1792, 1972, 2169, 2385, 2624, 2886, 3175, 3493, 3843, 4227] ++
    [4649, 5114, 5626, 6189, 6808, 7488, 8237, 9061, 9967, 10964, 12061, 13267, 14594, 16053, 17659, 19425] ++
    [21367, 23504, 25854, 28440, 31280]

/-- The running average of 16-bit frames stays below `8·65535 + 8`; padding frames leave the initial delta as it is;
a constant block and a block of one frame have 0 (R170, R173; the order of iteration is K5, log 13). -/
def Obligations.InitialDelta : Prop :=
  ∀ (x : Nat → Int) (n : Nat), 1 ≤ n → (∀ f, is16 (x f)) →
    runningAverage x (n - 1) 0 < 8 * 65535 + 8 ∧
    initialDelta (fun f => x (min f (n - 1))) (pad n) = initialDelta x n ∧
    ((∀ f, f < n → x f = x 0) → initialDelta x n = 0)

/-! ## ENCODE (43_encoder.md) -/

/-- ENC of an empty block changes ERR and RESULT and nothing else (R182). -/
def Obligations.EncodeEmptyBlock : Prop :=
  ∀ s : State, s.latch.legal = true → s.seq = Sequencer.idle →
    exec (.enc 0) s = .next { s with err := .noError, result := 0 }

/-- encode-sample: shape the raw input, search from the bank with the shaped target, apply the chosen code as the decoder
will, and add the new sample to the error unless shaping is off (R186). -/
def Obligations.EncodeSampleSteps : Prop :=
  ∀ (mode : NsMode) (b b' : Chan) (raw : Int) (future : List Int) (n : Nibble),
    encodeSample mode b raw future = .ok (n, b') ↔
    ∃ (shaped : Chan) (y : Int) (e : Nat), shape mode b raw = .ok (shaped, y) ∧
      search b.sample.toInt b.index.toNat y future = .ok (n, e) ∧
      b'.toQuant = b.toQuant.apply n ∧ b'.h0 = shaped.h0 ∧ b'.h1 = shaped.h1 ∧ b'.weight = shaped.weight ∧
      (mode = .off → b'.error = shaped.error) ∧
      (mode ≠ .off → b'.error.toInt = shaped.error.toInt + b'.sample.toInt)

/-- The search for frame `f` of a block of `frames` frames looks at the next raw inputs, at most 3 of them and none past
the last frame (R187; 45_lookahead.md R223). The depth 3 is
log 11, and that the inputs are raw is K10 of log 13. -/
def Obligations.SearchDepth : Prop :=
  ∀ (x : Nat → Int) (frames f : Nat), f < frames →
    (lookaheadTargets x frames f).length = min (frames - f - 1) 3 ∧
    ∀ j v, (lookaheadTargets x frames f)[j]? = some v → v = x (f + 1 + j) ∧ f + 1 + j ≤ frames - 1

/-- ENC of `n` frames, in every noise-shaping mode: it goes on; it ends with NUMERIC_RANGE if some channel's run leaves
the datapath, and otherwise every channel's bank is the one its own run ends in, and every code stands in the place of
its frame, whatever the order in which the channels were coded (R185 to R189; 30_encoding.md R87). -/
def Obligations.EncodeRunsEveryChannel : Prop :=
  ∀ (s : State) (n : Nat), s.latch.legal = true → 1 ≤ n → n ≤ s.latch.spb →
    (∀ b : Channel → Chan, (∀ c, c.toNat < s.latch.ch → s.runAfter n c (pad n - 1) = .ok (b c)) →
      ∃ t, exec (.enc n) s = .next t ∧ t.err = .noError ∧ t.ctxValid = true ∧
        t.result.toNat = blockBytes s.latch.ch n ∧
        (∀ c, c.toNat < s.latch.ch → t.cs.get c = b c) ∧
        (∀ c f, c.toNat < s.latch.ch → 1 ≤ f → f < pad n →
          s.codeChosen n c f = .ok (codeOfByte
            (t.adpcmAt (4 * s.latch.ch + 4 * s.latch.ch * ((f - 1) / 8) + 4 * c.toNat + (f - 1) % 8 / 2))
            ((f - 1) % 2)))) ∧
    ((∃ c e, c.toNat < s.latch.ch ∧ s.runAfter n c (pad n - 1) = .error e) →
      ∃ t, exec (.enc n) s = .next t ∧ t.err = .numericRange ∧ t.fault = true ∧ t.result = 0)

/-- The headers ENC writes: the block's first frame as the sample, the index in force at block start (the carried one
in a stream, the seeded one in a new stream), and a reserved byte of 0 (R183, R184; 42_context_init.md R172). That the header sample is the block's
first frame is, in R183's words, the spec's own reading (K7 of log 13). -/
def Obligations.EncodeHeaders : Prop :=
  ∀ (s t : State) (n : Nat), 1 ≤ n → exec (.enc n) s = .next t → t.err = .noError →
    ∀ c : Channel, c.toNat < s.latch.ch →
      t.adpcmAt (4 * c.toNat) = (s.pcmAt c.toNat).extractLsb' 0 8 ∧
      t.adpcmAt (4 * c.toNat + 1) = (s.pcmAt c.toNat).extractLsb' 8 8 ∧
      (t.adpcmAt (4 * c.toNat + 2)).toNat = (if s.ctxValid then (s.cs.get c).index.toNat
        else seedIndex (initialDelta (fun f => s.input n f c) (pad n))) ∧
      t.adpcmAt (4 * c.toNat + 3) = 0

/-- With noise shaping off, ENC of any `n` in `1 .. SPB` succeeds, on any PCM and any banks: no checked value can leave
32 bits (R192; 45_lookahead.md R227). -/
def Obligations.EncodeCompletesWhenOff : Prop :=
  ∀ (s : State) (n : Nat), s.latch.legal = true → s.latch.nsMode = .off → 1 ≤ n → n ≤ s.latch.spb →
    ∃ t, exec (.enc n) s = .next t ∧ t.err = .noError ∧ t.ctxValid = true ∧
      t.result.toNat = blockBytes s.latch.ch n ∧
      ∀ c, (t.cs.get c).h0 = (s.cs.get c).h0 ∧ (t.cs.get c).h1 = (s.cs.get c).h1 ∧
        (t.cs.get c).weight = (s.cs.get c).weight ∧ (t.cs.get c).error = (s.cs.get c).error

/-- What ENC leaves unchanged, however it ends: the PCM buffer, the latch, the registers, the banks of channels it does
not code, every ADPCM byte past the block; and for an empty or rejected one, the context and all of ADPCM
(20_memory.md R65; 60_exceptions.md R305). -/
def Obligations.EncodeFrame : Prop :=
  ∀ (s t : State) (n : Nat), exec (.enc n) s = .next t →
    t = { s with err := t.err, result := t.result, fault := t.fault, ctxValid := t.ctxValid, cs := t.cs,
                 adpcm := t.adpcm, seq := t.seq, freeCount := t.freeCount } ∧
    (∀ a, blockBytes s.latch.ch n ≤ a → t.adpcmAt a = s.adpcmAt a) ∧
    (∀ c : Channel, s.latch.ch ≤ c.toNat → t.cs.get c = s.cs.get c) ∧
    (n = 0 ∨ t.err = .notConfigured ∨ t.err = .badLength →
      t.cs = s.cs ∧ t.ctxValid = s.ctxValid ∧ t.adpcm = s.adpcm)

/-- After NUMERIC_RANGE or ENCODING_SIZE_MISMATCH: FAULT and CTX_VALID are 1, the banks in use hold legal indexes, and
PCM, the latch, the other bank and the bytes past the block are unchanged (60_exceptions.md R305; log 7). -/
def Obligations.EncodeErrorState : Prop :=
  ∀ (s t : State) (n : Nat), exec (.enc n) s = .next t →
    t.err = .numericRange ∨ t.err = .encodingSizeMismatch →
    t.fault = true ∧ t.ctxValid = true ∧ t.result = 0 ∧ t.pcm = s.pcm ∧ t.latch = s.latch ∧
    (∀ c : Channel, c.toNat < s.latch.ch → (t.cs.get c).index.toNat ≤ 88) ∧
    (∀ c : Channel, s.latch.ch ≤ c.toNat → t.cs.get c = s.cs.get c) ∧
    (∀ a, blockBytes s.latch.ch n ≤ a → t.adpcmAt a = s.adpcmAt a)

/-- What ENC depends on: the latch, the context and the first `n·CH` entries of PCM. No other entry, no byte of ADPCM
and no register reaches its result, its banks or its block (20_memory.md R65). -/
def Obligations.EncodeReadsOnly : Prop :=
  ∀ (s u s' : State) (n : Nat), s.latch = u.latch → s.ctxValid = u.ctxValid → s.cs = u.cs →
    (∀ i, i < n * s.latch.ch → s.pcmAt i = u.pcmAt i) →
    exec (.enc n) s = .next s' → s'.err = .noError →
    ∃ u', exec (.enc n) u = .next u' ∧ u'.err = .noError ∧ u'.result = s'.result ∧
      u'.cs = s'.cs ∧ u'.ctxValid = s'.ctxValid ∧
      ∀ a, a < blockBytes s.latch.ch n → u'.adpcmAt a = s'.adpcmAt a

/-- Round trip: decoding the block that ENC wrote, with its own length, gives the encoder's running reconstruction in
every frame, padding included; and the bank ends on the last of them (R190; 40_quantizer.md R116). -/
def Obligations.RoundTrip : Prop :=
  ∀ (s t : State) (n : Nat), s.latch.legal = true → 1 ≤ n → n ≤ s.latch.spb →
    (∀ c, (s.cs.get c).index.toNat ≤ 88) → exec (.enc n) s = .next t → t.err = .noError →
    ∃ u, exec (.dec (blockBytes s.latch.ch n)) t = .next u ∧ u.err = .noError ∧ u.result.toNat = pad n ∧
      ∀ c f, c.toNat < s.latch.ch → f < pad n →
        ∃ b, s.runAfter n c f = .ok b ∧ u.pcmAt (f * s.latch.ch + c.toNat) = b.sample ∧
          (f = pad n - 1 → t.cs.get c = b)

/-! ## Noise shaping (44_noise_shaping.md) -/

/-- Static shaping: the pre-filter gives the input less the carried error and negates it into the error where both stay
in 32 bits, and raises NUMERIC_RANGE otherwise; and encode-sample codes that target and carries on the reconstruction
less the shaped input; the history and the weight stay (R201, R207; 00_scope.md R9). -/
def Obligations.StaticShaping : Prop :=
  (∀ (b : Chan) (raw : Int),
    -2147483647 ≤ raw - b.error.toInt → raw - b.error.toInt ≤ 2147483647 →
    ∃ b', shape .static b raw = .ok (b', raw - b.error.toInt) ∧ b'.error.toInt = -(raw - b.error.toInt) ∧
      b' = { b with error := b'.error }) ∧
  (∀ (b : Chan) (raw : Int),
    raw - b.error.toInt < -2147483647 ∨ 2147483647 < raw - b.error.toInt →
    shape .static b raw = .error .numericRange) ∧
  (∀ (b b' : Chan) (raw : Int) (future : List Int) (n : Nibble),
    encodeSample .static b raw future = .ok (n, b') →
    (∃ e, search b.sample.toInt b.index.toNat (raw - b.error.toInt) future = .ok (n, e)) ∧
    b'.toQuant = b.toQuant.apply n ∧
    b'.error.toInt = b'.sample.toInt - (raw - b.error.toInt) ∧
    b'.h0 = b.h0 ∧ b'.h1 = b.h1 ∧ b'.weight = b.weight)

/-- Dynamic shaping, when no checked value leaves 32 bits: the adapted weight, the history, the gain, the filtered and
corrected error term, the shaped sample and the error left, as the rules give them on integers
(R202 to R206, R208; K3 and K4, log 13). -/
def Obligations.DynamicShaping : Prop :=
  ∀ (b b' : Chan) (s y : Int), is16 s → shape .dynamic b s = .ok (b', y) →
    let sam := (3 * b.h0.toInt - b.h1.toInt) / 2
    let temp := s - (b.weight.toInt * sam + 512) / 1024
    let weight := if sam = 0 ∨ temp = 0 then b.weight.toInt
      else if sam < 0 ∧ temp < 0 ∨ 0 < sam ∧ 0 < temp then b.weight.toInt + 2 else b.weight.toInt - 2
    let sw := if weight < 256 then 1024 else 1536 - 2 * weight
    let t := -((sw * b.error.toInt + 512) / 1024)
    let t' := if t = b.error.toInt then (if t < 0 then t + 1 else t - 1) else t
    b'.toQuant = b.toQuant ∧ b'.h0.toInt = s ∧ b'.h1 = b.h0 ∧ b'.weight.toInt = weight ∧
    (sw < 0 ∧ t ≠ 0 → y = s + t' ∧ b'.error.toInt = -s) ∧
    (¬ (sw < 0 ∧ t ≠ 0) → y = s + t ∧ b'.error.toInt = -y)

/-- Dynamic shaping cannot leave 32 bits on a 16-bit input while the weight and the error are small enough for its two
products (R202, R206, R210; the bounds are this statement's own, not R210's). -/
def Obligations.DynamicShapingCompletes : Prop :=
  ∀ (b : Chan) (s : Int), is16 s → -16384 ≤ b.weight.toInt → b.weight.toInt ≤ 16384 →
    -65536 ≤ b.error.toInt → b.error.toInt ≤ 65536 → ∃ r, shape .dynamic b s = .ok r

/-- encode-sample goes on with shaping on, on 16-bit inputs, while the carried error (and in DYNAMIC the weight) is
small enough; and in STATIC one sample adds at most 65536 to the magnitude of the error (R201 to R207;
43_encoder.md R186; 45_lookahead.md R227; 00_scope.md R9). The bounds are this statement's own. -/
def Obligations.ShapedSampleCompletes : Prop :=
  ∀ (b : Chan) (raw : Int) (future : List Int), is16 raw → (∀ v ∈ future, is16 v) →
    (-268435456 ≤ b.error.toInt → b.error.toInt ≤ 268435456 →
      ∃ n b', encodeSample .static b raw future = .ok (n, b') ∧
        b'.error.toInt.natAbs ≤ b.error.toInt.natAbs + 65536) ∧
    (-16384 ≤ b.weight.toInt → b.weight.toInt ≤ 16384 → -65536 ≤ b.error.toInt → b.error.toInt ≤ 65536 →
      ∃ r, encodeSample .dynamic b raw future = .ok r)

/-! ## The search (45_lookahead.md) -/

/-- The greedy code: its sign bit says that the target is below the sample, its magnitude is
`min(7, 4·|delta| / step)`; it raises NUMERIC_RANGE exactly if a checked value leaves 32 bits; and at depth 0 the search
answers it with its immediate error, trying no other (R221, R222; the bound
536870911 is drawn from R227 and 00_scope.md R9). -/
def Obligations.GreedyCode : Prop :=
  ∀ (sample s : Int) (index : Nat),
    ((s - sample).natAbs ≤ 536870911 →
      greedy sample index s = .ok (BitVec.ofNat 4
        ((if s < sample then 8 else 0) + min 7 (4 * (s - sample).natAbs / stepRom index)))) ∧
    (536870911 < (s - sample).natAbs → greedy sample index s = .error .numericRange) ∧
    (∀ g, greedy sample index s = .ok g →
      search sample index s [] = .ok (g, squaredError (applyCode sample index g).1 s))

/-- On 16-bit samples and targets the search raises no error, at any depth (R227). -/
def Obligations.SearchStaysInRange : Prop :=
  ∀ (sample s : Int) (index : Nat) (future : List Int), is16 sample → is16 s → (∀ v ∈ future, is16 v) →
    ∃ r, search sample index s future = .ok r

/-- With lookahead, the search answers a code of least total error, pruned codes included; among codes of equal total
the greedy code wins, and after it the smallest (R224 to R226). That the codes are tried in ascending
order is K9 of log 13. -/
def Obligations.SearchFindsLeastTotal : Prop :=
  ∀ (sample s target : Int) (index : Nat) (future : List Int) (g : Nibble), is16 sample → is16 target →
    (∀ v ∈ future, is16 v) → greedy sample index s = .ok g →
    ∃ n, search sample index s (target :: future) = .ok (n, totalError sample index s target future n) ∧
      (∀ m, totalError sample index s target future n ≤ totalError sample index s target future m) ∧
      (totalError sample index s target future g = totalError sample index s target future n → n = g) ∧
      (n ≠ g → ∀ m, totalError sample index s target future m = totalError sample index s target future n →
        n.toNat ≤ m.toNat)

/-! ## The whole machine -/

/-- The invariant holds right after reset. -/
def Obligations.InvAtReset : Prop := Invariant State.reset

/-- Every step keeps the invariant: the buffers' form, the latch legal or invalid, a context only with a configuration
and zero banks without one, bank 1 zero in mono, every step index in [0, 88], RESULT 0 after an error
(10_state.md R22, R23, R25, R33; the buffers' form is log 1, the idle sequencer log 3). -/
def Obligations.StepKeepsInv : Prop := ∀ s t : State, Invariant s → step s = .next t → Invariant t

/-- In a state that meets the invariant no step faults, and a step goes on whenever the host's next access, if it makes
one, is inside the interface (60_exceptions.md R309; 20_memory.md R66). -/
def Obligations.StepGoesOn : Prop :=
  ∀ s : State, Invariant s → (∀ f, step s ≠ .fault f) ∧ (nextAdmitted s = true → Safe s)

/-- Only ENC, CFG, RSTS and hardware reset write the channel banks (10_state.md R21); only CFG and hardware reset write
the latch, so register writes take effect at the next CONFIGURE (70_reset_and_hazards.md R336); PCM changes only by DEC,
a host write of PCM or hardware reset, ADPCM only by ENC, a host write of ADPCM or hardware reset
(20_memory.md R60, R76). -/
def Obligations.WhoWritesWhat : Prop :=
  ∀ s t : State, s.seq.code = none → step s = .next t → (∀ rest, s.inbox ≠ .hardwareReset :: rest) →
    let runs := fun p : Instr → Prop =>
      ∃ w rest i, s.inbox = HostAccess.writeReg .command w :: rest ∧ decode (.command w) = .ok i ∧ p i
    (t.cs ≠ s.cs → runs fun i => i = .cfg ∨ i = .rsts ∨ ∃ n, i = .enc n) ∧
    (t.latch ≠ s.latch → runs fun i => i = .cfg) ∧
    (t.pcm ≠ s.pcm → runs (fun i => ∃ l, i = .dec l) ∨ ∃ o n v rest, s.inbox = .write .pcm o n v :: rest) ∧
    (t.adpcm ≠ s.adpcm → runs (fun i => ∃ n, i = .enc n) ∨ ∃ o n v rest, s.inbox = .write .adpcm o n v :: rest)
end

