-- ==== Sys2Proof/Laws/Arithmetic.lean ====
section
/-! SUPPORT. Integers, the quantizer update and the configuration latch. -/

namespace Sys2Proof.Machine

/-! ## Integers -/

theorem clamp_bounds {lo hi : Int} (h : lo ≤ hi) (v : Int) : lo ≤ clamp v lo hi ∧ clamp v lo hi ≤ hi := by
  unfold clamp; split
  · exact ⟨Int.le_refl _, h⟩
  · split <;> omega

theorem clamp_of_mem {v lo hi : Int} (h : lo ≤ v) (h' : v ≤ hi) : clamp v lo hi = v := by
  unfold clamp; rw [if_neg (by omega), if_neg (by omega)]

/-- A checked value is in the signed 32-bit range, and is the value checked. -/
theorem chk_eq_ok {v w : Int} : chk v = .ok w ↔ w = v ∧ -2147483648 ≤ v ∧ v ≤ 2147483647 := by
  unfold chk inDatapath
  by_cases h : -2147483648 ≤ v ∧ v ≤ 2147483647
  · simp [h, eq_comm]
  · have : (decide (-2147483648 ≤ v) && decide (v ≤ 2147483647)) = false := by
      simp only [Bool.and_eq_false_iff, decide_eq_false_iff_not]; omega
    simp only [this, Bool.false_eq_true, if_false, reduceCtorEq, false_iff]
    exact fun hc => h hc.2

theorem chk_of_mem {v : Int} (h : -2147483648 ≤ v) (h' : v ≤ 2147483647) : chk v = .ok v :=
  chk_eq_ok.mpr ⟨rfl, h, h'⟩

/-- A checked value that leaves the range raises NUMERIC_RANGE, and nothing else. -/
theorem chk_eq_error {v : Int} {e : ErrCode} (h : chk v = .error e) : e = .numericRange := by
  unfold chk at h; split at h <;> simp_all

/-- Two checked computations in a row. -/
theorem bind_eq_ok {α β : Type} {x : Checked α} {f : α → Checked β} {b : β} :
    (x >>= f) = .ok b ↔ ∃ a, x = .ok a ∧ f a = .ok b := by
  cases x <;> simp [bind, Except.bind]

theorem toInt_ofInt_half {v : Int} (h : -32768 ≤ v) (h' : v ≤ 32767) : (BitVec.ofInt 16 v).toInt = v := by
  rw [BitVec.toInt_ofInt]; simp only [Int.bmod_def]; omega

theorem toInt_ofInt_word {v : Int} (h : -2147483648 ≤ v) (h' : v ≤ 2147483647) : (BitVec.ofInt 32 v).toInt = v := by
  rw [BitVec.toInt_ofInt]; simp only [Int.bmod_def]; omega

theorem half_bounds (v : Half) : -32768 ≤ v.toInt ∧ v.toInt ≤ 32767 := by
  have h := @BitVec.le_toInt 16 v
  have h' := @BitVec.toInt_lt 16 v
  simp at h h'; omega

theorem word_bounds (v : Word) : -2147483648 ≤ v.toInt ∧ v.toInt ≤ 2147483647 := by
  have h := @BitVec.le_toInt 32 v
  have h' := @BitVec.toInt_lt 32 v
  simp at h h'; omega

/-! ## The quantizer update -/

theorem indexRom_bounds (n : Nibble) : -1 ≤ indexRom n ∧ indexRom n ≤ 8 := by
  revert n; decide

theorem nextSample_bounds (sample : Int) (step : Nat) (n : Nibble) :
    -32768 ≤ nextSample sample step n ∧ nextSample sample step n ≤ 32767 := clamp_bounds (by omega) _

theorem nextIndex_le (index : Nat) (n : Nibble) : nextIndex index n ≤ 88 := by
  have := clamp_bounds (lo := 0) (hi := 88) (by omega) (index + indexRom n)
  unfold nextIndex; omega

/-- The sample a code leaves is the saturated sum: nothing wraps. -/
theorem apply_sample (q : Quant) (n : Nibble) :
    (q.apply n).sample.toInt = nextSample q.sample.toInt q.step n := by
  have h := nextSample_bounds q.sample.toInt (stepRom q.index.toNat) n
  exact toInt_ofInt_half h.1 h.2

/-- The index a code leaves is the saturated sum: nothing wraps. -/
theorem apply_index (q : Quant) (n : Nibble) : (q.apply n).index.toNat = nextIndex q.index.toNat n := by
  have h := nextIndex_le q.index.toNat n
  show (BitVec.ofNat 7 (nextIndex q.index.toNat n)).toNat = _
  rw [BitVec.toNat_ofNat]; omega

theorem apply_index_le (q : Quant) (n : Nibble) : (q.apply n).index.toNat ≤ 88 := by
  rw [apply_index]; exact nextIndex_le _ _

/-- The update on numbers is the update on the registers. -/
theorem applyCode_eq (q : Quant) (n : Nibble) :
    applyCode q.sample.toInt q.index.toNat n = ((q.apply n).sample.toInt, (q.apply n).index.toNat) := by
  rw [apply_sample, apply_index]; rfl

/-! ## The latch -/

/-- What a legal latch holds. -/
theorem Latch.legal_iff (l : Latch) : l.legal = true ↔
    l.cfgValid = true ∧ (l.ch = 1 ∨ l.ch = 2) ∧ nsModeFits l.nsMode l.rate = true ∧
    256 ≤ l.bs ∧ l.bs ≤ 32768 ∧ l.bs % 256 = 0 ∧ l.spb = samplesPerBlock l.ch l.bs ∧
    1 ≤ l.rate ∧ l.rate ≤ 2147483647 := by
  simp only [Latch.legal, Bool.and_eq_true, Bool.or_eq_true, beq_iff_eq, decide_eq_true_eq, and_assoc]

theorem Latch.legal_cfgValid {l : Latch} (h : l.legal = true) : l.cfgValid = true := ((legal_iff l).mp h).1

@[simp] theorem Latch.invalid_legal : Latch.invalid.legal = false := rfl

theorem samplesPerBlock_one (bs : Nat) : samplesPerBlock 1 bs = (bs - 4) * 2 + 1 := rfl
theorem samplesPerBlock_two (bs : Nat) : samplesPerBlock 2 bs = bs - 8 + 1 := by
  simp [samplesPerBlock]

/-- The mode CONFIGURE selects fits the rate. -/
theorem selectNsMode_fits (nsEn : Bool) (rate : Nat) : nsModeFits (selectNsMode nsEn rate) rate = true := by
  unfold selectNsMode
  split
  · rfl
  · split <;> simp [nsModeFits] <;> omega

theorem autoBlockSize_mod (ch rate : Nat) : autoBlockSize ch rate % 256 = 0 := by
  unfold autoBlockSize; rw [Nat.mul_assoc]; exact Nat.mul_mod_right _ _

theorem autoBlockSize_ge {ch rate : Nat} (h : 1 ≤ ch) : 256 ≤ autoBlockSize ch rate := by
  unfold autoBlockSize
  have : 1 ≤ max 1 (rate / 11000) := Nat.le_max_left _ _
  calc 256 = 256 * 1 * 1 := rfl
    _ ≤ 256 * ch * max 1 (rate / 11000) := Nat.mul_le_mul (Nat.mul_le_mul_left _ h) this

/-- A block size CONFIGURE accepts is a multiple of 256 in [256, 32768]. -/
theorem effectiveBlockSize_ok {ch rate bsr bs : Nat} (hch : 1 ≤ ch)
    (h : effectiveBlockSize ch rate bsr = .ok bs) : 256 ≤ bs ∧ bs ≤ 32768 ∧ bs % 256 = 0 := by
  unfold effectiveBlockSize at h
  split at h
  · split at h
    · simp at h
    · simp only [Except.ok.injEq] at h
      subst bs
      exact ⟨autoBlockSize_ge hch, by omega, autoBlockSize_mod _ _⟩
  · split at h
    · rename_i hm
      simp only [Except.ok.injEq] at h
      subst bs
      simp only [explicitBlockSizes, List.mem_cons, List.not_mem_nil, or_false] at hm
      omega
    · simp at h

/-- What CONFIGURE latches is legal. -/
theorem checkConfig_legal {config blockSize sampleRate : Word} {l : Latch}
    (h : checkConfig config blockSize sampleRate = .ok l) : l.legal = true := by
  unfold checkConfig at h
  simp only at h
  split at h
  · simp at h
  · split at h
    · simp at h
    · split at h
      · simp at h
      · rename_i h1 h2 _ bs hbs
        simp only [not_or, not_and, Classical.not_not] at h1
        simp only [Except.ok.injEq] at h
        have hch : configChannels config = 1 ∨ configChannels config = 2 := by
          by_cases hc : configChannels config = 1
          · exact .inl hc
          · exact .inr (h1.1 hc)
        have hb := effectiveBlockSize_ok (by omega) hbs
        subst l
        rw [Latch.legal_iff]
        refine ⟨rfl, hch, selectNsMode_fits _ _, hb.1, hb.2.1, hb.2.2, rfl, ?_, ?_⟩ <;> show _ ≤ _ <;>
          simp only <;> omega

/-! ## Sizes -/

theorem pad_eq (n : Nat) : pad n = 8 * ((n + 6) / 8) + 1 ∨ n = 0 := by
  unfold pad
  by_cases h : n = 0
  · exact .inr h
  · left; congr 3; omega

theorem pad_sub_one (n : Nat) : pad n - 1 = 8 * ((pad n - 1) / 8) := by unfold pad; omega

theorem le_pad {n : Nat} (h : 1 ≤ n) : n ≤ pad n := by unfold pad; omega

end Sys2Proof.Machine
end

