-- ==== Sys2Proof/Laws/Buffers.lean ====
section
/-! SUPPORT. The laws of buffers and banks: read after write, every other place unchanged, the canonical form
kept. -/

namespace Sys2Proof.Machine

/-! ## Banks -/

namespace PerChannel

variable {α : Type} (p : PerChannel α) (c d : Channel) (v w : α)

@[simp] theorem get_set_same : (p.set c v).get c = v := by cases c <;> rfl

theorem get_set_other (h : d ≠ c) : (p.set c v).get d = p.get d := by
  cases c <;> cases d <;> first | rfl | exact absurd rfl h

theorem get_set : (p.set c v).get d = if d = c then v else p.get d := by
  cases c <;> cases d <;> rfl

@[simp] theorem set_left : p.set .left v = { p with left := v } := rfl
@[simp] theorem set_right : p.set .right v = { p with right := v } := rfl
@[simp] theorem get_left : p.get .left = p.left := rfl
@[simp] theorem get_right : p.get .right = p.right := rfl

theorem ext_get {p q : PerChannel α} (h : ∀ c, p.get c = q.get c) : p = q := by
  have hl : p.left = q.left := h .left
  have hr : p.right = q.right := h .right
  cases p; cases q; simp_all

end PerChannel

@[simp] theorem Channel.toNat_left : Channel.left.toNat = 0 := rfl
@[simp] theorem Channel.toNat_right : Channel.right.toNat = 1 := rfl

theorem Channel.toNat_lt (c : Channel) : c.toNat < 2 := by cases c <;> decide

theorem Channel.toNat_inj {c d : Channel} (h : c.toNat = d.toNat) : c = d := by
  cases c <;> cases d <;> first | rfl | exact absurd h (by decide)

@[simp] theorem channels_one : channels 1 = [.left] := rfl
@[simp] theorem channels_two : channels 2 = [.left, .right] := rfl

/-- Channel `c` is one of the channels `0 .. CH-1`. -/
theorem mem_channels {ch : Nat} {c : Channel} : c ∈ channels ch ↔ c.toNat < ch := by
  rcases ch with _ | _ | ch <;> cases c <;> simp [channels]

/-! ## Buffers -/

namespace Memory

@[simp] theorem find_nil (a : Nat) : find [] a = none := rfl

theorem find_cons (k : Nat) (b : Byte) (m : Memory) (a : Nat) :
    find ((k, b) :: m) a = if k = a then some b else find m a := rfl

/-- Reading a written byte gives the value written. -/
@[simp] theorem find_write_same (m : Memory) (a : Nat) (b : Byte) : find (write m a b) a = some b := by
  induction m with
  | nil => simp [write, find_cons]
  | cons cell rest ih =>
    obtain ⟨k, c⟩ := cell
    simp only [write]
    split
    · simp [find_cons]
    · split
      · simp [find_cons]
      · rw [find_cons, if_neg (by omega), ih]

/-- A write leaves every other byte alone. -/
theorem find_write_other (m : Memory) (a x : Nat) (b : Byte) (h : x ≠ a) : find (write m a b) x = find m x := by
  induction m with
  | nil => simp [write, find_cons, h.symm]
  | cons cell rest ih =>
    obtain ⟨k, c⟩ := cell
    simp only [write]
    split
    · rw [find_cons, if_neg h.symm]
    · split
      · subst a; rw [find_cons, find_cons, if_neg h.symm, if_neg h.symm]
      · rw [find_cons, find_cons, ih]

theorem find_write (m : Memory) (a x : Nat) (b : Byte) :
    find (write m a b) x = if x = a then some b else find m x := by
  split
  · subst x; exact find_write_same m a b
  · exact find_write_other m a x b ‹_›

/-- The addresses a write lists: the written one and those listed before. -/
theorem mem_write {m : Memory} {a : Nat} {b : Byte} {cell : Host.Cell} (h : cell ∈ write m a b) :
    cell = (a, b) ∨ cell ∈ m := by
  induction m with
  | nil => simpa [write] using h
  | cons hd rest ih =>
    obtain ⟨k, c⟩ := hd
    simp only [write] at h
    split at h
    · simpa using h
    · split at h
      · simp only [List.mem_cons] at h ⊢; exact h.imp_right Or.inr
      · simp only [List.mem_cons] at h ⊢
        rcases h with h | h
        · exact .inr (.inl h)
        · exact (ih h).imp_right Or.inr

/-- A write keeps the canonical form. -/
theorem write_wf {m : Memory} (hm : wf m) (a : Nat) (b : Byte) : wf (write m a b) := by
  induction m with
  | nil => simp [write, wf]
  | cons hd rest ih =>
    obtain ⟨k, c⟩ := hd
    obtain ⟨hk, hr⟩ := List.pairwise_cons.mp hm
    simp only [write]
    split
    · rename_i hlt
      refine List.pairwise_cons.mpr ⟨fun x hx => ?_, hm⟩
      rcases List.mem_cons.mp hx with rfl | hx
      · exact hlt
      · exact Nat.lt_trans hlt (hk x hx)
    · split
      · subst a; exact List.pairwise_cons.mpr ⟨hk, hr⟩
      · refine List.pairwise_cons.mpr ⟨fun x hx => ?_, ih hr⟩
        rcases mem_write hx with rfl | hx
        · show k < a; omega
        · exact hk x hx

/-- A write inside the buffer keeps every address inside it. -/
theorem write_inside {m : Memory} {size a : Nat} (hm : inside m size) (ha : a < size) (b : Byte) :
    inside (write m a b) size := by
  intro cell hc
  rcases mem_write hc with rfl | hc
  · exact ha
  · exact hm cell hc

/-- In the canonical form a listed address is found with its byte, and a smaller one is not found. -/
theorem find_of_lt {m : Memory} {a : Nat} (h : ∀ cell ∈ m, a < cell.1) : find m a = none := by
  induction m with
  | nil => rfl
  | cons hd rest ih =>
    obtain ⟨k, c⟩ := hd
    have hk : a < k := h (k, c) (by simp)
    rw [find_cons, if_neg (by omega), ih fun x hx => h x (by simp [hx])]

/-- Two buffers in the canonical form with the same written bytes are the same list. -/
theorem ext_find {m n : Memory} (hm : wf m) (hn : wf n) (h : ∀ a, find m a = find n a) : m = n := by
  induction m generalizing n with
  | nil =>
    cases n with
    | nil => rfl
    | cons hd rest =>
      obtain ⟨k, c⟩ := hd
      have := h k
      simp [find_cons] at this
  | cons hd rest ih =>
    obtain ⟨k, c⟩ := hd
    obtain ⟨hk, hr⟩ := List.pairwise_cons.mp hm
    cases n with
    | nil =>
      have := h k
      simp [find_cons] at this
    | cons hd' rest' =>
      obtain ⟨k', c'⟩ := hd'
      obtain ⟨hk', hr'⟩ := List.pairwise_cons.mp hn
      have hkk : k = k' := by
        have h1 := h k
        have h2 := h k'
        rw [find_cons, if_pos rfl, find_cons] at h1
        rw [find_cons, find_cons, if_pos rfl] at h2
        by_cases hlt : k = k'
        · exact hlt
        · rcases Nat.lt_or_gt_of_ne hlt with hlt | hlt
          · rw [if_neg (by omega), find_of_lt fun x hx => Nat.lt_trans hlt (hk' x hx)] at h1
            simp at h1
          · rw [if_neg (by omega), find_of_lt fun x hx => Nat.lt_trans hlt (hk x hx)] at h2
            simp at h2
      subst k'
      have hc : c = c' := by simpa [find_cons] using h k
      subst c'
      congr 1
      refine ih hr hr' fun a => ?_
      by_cases ha : k = a
      · subst a
        rw [find_of_lt fun x hx => hk x hx, find_of_lt fun x hx => hk' x hx]
      · simpa [find_cons, ha] using h a

end Memory

/-! ## ADPCM bytes -/

/-- Reading a byte after a write. -/
theorem adpcmByte_write (m : Memory) (epoch a x : Nat) (b : Byte) :
    adpcmByte (Memory.write m a b) epoch x = if x = a then b else adpcmByte m epoch x := by
  unfold adpcmByte
  rw [Memory.find_write]
  split <;> simp

theorem writePrefix_wf {m : Memory} (hm : Memory.wf m) (v : Nat → Byte) (n : Nat) :
    Memory.wf (writePrefix v m n) := by
  induction n with
  | zero => exact hm
  | succ n ih => exact Memory.write_wf ih _ _

theorem writePrefix_inside {m : Memory} {size n : Nat} (hm : Memory.inside m size) (hn : n ≤ size)
    (v : Nat → Byte) : Memory.inside (writePrefix v m n) size := by
  induction n with
  | zero => exact hm
  | succ n ih => exact Memory.write_inside (ih (by omega)) (by omega) _

/-- A prefix write sets the bytes below its length and leaves the others alone. -/
theorem adpcmByte_writePrefix (v : Nat → Byte) (m : Memory) (epoch n x : Nat) :
    adpcmByte (writePrefix v m n) epoch x = if x < n then v x else adpcmByte m epoch x := by
  induction n with
  | zero => simp [writePrefix]
  | succ n ih =>
    rw [writePrefix, adpcmByte_write, ih]
    by_cases h : x = n
    · subst x; simp
    · rw [if_neg h]
      by_cases h' : x < n
      · rw [if_pos h', if_pos (by omega)]
      · rw [if_neg h', if_neg (by omega)]

/-! ## PCM entries -/

theorem pcmByte_write (m : Memory) (epoch a x : Nat) (b : Byte) :
    pcmByte (Memory.write m a b) epoch x = if x = a then b else pcmByte m epoch x := by
  unfold pcmByte
  rw [Memory.find_write]
  split <;> simp

/-- A 16-bit pattern is its two bytes. -/
theorem append_bytes (v : Half) : (v.extractLsb' 8 8 ++ v.extractLsb' 0 8 : Half) = v := by
  ext i hi
  simp only [BitVec.getElem_append, BitVec.getElem_extractLsb']
  split
  · rw [Nat.zero_add, BitVec.getLsbD_eq_getElem (by omega)]
  · rename_i h
    rw [BitVec.getLsbD_eq_getElem (by omega)]
    congr 1
    omega

/-- Reading an entry after writing one. -/
theorem pcmEntry_writePcmEntry (m : Memory) (epoch i j : Nat) (v : Half) :
    pcmEntry (writePcmEntry m i v) epoch j = if j = i then v else pcmEntry m epoch j := by
  unfold pcmEntry writePcmEntry
  simp only [pcmByte_write]
  by_cases h : j = i
  · subst j
    have h1 : ¬ (2 * i = 2 * i + 1) := by omega
    simp only [if_true, h1, if_false]
    exact append_bytes v
  · have h1 : ¬ (2 * j + 1 = 2 * i + 1) := by omega
    have h2 : ¬ (2 * j + 1 = 2 * i) := by omega
    have h3 : ¬ (2 * j = 2 * i + 1) := by omega
    have h4 : ¬ (2 * j = 2 * i) := by omega
    simp only [h, h1, h2, h3, h4, if_false]

theorem writePcmEntry_wf {m : Memory} (hm : Memory.wf m) (i : Nat) (v : Half) : Memory.wf (writePcmEntry m i v) :=
  Memory.write_wf (Memory.write_wf hm _ _) _ _

theorem writePcmEntry_inside {m : Memory} {entries i : Nat} (hm : Memory.inside m (2 * entries)) (hi : i < entries)
    (v : Half) : Memory.inside (writePcmEntry m i v) (2 * entries) :=
  Memory.write_inside (Memory.write_inside hm (by omega) _) (by omega) _

theorem writePcmPrefix_wf {m : Memory} (hm : Memory.wf m) (v : Nat → Half) (n : Nat) :
    Memory.wf (writePcmPrefix v m n) := by
  induction n with
  | zero => exact hm
  | succ n ih => exact writePcmEntry_wf ih _ _

theorem writePcmPrefix_inside {m : Memory} {entries n : Nat} (hm : Memory.inside m (2 * entries)) (hn : n ≤ entries)
    (v : Nat → Half) : Memory.inside (writePcmPrefix v m n) (2 * entries) := by
  induction n with
  | zero => exact hm
  | succ n ih => exact writePcmEntry_inside (ih (by omega)) (by omega) _

/-- A prefix write sets the entries below its length and leaves the others alone. -/
theorem pcmEntry_writePcmPrefix (v : Nat → Half) (m : Memory) (epoch n j : Nat) :
    pcmEntry (writePcmPrefix v m n) epoch j = if j < n then v j else pcmEntry m epoch j := by
  induction n with
  | zero => simp [writePcmPrefix]
  | succ n ih =>
    rw [writePcmPrefix, pcmEntry_writePcmEntry, ih]
    by_cases h : j = n
    · subst j; simp
    · rw [if_neg h]
      by_cases h' : j < n
      · rw [if_pos h', if_pos (by omega)]
      · rw [if_neg h', if_neg (by omega)]

end Sys2Proof.Machine
end

