-- ==== Sys2Proof/Laws/Decoding.lean ====
section
/-! SUPPORT. What the decoder's loops do: header parse, one code, one channel's eight codes of a chunk, the whole
block. -/

namespace Sys2Proof.Machine

/-! ## The order of the loops -/

theorem bytePositions_succ (ch k : Nat) : bytePositions ch (k + 1) = bytePositions ch k ++
    (channels ch).flatMap fun c => (List.range 4).map fun b =>
      ({ chunk := k, channel := c, byte := b, nibble := 0 } : Position) := by
  simp [bytePositions, List.range_succ]

/-- Frame `8k + 1 + j` of channel `c` in the loop order. -/
def lanePosition (k : Nat) (c : Channel) (j : Nat) : Position :=
  { chunk := k, channel := c, byte := j / 2, nibble := j % 2 }

theorem codePositions_succ (ch k : Nat) : codePositions ch (k + 1) = codePositions ch k ++
    (channels ch).flatMap fun c => (List.range 8).map (lanePosition k c) := by
  unfold codePositions
  rw [bytePositions_succ, List.flatMap_append, List.flatMap_assoc]
  rfl

theorem lanePosition_frame (k : Nat) (c : Channel) (j : Nat) : (lanePosition k c j).frame = 8 * k + (j + 1) := by
  simp only [lanePosition, Position.frame]; omega

/-- The place of the code of frame `8k + 1 + j` (30_encoding.md R85, R87). -/
theorem codePlace_lane (ch k : Nat) (c : Channel) {j : Nat} (h : j < 8) :
    codePlace ch (8 * k + (j + 1)) c = ((lanePosition k c j).address ch, (lanePosition k c j).nibble) := by
  have h1 : (8 * k + (j + 1) - 1) / 8 = k := by omega
  have h2 : (8 * k + (j + 1) - 1) % 8 = j := by omega
  have h3 : (8 * k + (j + 1) - 1) % 2 = j % 2 := by omega
  simp only [codePlace, lanePosition, Position.address, h1, h2, h3]

/-! ## Entries of distinct samples are distinct -/

theorem pcmIndex_inj {ch f g : Nat} {c d : Channel} (hc : c.toNat < ch) (hd : d.toNat < ch)
    (h : pcmIndex ch f c = pcmIndex ch g d) : f = g ∧ c = d := by
  unfold pcmIndex at h
  have hf : f = g := by
    have h1 : (f * ch + c.toNat) / ch = f := by
      rw [Nat.mul_comm, Nat.mul_add_div (by omega), Nat.div_eq_of_lt hc, Nat.add_zero]
    have h2 : (g * ch + d.toNat) / ch = g := by
      rw [Nat.mul_comm, Nat.mul_add_div (by omega), Nat.div_eq_of_lt hd, Nat.add_zero]
    rw [← h1, h, h2]
  subst g
  exact ⟨rfl, Channel.toNat_inj (by omega)⟩

theorem pcmIndex_lt {ch f n : Nat} {c : Channel} (hc : c.toNat < ch) (hf : f < n) : pcmIndex ch f c < n * ch := by
  unfold pcmIndex
  calc f * ch + c.toNat < f * ch + ch := by omega
    _ = (f + 1) * ch := by rw [Nat.add_mul, Nat.one_mul]
    _ ≤ n * ch := Nat.mul_le_mul_right _ hf

/-! ## One code -/

/-- The working registers after one code: those of the position's channel. -/
theorem decodeOne_dec (ch : Nat) (byte : Nat → Byte) (w : DecodeWork) (p : Position) :
    (decodeOne ch byte w p).dec = w.dec.set p.channel
      ((w.dec.get p.channel).apply (codeOfByte (byte (p.address ch)) p.nibble)) := rfl

/-- PCM after one code: the entry of the position's frame holds the new working sample. -/
theorem decodeOne_pcm (ch : Nat) (byte : Nat → Byte) (w : DecodeWork) (p : Position) (epoch i : Nat) :
    pcmEntry (decodeOne ch byte w p).pcm epoch i =
      if i = pcmIndex ch p.frame p.channel then ((decodeOne ch byte w p).dec.get p.channel).sample
      else pcmEntry w.pcm epoch i := by
  simp only [decodeOne, emitSample]
  exact pcmEntry_writePcmEntry _ _ _ _ _

/-! ## One channel's codes of a chunk -/

/-- After the first `n` codes of channel `c` in chunk `k`: its working registers, the entries of its frames, and
nothing else. -/
theorem lane_decodes (ch k : Nat) (byte : Nat → Byte) (c : Channel) (hc : c.toNat < ch) (w : DecodeWork)
    (h : w.dec.get c = decodedQuant ch byte c (8 * k)) (n : Nat) (hn : n ≤ 8) :
    let w' := ((List.range n).map (lanePosition k c)).foldl (decodeOne ch byte) w
    w'.dec.get c = decodedQuant ch byte c (8 * k + n) ∧
    (∀ d, d ≠ c → w'.dec.get d = w.dec.get d) ∧
    (∀ epoch f, 8 * k < f → f ≤ 8 * k + n →
      pcmEntry w'.pcm epoch (pcmIndex ch f c) = (decodedQuant ch byte c f).sample) ∧
    (∀ epoch i, (∀ f, 8 * k < f → f ≤ 8 * k + n → i ≠ pcmIndex ch f c) →
      pcmEntry w'.pcm epoch i = pcmEntry w.pcm epoch i) := by
  induction n with
  | zero => exact ⟨h, fun d _ => rfl, fun epoch f h1 h2 => by omega, fun epoch i _ => rfl⟩
  | succ n ih =>
    obtain ⟨ih1, ih2, ih3, ih4⟩ := ih (by omega)
    simp only [List.range_succ, List.map_append, List.map_cons, List.map_nil, List.foldl_append, List.foldl_cons,
      List.foldl_nil]
    generalize ((List.range n).map (lanePosition k c)).foldl (decodeOne ch byte) w = v at ih1 ih2 ih3 ih4
    have hp := codePlace_lane ch k c (j := n) (by omega)
    have hq : (v.dec.get c).apply (codeOfByte (byte ((lanePosition k c n).address ch)) (lanePosition k c n).nibble)
        = decodedQuant ch byte c (8 * k + (n + 1)) := by
      rw [ih1]
      show _ = (decodedQuant ch byte c (8 * k + n)).apply (codeOfFrame ch byte c (8 * k + (n + 1)))
      rw [codeOfFrame, hp]
    have hd : ((decodeOne ch byte v (lanePosition k c n)).dec.get c) = decodedQuant ch byte c (8 * k + (n + 1)) := by
      rw [decodeOne_dec]; exact (PerChannel.get_set_same _ _ _).trans hq
    refine ⟨hd, fun d hd' => ?_, fun epoch f h1 h2 => ?_, fun epoch i hi => ?_⟩
    · rw [decodeOne_dec, ← ih2 d hd']
      exact PerChannel.get_set_other _ _ _ _ hd'
    · rw [decodeOne_pcm, lanePosition_frame, show (lanePosition k c n).channel = c from rfl, hd]
      by_cases hf : f = 8 * k + (n + 1)
      · rw [if_pos (by rw [hf]), hf]
      · rw [if_neg fun he => hf (pcmIndex_inj hc hc he).1, ih3 epoch f h1 (by omega)]
    · rw [decodeOne_pcm, lanePosition_frame, show (lanePosition k c n).channel = c from rfl,
        if_neg (hi _ (by omega) (by omega)), ih4 epoch i fun f h1 h2 => hi f h1 (by omega)]

/-! ## The whole block -/

/-- The chunk loop of `k` chunks from a work state whose working registers hold the headers. -/
theorem codes_decode (ch : Nat) (hch : ch = 1 ∨ ch = 2) (byte : Nat → Byte) (w : DecodeWork)
    (h : ∀ c, c.toNat < ch → w.dec.get c = decodedQuant ch byte c 0) (k : Nat) :
    let w' := (codePositions ch k).foldl (decodeOne ch byte) w
    (∀ c, c.toNat < ch → w'.dec.get c = decodedQuant ch byte c (8 * k)) ∧
    (∀ c, ¬ c.toNat < ch → w'.dec.get c = w.dec.get c) ∧
    (∀ epoch c f, c.toNat < ch → 1 ≤ f → f ≤ 8 * k →
      pcmEntry w'.pcm epoch (pcmIndex ch f c) = (decodedQuant ch byte c f).sample) ∧
    (∀ epoch i, (∀ c f, c.toNat < ch → 1 ≤ f → f ≤ 8 * k → i ≠ pcmIndex ch f c) →
      pcmEntry w'.pcm epoch i = pcmEntry w.pcm epoch i) := by
  induction k with
  | zero =>
    refine ⟨h, fun c _ => rfl, fun epoch c f _ h1 h2 => by omega, fun epoch i _ => rfl⟩
  | succ k ih =>
    obtain ⟨ih1, ih2, ih3, ih4⟩ := ih
    simp only [codePositions_succ, List.foldl_append]
    generalize (codePositions ch k).foldl (decodeOne ch byte) w = v at ih1 ih2 ih3 ih4
    rcases hch with rfl | rfl
    · simp only [channels_one, List.flatMap_cons, List.flatMap_nil, List.append_nil]
      obtain ⟨l1, l2, l3, l4⟩ := lane_decodes 1 k byte .left (by decide) v (ih1 .left (by decide)) 8 (by omega)
      generalize ((List.range 8).map (lanePosition k .left)).foldl (decodeOne 1 byte) v = u at l1 l2 l3 l4
      refine ⟨fun c hc => ?_, fun c hc => ?_, fun epoch c f hc h1 h2 => ?_, fun epoch i hi => ?_⟩
      · cases c
        · exact l1
        · exact absurd hc (by decide)
      · cases c
        · exact absurd (by decide) hc
        · rw [l2 _ (by decide), ih2 _ hc]
      · cases c
        · by_cases hf : f ≤ 8 * k
          · rw [l4 epoch _ fun g g1 _ he => by have := (pcmIndex_inj hc hc he).1; omega, ih3 epoch _ f hc h1 hf]
          · exact l3 epoch f (by omega) h2
        · exact absurd hc (by decide)
      · rw [l4 epoch i fun f h1 h2 => hi .left f (by decide) (by omega) h2,
          ih4 epoch i fun c f hc h1 h2 => hi c f hc h1 (by omega)]
    · simp only [channels_two, List.flatMap_cons, List.flatMap_nil, List.append_nil, List.foldl_append]
      obtain ⟨l1, l2, l3, l4⟩ := lane_decodes 2 k byte .left (by decide) v (ih1 .left (by decide)) 8 (by omega)
      generalize ((List.range 8).map (lanePosition k .left)).foldl (decodeOne 2 byte) v = u at l1 l2 l3 l4
      have hur : u.dec.get .right = decodedQuant 2 byte .right (8 * k) := by
        rw [l2 .right (by decide), ih1 .right (by decide)]
      obtain ⟨r1, r2, r3, r4⟩ := lane_decodes 2 k byte .right (by decide) u hur 8 (by omega)
      generalize ((List.range 8).map (lanePosition k .right)).foldl (decodeOne 2 byte) u = t at r1 r2 r3 r4
      have other : ∀ f g, pcmIndex 2 f .left ≠ pcmIndex 2 g .right := fun f g he =>
        absurd (pcmIndex_inj (by decide) (by decide) he).2 (by decide)
      refine ⟨fun c hc => ?_, fun c hc => absurd c.toNat_lt hc, fun epoch c f hc h1 h2 => ?_, fun epoch i hi => ?_⟩
      · cases c
        · rw [r2 _ (by decide)]; exact l1
        · exact r1
      · cases c
        · rw [r4 epoch _ fun g _ _ => other f g]
          by_cases hf : f ≤ 8 * k
          · rw [l4 epoch _ fun g g1 _ he => by have := (pcmIndex_inj hc hc he).1; omega, ih3 epoch _ f hc h1 hf]
          · exact l3 epoch f (by omega) h2
        · by_cases hf : f ≤ 8 * k
          · rw [r4 epoch _ fun g g1 _ he => by have := (pcmIndex_inj hc hc he).1; omega,
              l4 epoch _ fun g _ _ he => other g f he.symm, ih3 epoch _ f hc h1 hf]
          · exact r3 epoch f (by omega) h2
      · rw [r4 epoch i fun f h1 h2 => hi .right f (by decide) (by omega) h2,
          l4 epoch i fun f h1 h2 => hi .left f (by decide) (by omega) h2,
          ih4 epoch i fun c f hc h1 h2 => hi c f hc h1 (by omega)]

/-! ## Form -/

/-- One code keeps the buffer's form. -/
theorem decodeOne_wf (ch : Nat) (byte : Nat → Byte) {w : DecodeWork} (hw : Memory.wf w.pcm) (p : Position) :
    Memory.wf (decodeOne ch byte w p).pcm := writePcmEntry_wf hw _ _

theorem decodeOne_inside (ch : Nat) (byte : Nat → Byte) {w : DecodeWork} {p : Position} {entries : Nat}
    (hw : Memory.inside w.pcm (2 * entries)) (hp : pcmIndex ch p.frame p.channel < entries) :
    Memory.inside (decodeOne ch byte w p).pcm (2 * entries) := writePcmEntry_inside hw hp _

/-- Every code position of `k` chunks is that of a frame `1 .. 8k` of a channel below CH. -/
theorem mem_codePositions {ch k : Nat} {p : Position} (h : p ∈ codePositions ch k) :
    p.channel.toNat < ch ∧ 1 ≤ p.frame ∧ p.frame ≤ 8 * k := by
  induction k with
  | zero => simp [codePositions, bytePositions] at h
  | succ k ih =>
    rw [codePositions_succ, List.mem_append] at h
    rcases h with h | h
    · obtain ⟨h1, h2, h3⟩ := ih h
      exact ⟨h1, h2, by omega⟩
    · obtain ⟨c, hc, h⟩ := List.mem_flatMap.mp h
      obtain ⟨j, hj, rfl⟩ := List.mem_map.mp h
      have hj := List.mem_range.mp hj
      rw [lanePosition_frame]
      exact ⟨mem_channels.mp hc, by omega, by omega⟩

/-- Header parse touches the working registers only, and says whether every header is well formed. -/
theorem parseHeaders_ok (byte : Nat → Byte) (cs : List Channel) (dec : PerChannel Quant) :
    (parseHeaders byte cs dec).2 =
      cs.all fun c => headerWellFormed (byte (headerAddress c 2)) (byte (headerAddress c 3)) := by
  induction cs generalizing dec with
  | nil => rfl
  | cons c rest ih =>
    simp only [parseHeaders, List.all_cons]
    split
    · rename_i h; rw [ih, h, Bool.true_and]
    · rename_i h; simp [Bool.not_eq_true _ ▸ h]

end Sys2Proof.Machine
end

