-- ==== Sys2Proof/Laws/Encoding.lean ====
section
/-! SUPPORT. What the encoder's loops do: shaping, one sample, one byte, one channel's four bytes of a chunk, the
whole chunk loop, the headers. -/

namespace Sys2Proof.Machine

/-! ## Shaping -/

/-- Shaping never touches the quantizer's part of a bank. -/
theorem shape_quant {mode : NsMode} {b : Chan} {s : Int} {r : Chan × Int} (h : shape mode b s = .ok r) :
    r.1.toQuant = b.toQuant := by
  cases mode with
  | off => simp only [shape, Except.ok.injEq] at h; rw [← h]
  | static =>
    simp only [shape, shapeStatic, bind_eq_ok, Except.ok.injEq] at h
    obtain ⟨_, -, _, -, h⟩ := h
    rw [← h]
  | dynamic =>
    simp only [shape, shapeDynamic, bind_eq_ok, Except.ok.injEq] at h
    obtain ⟨_, -, _, -, _, -, _, -, _, -, h⟩ := h
    rw [← h]

/-- Error accumulation never touches the quantizer's part of a bank. -/
theorem accumulateError_quant {mode : NsMode} {b b' : Chan} (h : accumulateError mode b = .ok b') :
    b'.toQuant = b.toQuant := by
  cases mode with
  | off => simp only [accumulateError, Except.ok.injEq] at h; rw [← h]
  | static | dynamic =>
    simp only [accumulateError, bind_eq_ok, Except.ok.injEq] at h
    obtain ⟨_, -, h⟩ := h
    rw [← h]

/-- encode-sample applies the chosen code as the decoder will (43_encoder.md R186, 40_quantizer.md R116). -/
theorem encodeSample_quant {mode : NsMode} {b : Chan} {raw : Int} {future : List Int} {r : Nibble × Chan}
    (h : encodeSample mode b raw future = .ok r) : r.2.toQuant = b.toQuant.apply r.1 := by
  simp only [encodeSample, bind_eq_ok, Except.ok.injEq] at h
  obtain ⟨shaped, hs, found, -, b', hb, h⟩ := h
  rw [← h, accumulateError_quant hb, ← shape_quant hs]

/-! ## Codes in a byte -/

@[simp] theorem codeOfByte_pack_lo (lo hi : Nibble) : codeOfByte (packCodes lo hi) 0 = lo := by
  revert lo hi; decide

@[simp] theorem codeOfByte_pack_hi (lo hi : Nibble) : codeOfByte (packCodes lo hi) 1 = hi := by
  revert lo hi; decide

/-! ## One channel on its own -/

/-- What one more frame does to a channel's run. -/
theorem bankAfter_succ {mode : NsMode} {x : Nat → Int} {frames f : Nat} {start b : Chan} {r : Nibble × Chan}
    (h : bankAfter mode x frames start f = .ok b) (hr : encodeFrame mode x frames b (f + 1) = .ok r) :
    bankAfter mode x frames start (f + 1) = .ok r.2 ∧ chosenCode mode x frames start (f + 1) = .ok r.1 := by
  constructor
  · simp only [bankAfter, bind_eq_ok]
    exact ⟨b, h, r, hr, rfl⟩
  · simp only [chosenCode, Nat.add_sub_cancel, bind_eq_ok]
    exact ⟨b, h, r, hr, rfl⟩

/-- A run that reaches a frame reached every earlier one. -/
theorem bankAfter_prefix {mode : NsMode} {x : Nat → Int} {frames f g : Nat} {start b : Chan} (hg : g ≤ f)
    (h : bankAfter mode x frames start f = .ok b) : ∃ b', bankAfter mode x frames start g = .ok b' := by
  induction f generalizing b with
  | zero =>
    have : g = 0 := by omega
    subst g
    exact ⟨b, h⟩
  | succ f ih =>
    by_cases hgf : g = f + 1
    · subst g; exact ⟨b, h⟩
    · simp only [bankAfter, bind_eq_ok] at h
      obtain ⟨b', hb', -⟩ := h
      exact ih (by omega) hb'

/-- The decoder's registers follow the encoder's bank, frame by frame (43_encoder.md R190). -/
theorem bankAfter_quant {mode : NsMode} {x : Nat → Int} {frames f : Nat} {start b : Chan} {ch : Nat}
    {byte : Nat → Byte} {c : Channel} (h : bankAfter mode x frames start f = .ok b)
    (h0 : decodedQuant ch byte c 0 = start.toQuant)
    (hcodes : ∀ g n, 1 ≤ g → g ≤ f → chosenCode mode x frames start g = .ok n → codeOfFrame ch byte c g = n) :
    decodedQuant ch byte c f = b.toQuant := by
  induction f generalizing b with
  | zero =>
    simp only [bankAfter, Except.ok.injEq] at h
    rw [h0, h]
  | succ f ih =>
    simp only [bankAfter, bind_eq_ok, Except.ok.injEq] at h
    obtain ⟨b', hb', r, hr, h⟩ := h
    have hn := hcodes (f + 1) r.1 (by omega) (Nat.le_refl _) (bankAfter_succ hb' hr).2
    show (decodedQuant ch byte c f).apply (codeOfFrame ch byte c (f + 1)) = _
    rw [ih hb' fun g n h1 h2 => hcodes g n h1 (by omega), hn, ← h, encodeSample_quant hr]

/-! ## One byte -/

/-- A byte of the chunk loop, when both its samples are coded. -/
theorem encodeByte_eq_ok {mode : NsMode} {ch frames : Nat} {x : Channel → Nat → Int} {w w' : EncodeWork}
    {p : Position} : encodeByte mode ch frames x w p = .ok w' ↔ ∃ lo hi,
      encodeFrame mode (x p.channel) frames (w.cs.get p.channel) p.frame = .ok lo ∧
      encodeFrame mode (x p.channel) frames lo.2 { p with nibble := 1 : Position }.frame = .ok hi ∧
      w' = { w with cs := w.cs.set p.channel hi.2 }.put (p.address ch) (packCodes lo.1 hi.1) := by
  simp only [encodeByte, bind_eq_ok, Except.ok.injEq, eq_comm (b := w')]
  constructor
  · rintro ⟨lo, hlo, hi, hhi, h⟩; exact ⟨lo, hi, hlo, hhi, h⟩
  · rintro ⟨lo, hi, hlo, hhi, h⟩; exact ⟨lo, hlo, hi, hhi, h⟩

@[simp] theorem put_cs (w : EncodeWork) (a : Nat) (v : Byte) : (w.put a v).cs = w.cs := rfl
@[simp] theorem put_written (w : EncodeWork) (a : Nat) (v : Byte) : (w.put a v).written = w.written + 1 := rfl

theorem put_adpcm (w : EncodeWork) (a : Nat) (v : Byte) (epoch x : Nat) :
    adpcmByte (w.put a v).adpcm epoch x = if x = a then v else adpcmByte w.adpcm epoch x :=
  adpcmByte_write _ _ _ _ _

/-! ## One channel's bytes of a chunk -/

/-- Byte `b` of channel `c` in chunk `k`. -/
def lanePositionByte (k : Nat) (c : Channel) (b : Nat) : Position :=
  { chunk := k, channel := c, byte := b, nibble := 0 }

theorem codePlace_low (ch k : Nat) (c : Channel) {b : Nat} (h : b < 4) :
    codePlace ch (8 * k + 2 * b + 1) c = ((lanePositionByte k c b).address ch, 0) := by
  have h1 : (8 * k + 2 * b + 1 - 1) / 8 = k := by omega
  have h2 : (8 * k + 2 * b + 1 - 1) % 8 / 2 = b := by omega
  have h3 : (8 * k + 2 * b + 1 - 1) % 2 = 0 := by omega
  simp only [codePlace, lanePositionByte, Position.address, h1, h2, h3]

theorem codePlace_high (ch k : Nat) (c : Channel) {b : Nat} (h : b < 4) :
    codePlace ch (8 * k + 2 * b + 2) c = ((lanePositionByte k c b).address ch, 1) := by
  have h1 : (8 * k + 2 * b + 2 - 1) / 8 = k := by omega
  have h2 : (8 * k + 2 * b + 2 - 1) % 8 / 2 = b := by omega
  have h3 : (8 * k + 2 * b + 2 - 1) % 2 = 1 := by omega
  simp only [codePlace, lanePositionByte, Position.address, h1, h2, h3]

/-- After the first `n` bytes of channel `c` in chunk `k`, when they are coded: the channel's run has gone `2n` frames
on, its codes stand in their places, and no other bank and no other byte has changed. -/
theorem lane_encodes {mode : NsMode} {ch frames k : Nat} {x : Channel → Nat → Int} {c : Channel} {start : Chan}
    {w w' : EncodeWork} (h : bankAfter mode (x c) frames start (8 * k) = .ok (w.cs.get c)) (n : Nat) (hn : n ≤ 4)
    (hw : ((List.range n).map (lanePositionByte k c)).foldlM (encodeByte mode ch frames x) w = .ok w') :
    bankAfter mode (x c) frames start (8 * k + 2 * n) = .ok (w'.cs.get c) ∧
    (∀ d, d ≠ c → w'.cs.get d = w.cs.get d) ∧
    w'.written = w.written + n ∧
    (∀ epoch f, 8 * k < f → f ≤ 8 * k + 2 * n → chosenCode mode (x c) frames start f =
      .ok (codeOfByte (adpcmByte w'.adpcm epoch (codePlace ch f c).1) (codePlace ch f c).2)) ∧
    (∀ epoch a, (∀ b, b < n → a ≠ (lanePositionByte k c b).address ch) →
      adpcmByte w'.adpcm epoch a = adpcmByte w.adpcm epoch a) := by
  induction n generalizing w' with
  | zero =>
    simp only [List.range_zero, List.map_nil, List.foldlM_nil, pure, Except.pure, Except.ok.injEq] at hw
    subst w'
    exact ⟨h, fun d _ => rfl, rfl, fun epoch f h1 h2 => by omega, fun epoch a _ => rfl⟩
  | succ n ih =>
    simp only [List.range_succ, List.map_append, List.map_cons, List.map_nil, List.foldlM_append, List.foldlM_cons,
      List.foldlM_nil, bind_eq_ok] at hw
    obtain ⟨v, hv, u, hu, hw⟩ := hw
    simp only [pure, Except.pure, Except.ok.injEq] at hw
    subst u
    obtain ⟨ih1, ih2, ih3, ih4, ih5⟩ := ih (by omega) hv
    obtain ⟨lo, hi, hlo, hhi, rfl⟩ := encodeByte_eq_ok.mp hu
    have flo : (lanePositionByte k c n).frame = 8 * k + 2 * n + 1 := by
      simp only [lanePositionByte, Position.frame]; omega
    have fhi : ({ lanePositionByte k c n with nibble := 1 } : Position).frame = 8 * k + 2 * n + 1 + 1 := by
      simp only [lanePositionByte, Position.frame]; omega
    rw [flo] at hlo
    rw [fhi] at hhi
    obtain ⟨b1, c1⟩ := bankAfter_succ ih1 hlo
    obtain ⟨b2, c2⟩ := bankAfter_succ b1 hhi
    refine ⟨?_, fun d hd => ?_, by
      show v.written + 1 = _; omega, fun epoch f h1 h2 => ?_, fun epoch a ha => ?_⟩
    · simp only [put_cs]
      rw [show (lanePositionByte k c n).channel = c from rfl, PerChannel.get_set_same]
      exact b2
    · simp only [put_cs]
      rw [← ih2 d hd]
      exact PerChannel.get_set_other _ _ _ _ hd
    · by_cases hf2 : f = 8 * k + 2 * n + 2
      · subst f
        rw [codePlace_high ch k c (by omega), put_adpcm, if_pos rfl, codeOfByte_pack_hi]
        exact c2
      · by_cases hf1 : f = 8 * k + 2 * n + 1
        · subst f
          rw [codePlace_low ch k c (by omega), put_adpcm, if_pos rfl, codeOfByte_pack_lo]
          exact c1
        · rw [put_adpcm, if_neg, ih4 epoch f h1 (by omega)]
          have : (codePlace ch f c).1 = 4 * ch + 4 * ch * k + 4 * c.toNat + (f - 1) % 8 / 2 := by
            simp only [codePlace]
            rw [show (f - 1) / 8 = k by omega]
          rw [this]
          simp only [lanePositionByte, Position.address]
          omega
    · rw [put_adpcm, if_neg (ha n (by omega)), ih5 epoch a fun b hb => ha b (by omega)]

/-- If the channel's run reaches the end of the lane, its bytes are coded. -/
theorem lane_completes {mode : NsMode} {ch frames k : Nat} {x : Channel → Nat → Int} {c : Channel} {start b : Chan}
    {w : EncodeWork} (h : bankAfter mode (x c) frames start (8 * k) = .ok (w.cs.get c)) (n : Nat) (hn : n ≤ 4)
    (hb : bankAfter mode (x c) frames start (8 * k + 2 * n) = .ok b) :
    ∃ w', ((List.range n).map (lanePositionByte k c)).foldlM (encodeByte mode ch frames x) w = .ok w' := by
  induction n generalizing b with
  | zero => exact ⟨w, rfl⟩
  | succ n ih =>
    obtain ⟨b', hb'⟩ := bankAfter_prefix (g := 8 * k + 2 * n) (by omega) hb
    obtain ⟨v, hv⟩ := ih (by omega) hb'
    have hvb := (lane_encodes h n (by omega) hv).1
    simp only [show 8 * k + 2 * (n + 1) = 8 * k + 2 * n + 1 + 1 by omega, bankAfter, bind_eq_ok] at hb
    obtain ⟨b1, ⟨b0, hb0, lo, hlo, h1⟩, hi, hhi, -⟩ := hb
    rw [hb0, Except.ok.injEq] at hvb
    subst b0
    simp only [Except.ok.injEq] at h1
    subst b1
    have flo : (lanePositionByte k c n).frame = 8 * k + 2 * n + 1 := by
      simp only [lanePositionByte, Position.frame]; omega
    have fhi : ({ lanePositionByte k c n with nibble := 1 } : Position).frame = 8 * k + 2 * n + 1 + 1 := by
      simp only [lanePositionByte, Position.frame]; omega
    refine ⟨{ v with cs := v.cs.set c hi.2 }.put ((lanePositionByte k c n).address ch) (packCodes lo.1 hi.1), ?_⟩
    simp only [List.range_succ, List.map_append, List.map_cons, List.map_nil, List.foldlM_append, List.foldlM_cons,
      List.foldlM_nil, bind_eq_ok]
    exact ⟨v, hv, _, encodeByte_eq_ok.mpr ⟨lo, hi, by rw [flo]; exact hlo, by rw [fhi]; exact hhi, rfl⟩, rfl⟩

/-! ## The chunk loop -/

/-- The bytes of chunk `k`. -/
theorem bytePositions_lane (ch k : Nat) : bytePositions ch (k + 1) = bytePositions ch k ++
    (channels ch).flatMap fun c => (List.range 4).map (lanePositionByte k c) := bytePositions_succ ch k

/-- The address of a byte of a lane lies in its chunk. -/
theorem lane_address {ch k : Nat} {c : Channel} {b : Nat} (hc : c.toNat < ch) (hb : b < 4) :
    4 * ch + 4 * ch * k ≤ (lanePositionByte k c b).address ch ∧
    (lanePositionByte k c b).address ch < 4 * ch + 4 * ch * (k + 1) := by
  simp only [lanePositionByte, Position.address]
  have : 4 * ch * (k + 1) = 4 * ch * k + 4 * ch := by rw [Nat.mul_add, Nat.mul_one]
  omega

/-- The place of a code of an earlier chunk lies before the chunk. -/
theorem codePlace_before {ch k f : Nat} {c : Channel} (hc : c.toNat < ch) (h1 : 1 ≤ f) (h2 : f ≤ 8 * k) :
    4 * ch ≤ (codePlace ch f c).1 ∧ (codePlace ch f c).1 < 4 * ch + 4 * ch * k := by
  simp only [codePlace]
  have h3 : (f - 1) / 8 + 1 ≤ k := by omega
  have h4 : 4 * ch * ((f - 1) / 8 + 1) ≤ 4 * ch * k := Nat.mul_le_mul_left _ h3
  have h5 : 4 * ch * ((f - 1) / 8 + 1) = 4 * ch * ((f - 1) / 8) + 4 * ch := by rw [Nat.mul_add, Nat.mul_one]
  have h6 : (f - 1) % 8 / 2 < 4 := by omega
  omega

/-- What `k` chunks of the loop have done when they are coded. -/
structure ChunksCoded (mode : NsMode) (ch frames : Nat) (x : Channel → Nat → Int) (w w' : EncodeWork) (k : Nat) :
    Prop where
  banks : ∀ c, c.toNat < ch → bankAfter mode (x c) frames (w.cs.get c) (8 * k) = .ok (w'.cs.get c)
  otherBanks : ∀ c, ¬ c.toNat < ch → w'.cs.get c = w.cs.get c
  written : w'.written = w.written + 4 * ch * k
  codes : ∀ epoch c f, c.toNat < ch → 1 ≤ f → f ≤ 8 * k → chosenCode mode (x c) frames (w.cs.get c) f =
    .ok (codeOfByte (adpcmByte w'.adpcm epoch (codePlace ch f c).1) (codePlace ch f c).2)
  otherBytes : ∀ epoch a, a < 4 * ch ∨ 4 * ch + 4 * ch * k ≤ a →
    adpcmByte w'.adpcm epoch a = adpcmByte w.adpcm epoch a

/-- The chunk loop in mono and stereo. -/
theorem chunks_encode {mode : NsMode} {ch frames : Nat} (hch : ch = 1 ∨ ch = 2) {x : Channel → Nat → Int}
    {w w' : EncodeWork} (k : Nat)
    (hw : (bytePositions ch k).foldlM (encodeByte mode ch frames x) w = .ok w') :
    ChunksCoded mode ch frames x w w' k := by
  induction k generalizing w' with
  | zero =>
    simp only [bytePositions, List.range_zero, List.flatMap_nil, List.foldlM_nil, pure, Except.pure,
      Except.ok.injEq] at hw
    subst w'
    exact ⟨fun c _ => rfl, fun c _ => rfl, rfl, fun epoch c f _ h1 h2 => by omega, fun epoch a _ => rfl⟩
  | succ k ih =>
    simp only [bytePositions_lane, List.foldlM_append, bind_eq_ok] at hw
    obtain ⟨v, hv, hw⟩ := hw
    obtain ⟨ih1, ih2, ih3, ih4, ih5⟩ := ih hv
    rcases hch with rfl | rfl
    · simp only [channels_one, List.flatMap_cons, List.flatMap_nil, List.append_nil] at hw
      obtain ⟨l1, l2, l3, l4, l5⟩ := lane_encodes (ih1 .left (by decide)) 4 (by omega) hw
      refine ⟨fun c hc => ?_, fun c hc => ?_, by omega, fun epoch c f hc h1 h2 => ?_, fun epoch a ha => ?_⟩
      · cases c
        · exact l1
        · exact absurd hc (by decide)
      · cases c
        · exact absurd (by decide) hc
        · rw [l2 _ (by decide), ih2 _ hc]
      · cases c
        · by_cases hf : f ≤ 8 * k
          · have hp := codePlace_before hc h1 hf
            rw [l5 epoch _ fun b hb => by have := (lane_address (k := k) hc hb).1; omega]
            exact ih4 epoch _ f hc h1 hf
          · exact l4 epoch f (by omega) h2
        · exact absurd hc (by decide)
      · rw [l5 epoch a fun b hb => by have := lane_address (ch := 1) (k := k) (c := .left) (by decide) hb; omega,
          ih5 epoch a (by omega)]
    · simp only [channels_two, List.flatMap_cons, List.flatMap_nil, List.append_nil, List.foldlM_append,
        bind_eq_ok] at hw
      obtain ⟨u, hu, hw⟩ := hw
      obtain ⟨l1, l2, l3, l4, l5⟩ := lane_encodes (ih1 .left (by decide)) 4 (by omega) hu
      have hr : bankAfter mode (x .right) frames (w.cs.get .right) (8 * k) = .ok (u.cs.get .right) := by
        rw [l2 _ (by decide)]; exact ih1 .right (by decide)
      obtain ⟨r1, r2, r3, r4, r5⟩ := lane_encodes hr 4 (by omega) hw
      refine ⟨fun c hc => ?_, fun c hc => absurd c.toNat_lt hc, by omega, fun epoch c f hc h1 h2 => ?_,
        fun epoch a ha => ?_⟩
      · cases c
        · rw [r2 _ (by decide)]; exact l1
        · exact r1
      · by_cases hf : f ≤ 8 * k
        · have hp := codePlace_before hc h1 hf
          rw [r5 epoch _ fun b hb => by
              have := (lane_address (ch := 2) (k := k) (c := .right) (by decide) hb).1; omega,
            l5 epoch _ fun b hb => by
              have := (lane_address (ch := 2) (k := k) (c := .left) (by decide) hb).1; omega]
          exact ih4 epoch _ f hc h1 hf
        · cases c
          · rw [r5 epoch _ fun b hb => by
              simp only [codePlace, lanePositionByte, Position.address, Channel.toNat_left, Channel.toNat_right]
              rw [show (f - 1) / 8 = k by omega]
              omega]
            exact l4 epoch f (by omega) h2
          · exact r4 epoch f (by omega) h2
      · rw [r5 epoch a fun b hb => by have := lane_address (ch := 2) (k := k) (c := .right) (by decide) hb; omega,
          l5 epoch a fun b hb => by have := lane_address (ch := 2) (k := k) (c := .left) (by decide) hb; omega,
          ih5 epoch a (by omega)]

/-- If every channel's run reaches the end of `k` chunks, the loop is coded. -/
theorem chunks_complete {mode : NsMode} {ch frames : Nat} (hch : ch = 1 ∨ ch = 2) {x : Channel → Nat → Int}
    {w : EncodeWork} (k : Nat)
    (hb : ∀ c, c.toNat < ch → ∃ b, bankAfter mode (x c) frames (w.cs.get c) (8 * k) = .ok b) :
    ∃ w', (bytePositions ch k).foldlM (encodeByte mode ch frames x) w = .ok w' := by
  induction k with
  | zero => exact ⟨w, rfl⟩
  | succ k ih =>
    obtain ⟨v, hv⟩ := ih fun c hc => by
      obtain ⟨b, hb⟩ := hb c hc
      exact bankAfter_prefix (by omega) hb
    obtain ⟨ih1, -, -, -, -⟩ := chunks_encode hch k hv
    simp only [bytePositions_lane, List.foldlM_append, bind_eq_ok]
    rcases hch with rfl | rfl
    · obtain ⟨b, hb⟩ := hb .left (by decide)
      obtain ⟨u, hu⟩ := lane_completes (ch := 1) (ih1 .left (by decide)) 4 (by omega) hb
      exact ⟨u, v, hv, by simpa using hu⟩
    · obtain ⟨b, hbl⟩ := hb .left (by decide)
      obtain ⟨b', hbr⟩ := hb .right (by decide)
      obtain ⟨u, hu⟩ := lane_completes (ch := 2) (ih1 .left (by decide)) 4 (by omega) hbl
      have l2 := (lane_encodes (ih1 .left (by decide)) 4 (by omega) hu).2.1
      have hr : bankAfter mode (x .right) frames (w.cs.get .right) (8 * k) = .ok (u.cs.get .right) := by
        rw [l2 _ (by decide)]; exact ih1 .right (by decide)
      obtain ⟨t, ht⟩ := lane_completes (ch := 2) hr 4 (by omega) hbr
      exact ⟨t, v, hv, by
        simp only [channels_two, List.flatMap_cons, List.flatMap_nil, List.append_nil, List.foldlM_append, bind_eq_ok]
        exact ⟨u, hu, ht⟩⟩

/-! ## Headers -/

/-- The four bytes of a header. -/
theorem emitHeader_spec (w : EncodeWork) (c : Channel) :
    (emitHeader w c).cs = w.cs ∧ (emitHeader w c).written = w.written + 4 ∧
    ∀ epoch a, adpcmByte (emitHeader w c).adpcm epoch a =
      if 4 * c.toNat ≤ a ∧ a < 4 * c.toNat + 4 then headerByte (w.cs.get c).toQuant (a - 4 * c.toNat)
      else adpcmByte w.adpcm epoch a := by
  refine ⟨rfl, rfl, fun epoch a => ?_⟩
  show adpcmByte ((((w.put _ _).put _ _).put _ _).put _ _).adpcm epoch a = _
  simp only [put_adpcm, put_cs, headerAddress]
  by_cases h3 : a = 4 * c.toNat + 3
  · subst a; rw [if_pos rfl, if_pos (by omega)]; congr 1; omega
  rw [if_neg h3]
  by_cases h2 : a = 4 * c.toNat + 2
  · subst a; rw [if_pos rfl, if_pos (by omega)]; congr 1; omega
  rw [if_neg h2]
  by_cases h1 : a = 4 * c.toNat + 1
  · subst a; rw [if_pos rfl, if_pos (by omega)]; congr 1; omega
  rw [if_neg h1]
  by_cases h0 : a = 4 * c.toNat + 0
  · subst a; rw [if_pos rfl, if_pos (by omega)]; congr 1; omega
  rw [if_neg h0, if_neg (by omega)]

/-- The headers of channels `0 .. CH-1`. -/
theorem emitHeaders_spec (w : EncodeWork) {ch : Nat} (hch : ch = 1 ∨ ch = 2) :
    let w' := (channels ch).foldl emitHeader w
    w'.cs = w.cs ∧ w'.written = w.written + 4 * ch ∧
    (∀ epoch c k, c.toNat < ch → k < 4 →
      adpcmByte w'.adpcm epoch (headerAddress c k) = headerByte (w.cs.get c).toQuant k) ∧
    (∀ epoch a, 4 * ch ≤ a → adpcmByte w'.adpcm epoch a = adpcmByte w.adpcm epoch a) := by
  have in_left : ∀ {k}, k < 4 → 4 * Channel.left.toNat ≤ headerAddress .left k ∧
      headerAddress .left k < 4 * Channel.left.toNat + 4 := fun h => by
    simp only [headerAddress, Channel.toNat_left]; omega
  have in_right : ∀ {k}, k < 4 → 4 * Channel.right.toNat ≤ headerAddress .right k ∧
      headerAddress .right k < 4 * Channel.right.toNat + 4 := fun h => by
    simp only [headerAddress, Channel.toNat_right]; omega
  have off : ∀ c k, headerAddress c k - 4 * c.toNat = k := fun c k => by simp only [headerAddress]; omega
  have not_left : ∀ {a}, 4 ≤ a → ¬ (4 * Channel.left.toNat ≤ a ∧ a < 4 * Channel.left.toNat + 4) := fun h => by
    simp only [Channel.toNat_left]; omega
  have not_right : ∀ {a}, a < 4 ∨ 8 ≤ a → ¬ (4 * Channel.right.toNat ≤ a ∧ a < 4 * Channel.right.toNat + 4) :=
    fun h => by simp only [Channel.toNat_right]; omega
  rcases hch with rfl | rfl
  · obtain ⟨h1, h2, h3⟩ := emitHeader_spec w .left
    refine ⟨h1, h2, fun epoch c k hc hk => ?_, fun epoch a ha => (h3 epoch a).trans (if_neg (not_left ha))⟩
    cases c
    · exact ((h3 epoch _).trans (if_pos (in_left hk))).trans (by rw [off])
    · exact absurd hc (by decide)
  · obtain ⟨h1, h2, h3⟩ := emitHeader_spec w .left
    obtain ⟨g1, g2, g3⟩ := emitHeader_spec (emitHeader w .left) .right
    refine ⟨g1.trans h1, g2.trans (by rw [h2]), fun epoch c k _ hk => ?_, fun epoch a ha =>
      ((g3 epoch a).trans (if_neg (not_right (.inr ha)))).trans
        ((h3 epoch a).trans (if_neg (not_left (by omega))))⟩
    cases c
    · refine ((g3 epoch _).trans (if_neg (not_right (.inl ?_)))).trans
        (((h3 epoch _).trans (if_pos (in_left hk))).trans (by rw [off]))
      simp only [headerAddress, Channel.toNat_left]; omega
    · exact ((g3 epoch _).trans (if_pos (in_right hk))).trans (by rw [off, h1])

/-- The decoder reads back from a header the channel state it was emitted from (30_encoding.md R84). -/
theorem headerQuant_headerByte (q : Quant) : headerQuant (headerByte q 0) (headerByte q 1) (headerByte q 2) = q := by
  have h1 : (headerByte q 1 ++ headerByte q 0 : Half) = q.sample := append_bytes q.sample
  have h2 : (headerByte q 2).setWidth 7 = q.index := by
    show (q.index.setWidth 8).setWidth 7 = q.index
    exact BitVec.eq_of_toNat_eq (by simp only [BitVec.toNat_setWidth]; have := q.index.isLt; omega)
  unfold headerQuant
  rw [h1, h2]

/-- A header emitted from an index in [0, 88] is well formed. -/
theorem headerWellFormed_headerByte {q : Quant} (h : q.index.toNat ≤ 88) :
    headerWellFormed (headerByte q 2) (headerByte q 3) = true := by
  have h2 : (headerByte q 2).toNat = q.index.toNat := by
    show (q.index.setWidth 8).toNat = _
    rw [BitVec.toNat_setWidth]; omega
  have h3 : headerByte q 3 = 0#8 := rfl
  simp [headerWellFormed, h2, h3, h]

end Sys2Proof.Machine
end

