-- ==== Sys2Proof/Laws/Block.lean ====
section
/-! SUPPORT. What ENC and DEC of a whole block do: the cases of each command, the block an ENC codes, the frames a DEC
writes. -/

namespace Sys2Proof.Machine

/-! ## The cases of ENC -/

/-- How an ENC that goes on ends. -/
theorem execEnc_cases {n : Nat} {s t : State} (h : exec (.enc n) s = .next t) :
    (s.latch.cfgValid = false ∧ t = s.raise .notConfigured) ∨
    (s.latch.legal = true ∧ s.latch.spb < n ∧ t = s.raise .badLength) ∨
    (s.latch.legal = true ∧ n ≤ s.latch.spb ∧ t = s.encodeBlock n) := by
  simp only [exec, execEnc] at h
  cases hv : s.latch.cfgValid with
  | false => simp only [hv, Bool.not_false, if_true, Host.Outcome.next.injEq] at h; exact .inl ⟨rfl, h.symm⟩
  | true =>
    cases hl : s.latch.legal with
    | false => simp [hv, hl] at h
    | true =>
      simp only [hv, hl, Bool.not_true, Bool.false_eq_true, if_false] at h
      split at h
      · exact .inr (.inl ⟨rfl, ‹_›, (Host.Outcome.next.inj h).symm⟩)
      · exact .inr (.inr ⟨rfl, by omega, (Host.Outcome.next.inj h).symm⟩)

/-- An ENC whose operand is accepted encodes the block. -/
theorem execEnc_legal {n : Nat} {s : State} (h : s.latch.legal = true) (hn : n ≤ s.latch.spb) :
    exec (.enc n) s = .next (s.encodeBlock n) := by
  simp [exec, execEnc, h, Latch.legal_cfgValid h, Nat.not_lt.mpr hn]

/-- How a block ends. -/
theorem encodeBlock_cases (s : State) (n : Nat) :
    (n = 0 ∧ s.encodeBlock n = s.finish 0) ∨
    (1 ≤ n ∧ ∃ w, s.encodedBlock n = .ok w ∧
      s.encodeBlock n = { s with ctxValid := true, cs := w.cs, adpcm := w.adpcm }.finish w.written) ∨
    (1 ≤ n ∧ ∃ e, s.encodedBlock n = .error e ∧ s.encodeBlock n = (s.afterEncodeError n).raise e) := by
  unfold State.encodeBlock
  by_cases hn : n = 0
  · exact .inl ⟨hn, if_pos hn⟩
  · simp only [hn, if_false, false_and, false_or]
    cases h : s.encodedBlock n with
    | ok w => exact .inl ⟨by omega, w, rfl, rfl⟩
    | error e => exact .inr ⟨by omega, e, rfl, rfl⟩

/-! ## Block start -/

theorem startBanks_get {seed : Bool} {ch : Nat} (hch : ch = 1 ∨ ch = 2) (x : Channel → Nat → Int) (frames : Nat)
    (cs : PerChannel Chan) (c : Channel) : (startBanks seed ch x frames cs).get c =
      if c.toNat < ch then startBank seed (x c) frames (cs.get c) else cs.get c := by
  rcases hch with rfl | rfl <;> cases c <;> rfl

/-- The first frame of a channel's input is its own first entry of PCM. -/
theorem input_zero (s : State) (n : Nat) (c : Channel) : s.input n 0 c = (s.pcmAt c.toNat).toInt := by
  simp [State.input, pcmIndex]

theorem seedIndex_le (d : Nat) : seedIndex d ≤ 88 := by
  unfold seedIndex
  cases h : (List.range 88).find? fun i => d < midpoint i with
  | none => simp
  | some i =>
    have := List.mem_of_find?_eq_some h
    simp only [List.mem_range] at this
    simp only [Option.getD_some]; omega

theorem startBank_eq (s : State) (n : Nat) (c : Channel) :
    startBank (!s.ctxValid) (fun f => s.input n f c) (pad n) (s.cs.get c) = s.blockStart n c := by
  unfold startBank State.blockStart
  simp only [input_zero, BitVec.ofInt_toInt]
  cases s.ctxValid <;> rfl

/-- A block starts from a legal index if the bank holds one. -/
theorem blockStart_index_le {s : State} {n : Nat} {c : Channel} (h : (s.cs.get c).index.toNat ≤ 88) :
    (s.blockStart n c).index.toNat ≤ 88 := by
  show (if s.ctxValid then _ else BitVec.ofNat 7 (seedIndex _)).toNat ≤ 88
  split
  · exact h
  · have := seedIndex_le (initialDelta (fun f => s.input n f c) (pad n))
    rw [BitVec.toNat_ofNat]; omega

/-! ## The block -/

/-- What a coded block of `frames` frames holds and leaves, from the banks `start`. -/
structure BlockCoded (mode : NsMode) (ch frames : Nat) (x : Channel → Nat → Int) (start cs : PerChannel Chan)
    (adpcm : Memory) (w : EncodeWork) : Prop where
  banks : ∀ c, c.toNat < ch → bankAfter mode (x c) frames (start.get c) (frames - 1) = .ok (w.cs.get c)
  otherBanks : ∀ c, ¬ c.toNat < ch → w.cs.get c = cs.get c
  written : w.written = 4 * ch * (1 + (frames - 1) / 8)
  headers : ∀ epoch c k, c.toNat < ch → k < 4 →
    adpcmByte w.adpcm epoch (headerAddress c k) = headerByte (start.get c).toQuant k
  codes : ∀ epoch c f, c.toNat < ch → 1 ≤ f → f ≤ frames - 1 → chosenCode mode (x c) frames (start.get c) f =
    .ok (codeOfByte (adpcmByte w.adpcm epoch (codePlace ch f c).1) (codePlace ch f c).2)
  otherBytes : ∀ epoch a, 4 * ch * (1 + (frames - 1) / 8) ≤ a →
    adpcmByte w.adpcm epoch a = adpcmByte adpcm epoch a

theorem encodeChunks_coded {mode : NsMode} {ch frames : Nat} (hch : ch = 1 ∨ ch = 2)
    (hf : frames - 1 = 8 * ((frames - 1) / 8)) {x : Channel → Nat → Int} {seed : Bool} {cs : PerChannel Chan}
    {adpcm : Memory} {w : EncodeWork} (h : encodeChunks mode ch frames x seed cs adpcm = .ok w) :
    BlockCoded mode ch frames x (startBanks seed ch x frames cs) cs adpcm w := by
  unfold encodeChunks at h
  obtain ⟨e1, e2, e3, e4⟩ :=
    emitHeaders_spec { cs := startBanks seed ch x frames cs, adpcm := adpcm, written := 0 } hch
  simp only at h e1 e2 e3 e4
  generalize (channels ch).foldl emitHeader _ = v at h e1 e2 e3 e4
  obtain ⟨c1, c2, c3, c4, c5⟩ := chunks_encode hch _ h
  have hm : 4 * ch * (1 + (frames - 1) / 8) = 4 * ch + 4 * ch * ((frames - 1) / 8) := by
    rw [Nat.mul_add, Nat.mul_one]
  rw [e1] at c1 c4
  rw [← hf] at c1
  refine ⟨c1, fun c hc => ?_, by rw [c3, e2, hm]; omega, fun epoch c k hc hk => ?_,
    fun epoch c f hc h1 h2 => c4 epoch c f hc h1 (by omega), fun epoch a ha => ?_⟩
  · rw [c2 c hc, e1, startBanks_get hch, if_neg hc]
  · rw [c5 epoch _ (.inl (by simp only [headerAddress]; omega)), e3 epoch c k hc hk]
  · rw [c5 epoch a (.inr (by omega)), e4 epoch a (by rw [hm] at ha; omega)]

theorem encodeChunks_complete {mode : NsMode} {ch frames : Nat} (hch : ch = 1 ∨ ch = 2)
    (hf : frames - 1 = 8 * ((frames - 1) / 8)) {x : Channel → Nat → Int} {seed : Bool} {cs : PerChannel Chan}
    (adpcm : Memory)
    (h : ∀ c, c.toNat < ch →
      ∃ b, bankAfter mode (x c) frames ((startBanks seed ch x frames cs).get c) (frames - 1) = .ok b) :
    ∃ w, encodeChunks mode ch frames x seed cs adpcm = .ok w := by
  unfold encodeChunks
  obtain ⟨e1, -, -, -⟩ :=
    emitHeaders_spec { cs := startBanks seed ch x frames cs, adpcm := adpcm, written := 0 } hch
  simp only at e1
  refine chunks_complete hch _ fun c hc => ?_
  rw [e1, ← hf]
  exact h c hc

/-! ## Errors of the block -/

/-- Every error a computation raises is NUMERIC_RANGE. -/
def RangeOnly {α : Type} (m : Checked α) : Prop := ∀ e, m = .error e → e = .numericRange

theorem RangeOnly.ok {α : Type} (a : α) : RangeOnly (.ok a : Checked α) := fun _ h => by cases h

theorem RangeOnly.chk (v : Int) : RangeOnly (chk v) := fun _ h => chk_eq_error h

theorem RangeOnly.bind {α β : Type} {m : Checked α} {f : α → Checked β} (hm : RangeOnly m)
    (hf : ∀ a, RangeOnly (f a)) : RangeOnly (m >>= f) := by
  intro e h
  cases m with
  | ok a => exact hf a e h
  | error e' => exact hm e (by cases h; rfl)

theorem RangeOnly.foldlM {α β : Type} {f : β → α → Checked β} (hf : ∀ b a, RangeOnly (f b a)) (l : List α) (b : β) :
    RangeOnly (l.foldlM f b) := by
  induction l generalizing b with
  | nil => exact RangeOnly.ok b
  | cons a l ih => rw [List.foldlM_cons]; exact (hf b a).bind fun b' => ih b'

theorem greedy_rangeOnly (sample : Int) (index : Nat) (s : Int) : RangeOnly (greedy sample index s) := by
  refine (RangeOnly.chk _).bind fun d => ?_
  have hm : ∀ distance step, RangeOnly (greedyMagnitude distance step) := fun _ _ =>
    (RangeOnly.chk _).bind fun _ => RangeOnly.ok _
  split
  · exact (RangeOnly.chk _).bind fun _ => (hm _ _).bind fun _ => RangeOnly.ok _
  · exact (hm _ _).bind fun _ => RangeOnly.ok _

theorem search_rangeOnly (sample : Int) (index : Nat) (s : Int) (future : List Int) :
    RangeOnly (search sample index s future) := by
  induction future generalizing sample index s with
  | nil => exact (greedy_rangeOnly _ _ _).bind fun _ => RangeOnly.ok _
  | cons target future ih =>
    refine (greedy_rangeOnly _ _ _).bind fun g => (ih _ _ _).bind fun below =>
      RangeOnly.foldlM (fun best n => ?_) _ _
    unfold tryCode
    split
    · exact RangeOnly.ok _
    · simp only
      split
      · refine (ih _ _ _).bind fun below => ?_
        split <;> exact RangeOnly.ok _
      · exact RangeOnly.ok _

theorem shape_rangeOnly (mode : NsMode) (b : Chan) (s : Int) : RangeOnly (shape mode b s) := by
  cases mode with
  | off => exact RangeOnly.ok _
  | static => exact (RangeOnly.chk _).bind fun _ => (RangeOnly.chk _).bind fun _ => RangeOnly.ok _
  | dynamic =>
    refine RangeOnly.bind ((RangeOnly.chk _).bind fun _ => RangeOnly.ok _) fun sam => ?_
    refine RangeOnly.bind ((RangeOnly.chk _).bind fun _ => (RangeOnly.chk _).bind fun _ => RangeOnly.chk _)
      fun temp => ?_
    refine RangeOnly.bind ?_ fun weight => ?_
    · unfold adaptWeight
      split
      · split <;> exact RangeOnly.chk _
      · exact RangeOnly.ok _
    · refine RangeOnly.bind ?_ fun sw => ?_
      · unfold shapingGain
        split
        · exact RangeOnly.ok _
        · exact (RangeOnly.chk _).bind fun _ => RangeOnly.chk _
      · refine RangeOnly.bind ?_ fun fed => RangeOnly.ok _
        refine RangeOnly.bind ((RangeOnly.chk _).bind fun _ => (RangeOnly.chk _).bind fun _ => RangeOnly.ok _)
          fun t => ?_
        split <;> exact (RangeOnly.chk _).bind fun _ => (RangeOnly.chk _).bind fun _ => RangeOnly.ok _

theorem encodeFrame_rangeOnly (mode : NsMode) (x : Nat → Int) (frames : Nat) (b : Chan) (f : Nat) :
    RangeOnly (encodeFrame mode x frames b f) := by
  refine (shape_rangeOnly _ _ _).bind fun shaped => (search_rangeOnly _ _ _ _).bind fun found =>
    RangeOnly.bind ?_ fun _ => RangeOnly.ok _
  cases mode with
  | off => exact RangeOnly.ok _
  | static | dynamic => exact (RangeOnly.chk _).bind fun _ => RangeOnly.ok _

theorem encodeChunks_rangeOnly (mode : NsMode) (ch frames : Nat) (x : Channel → Nat → Int) (seed : Bool)
    (cs : PerChannel Chan) (adpcm : Memory) : RangeOnly (encodeChunks mode ch frames x seed cs adpcm) := by
  refine RangeOnly.foldlM (fun w p => ?_) _ _
  exact (encodeFrame_rangeOnly _ _ _ _ _).bind fun _ => (encodeFrame_rangeOnly _ _ _ _ _).bind fun _ =>
    RangeOnly.ok _

/-! ## ENC of a block -/

/-- The size of a block of `n ≥ 1` frames (46_block_arithmetic.md R245). -/
theorem blockBytes_pos {ch n : Nat} (hn : 1 ≤ n) : blockBytes ch n = 4 * ch * (1 + (pad n - 1) / 8) := by
  unfold blockBytes; rw [if_neg (by omega)]

/-- In a legal configuration every block of `1 .. SPB` frames fits (R248). -/
theorem blockBytes_le {l : Latch} (h : l.legal = true) {n : Nat} (hn : n ≤ l.spb) : blockBytes l.ch n ≤ l.bs := by
  obtain ⟨-, h2, -, h4, h5, h6, h7, -, -⟩ := (Latch.legal_iff _).mp h
  by_cases h0 : n = 0
  · unfold blockBytes; rw [if_pos h0]; omega
  · rw [blockBytes_pos (by omega)]
    unfold pad
    rcases h2 with h2 | h2 <;> rw [h2] at h7 ⊢
    · rw [samplesPerBlock_one] at h7; omega
    · rw [samplesPerBlock_two] at h7; omega

/-- The self-check of the output length never fails: an encoded block is what its chunk loop gives (R248). -/
theorem encodedBlock_ok {s : State} {n : Nat} (hl : s.latch.legal = true) (hn : 1 ≤ n) {w : EncodeWork} :
    s.encodedBlock n = .ok w ↔ encodeChunks s.latch.nsMode s.latch.ch (pad n) (fun c f => s.input n f c)
      (!s.ctxValid) s.cs s.adpcm = .ok w := by
  have hch := ((Latch.legal_iff _).mp hl).2.1
  simp only [State.encodedBlock, bind_eq_ok]
  constructor
  · rintro ⟨v, hv, h⟩
    unfold checkLength at h
    split at h
    · rw [hv]; exact h
    · cases h
  · intro h
    refine ⟨w, h, if_pos ?_⟩
    rw [(encodeChunks_coded hch (pad_sub_one n) h).written, blockBytes_pos hn]

/-- An encoded block that fails, fails with NUMERIC_RANGE. -/
theorem encodedBlock_error {s : State} {n : Nat} (hl : s.latch.legal = true) (hn : 1 ≤ n) {e : ErrCode}
    (h : s.encodedBlock n = .error e) : e = .numericRange ∧
    encodeChunks s.latch.nsMode s.latch.ch (pad n) (fun c f => s.input n f c) (!s.ctxValid) s.cs s.adpcm
      = .error .numericRange := by
  cases hw : encodeChunks s.latch.nsMode s.latch.ch (pad n) (fun c f => s.input n f c) (!s.ctxValid) s.cs s.adpcm with
  | ok w => rw [(encodedBlock_ok hl hn).mpr hw] at h; cases h
  | error e' =>
    have he := encodeChunks_rangeOnly _ _ _ _ _ _ _ _ hw
    subst he
    simp only [State.encodedBlock, hw] at h
    cases h
    exact ⟨rfl, rfl⟩

/-- What ENC of `n ≥ 1` frames holds and leaves when it succeeds, in the terms of one channel at a time. -/
theorem encodedBlock_coded {s : State} {n : Nat} (hl : s.latch.legal = true) (hn : 1 ≤ n) {w : EncodeWork}
    (h : s.encodedBlock n = .ok w) :
    BlockCoded s.latch.nsMode s.latch.ch (pad n) (fun c f => s.input n f c)
      (startBanks (!s.ctxValid) s.latch.ch (fun c f => s.input n f c) (pad n) s.cs) s.cs s.adpcm w :=
  encodeChunks_coded ((Latch.legal_iff _).mp hl).2.1 (pad_sub_one n) ((encodedBlock_ok hl hn).mp h)

/-- The start bank of a channel in use is `blockStart`. -/
theorem startBanks_blockStart {s : State} (hl : s.latch.legal = true) (n : Nat) {c : Channel}
    (hc : c.toNat < s.latch.ch) :
    (startBanks (!s.ctxValid) s.latch.ch (fun c f => s.input n f c) (pad n) s.cs).get c = s.blockStart n c := by
  rw [startBanks_get ((Latch.legal_iff _).mp hl).2.1, if_pos hc]
  exact startBank_eq s n c

/-- The block is encoded exactly if every channel's run reaches its end. -/
theorem encodedBlock_iff_runs {s : State} {n : Nat} (hl : s.latch.legal = true) (hn : 1 ≤ n) :
    (∃ w, s.encodedBlock n = .ok w) ↔ ∀ c, c.toNat < s.latch.ch → ∃ b, s.runAfter n c (pad n - 1) = .ok b := by
  constructor
  · rintro ⟨w, h⟩ c hc
    have := (encodedBlock_coded hl hn h).banks c hc
    rw [startBanks_blockStart hl n hc] at this
    exact ⟨_, this⟩
  · intro h
    obtain ⟨w, hw⟩ := encodeChunks_complete (mode := s.latch.nsMode) (seed := !s.ctxValid) (cs := s.cs)
      ((Latch.legal_iff _).mp hl).2.1 (pad_sub_one n) (x := fun c f => s.input n f c) s.adpcm fun c hc => by
        rw [startBanks_blockStart hl n hc]; exact h c hc
    exact ⟨w, (encodedBlock_ok hl hn).mpr hw⟩

/-- A run keeps the index in [0, 88] (10_state.md R22). -/
theorem bankAfter_index_le {mode : NsMode} {x : Nat → Int} {frames f : Nat} {start b : Chan}
    (h : bankAfter mode x frames start f = .ok b) (h0 : start.index.toNat ≤ 88) : b.index.toNat ≤ 88 := by
  cases f with
  | zero => simp only [bankAfter, Except.ok.injEq] at h; rw [← h]; exact h0
  | succ f =>
    simp only [bankAfter, bind_eq_ok, Except.ok.injEq] at h
    obtain ⟨b', -, r, hr, rfl⟩ := h
    rw [encodeSample_quant hr]; exact apply_index_le _ _

/-- The banks after a failed ENC: arbitrary in the channels in use, kept in the other (60_exceptions.md R305). -/
theorem freeBanks_get {ch count : Nat} (hch : ch = 1 ∨ ch = 2) (cs : PerChannel Chan) (c : Channel) :
    ((channels ch).foldl (fun cs c => cs.set c (freeBank count c.toNat)) cs).get c =
      if c.toNat < ch then freeBank count c.toNat else cs.get c := by
  rcases hch with rfl | rfl <;> cases c <;> rfl

theorem freeBank_index_le (count channel : Nat) : (freeBank count channel).index.toNat ≤ 88 := by
  show (BitVec.ofNat 7 _).toNat ≤ 88
  rw [BitVec.toNat_ofNat]
  have := (Config.freeIndex count channel).isLt
  omega

/-- Two bytes with the same two codes are the same. -/
theorem byte_eq_of_codes {a b : Byte} (h0 : codeOfByte a 0 = codeOfByte b 0)
    (h1 : codeOfByte a 1 = codeOfByte b 1) : a = b := by
  have pack : ∀ b : Byte, packCodes (codeOfByte b 0) (codeOfByte b 1) = b := by decide
  rw [← pack a, ← pack b, h0, h1]

/-! ## The form of the buffer an ENC writes -/

theorem mem_bytePositions {ch k : Nat} {p : Position} (h : p ∈ bytePositions ch k) :
    p.channel.toNat < ch ∧ p.chunk < k ∧ p.byte < 4 := by
  simp only [bytePositions, List.mem_flatMap, List.mem_map, List.mem_range] at h
  obtain ⟨a, ha, c, hc, b, hb, rfl⟩ := h
  exact ⟨mem_channels.mp hc, ha, hb⟩

/-- The block loop keeps the buffer's form, and writes inside the block only. -/
theorem encodeChunks_form {mode : NsMode} {ch frames size : Nat} (hch : ch = 1 ∨ ch = 2) {x : Channel → Nat → Int}
    {seed : Bool} {cs : PerChannel Chan} {adpcm : Memory} {w : EncodeWork}
    (hsize : 4 * ch * (1 + (frames - 1) / 8) ≤ size) (hw : Memory.wf adpcm) (hi : Memory.inside adpcm size)
    (h : encodeChunks mode ch frames x seed cs adpcm = .ok w) :
    Memory.wf w.adpcm ∧ Memory.inside w.adpcm size := by
  have hm : 4 * ch * (1 + (frames - 1) / 8) = 4 * ch + 4 * ch * ((frames - 1) / 8) := by
    rw [Nat.mul_add, Nat.mul_one]
  have header : ∀ (v : EncodeWork) (c : Channel), c.toNat < ch → Memory.wf v.adpcm ∧ Memory.inside v.adpcm size →
      Memory.wf (emitHeader v c).adpcm ∧ Memory.inside (emitHeader v c).adpcm size := by
    intro v c hc ⟨h1, h2⟩
    refine ⟨Memory.write_wf (Memory.write_wf (Memory.write_wf (Memory.write_wf h1 _ _) _ _) _ _) _ _,
      Memory.write_inside (Memory.write_inside (Memory.write_inside (Memory.write_inside h2 ?_ _) ?_ _) ?_ _) ?_ _⟩
      <;>
    · simp only [headerAddress]; omega
  have start : ∀ v : EncodeWork, Memory.wf v.adpcm ∧ Memory.inside v.adpcm size →
      Memory.wf ((channels ch).foldl emitHeader v).adpcm ∧
      Memory.inside ((channels ch).foldl emitHeader v).adpcm size := by
    intro v hv
    rcases hch with rfl | rfl
    · exact header v .left (by decide) hv
    · exact header _ .right (by decide) (header v .left (by decide) hv)
  have loop : ∀ (l : List Position) (v v' : EncodeWork),
      (∀ p ∈ l, p.channel.toNat < ch ∧ p.chunk < (frames - 1) / 8 ∧ p.byte < 4) →
      Memory.wf v.adpcm ∧ Memory.inside v.adpcm size → l.foldlM (encodeByte mode ch frames x) v = .ok v' →
      Memory.wf v'.adpcm ∧ Memory.inside v'.adpcm size := by
    intro l
    induction l with
    | nil =>
      intro v v' _ hv h
      simp only [List.foldlM_nil, pure, Except.pure, Except.ok.injEq] at h
      exact h ▸ hv
    | cons p l ih =>
      intro v v' hp hv h
      simp only [List.foldlM_cons, bind_eq_ok] at h
      obtain ⟨u, hu, h⟩ := h
      obtain ⟨lo, hi, -, -, rfl⟩ := encodeByte_eq_ok.mp hu
      obtain ⟨p1, p2, p3⟩ := hp p (by simp)
      refine ih _ _ (fun q hq => hp q (by simp [hq]))
        ⟨Memory.write_wf hv.1 _ _, Memory.write_inside hv.2 ?_ _⟩ h
      have : 4 * ch * (p.chunk + 1) ≤ 4 * ch * ((frames - 1) / 8) := Nat.mul_le_mul_left _ p2
      have h' : 4 * ch * (p.chunk + 1) = 4 * ch * p.chunk + 4 * ch := by rw [Nat.mul_add, Nat.mul_one]
      simp only [Position.address]; omega
  exact loop _ _ _ (fun p hp => mem_bytePositions hp) (start _ ⟨hw, hi⟩) h

/-! ## The cases of DEC -/

/-- How a DEC that goes on ends. -/
theorem execDec_cases {l : Nat} {s t : State} (h : exec (.dec l) s = .next t) :
    (s.latch.cfgValid = false ∧ t = s.raise .notConfigured) ∨
    (s.latch.legal = true ∧ s.latch.bs < l ∧ t = s.raise .badLength) ∨
    (s.latch.legal = true ∧ l ≤ s.latch.bs ∧ t = s.decodeBlock l) := by
  simp only [exec, execDec] at h
  cases hv : s.latch.cfgValid with
  | false => simp only [hv, Bool.not_false, if_true, Host.Outcome.next.injEq] at h; exact .inl ⟨rfl, h.symm⟩
  | true =>
    cases hl : s.latch.legal with
    | false => simp [hv, hl] at h
    | true =>
      simp only [hv, hl, Bool.not_true, Bool.false_eq_true, if_false] at h
      split at h
      · exact .inr (.inl ⟨rfl, ‹_›, (Host.Outcome.next.inj h).symm⟩)
      · exact .inr (.inr ⟨rfl, by omega, (Host.Outcome.next.inj h).symm⟩)

/-- A DEC whose operand is accepted decodes the block. -/
theorem execDec_legal {l : Nat} {s : State} (h : s.latch.legal = true) (hl : l ≤ s.latch.bs) :
    exec (.dec l) s = .next (s.decodeBlock l) := by
  simp [exec, execDec, h, Latch.legal_cfgValid h, Nat.not_lt.mpr hl]

/-- The headers of channels `0 .. CH-1` are well formed. -/
def headersOk (byte : Nat → Byte) (ch : Nat) : Prop :=
  ∀ c : Channel, c.toNat < ch → headerWellFormed (byte (headerAddress c 2)) (byte (headerAddress c 3)) = true

theorem parseHeaders_iff (byte : Nat → Byte) (ch : Nat) (dec : PerChannel Quant) :
    (parseHeaders byte (channels ch) dec).2 = true ↔ headersOk byte ch := by
  rw [parseHeaders_ok, List.all_eq_true]
  exact ⟨fun h c hc => h c (mem_channels.mpr hc), fun h c hc => h c (mem_channels.mp hc)⟩

/-- How a block ends: too short, malformed, or decoded. -/
theorem decodeBlock_cases (s : State) (l : Nat) :
    (l < 4 * s.latch.ch ∧ s.decodeBlock l = (s.afterDecodeError l).raise .truncatedInput) ∨
    (4 * s.latch.ch ≤ l ∧ ¬ headersOk s.adpcmAt s.latch.ch ∧ s.decodeBlock l =
      { s.afterDecodeError l with dec := (parseHeaders s.adpcmAt (channels s.latch.ch) s.dec).1 }.raise
        .malformedBlockHeader) ∨
    (4 * s.latch.ch ≤ l ∧ headersOk s.adpcmAt s.latch.ch ∧ s.decodeBlock l =
      { s with
        dec := (decodeChunks s.latch.ch l s.adpcmAt
          (parseHeaders s.adpcmAt (channels s.latch.ch) s.dec).1 s.pcm).dec
        pcm := (decodeChunks s.latch.ch l s.adpcmAt
          (parseHeaders s.adpcmAt (channels s.latch.ch) s.dec).1 s.pcm).pcm }.finish
        (frameCount s.latch.ch l)) := by
  unfold State.decodeBlock
  by_cases hl : l < 4 * s.latch.ch
  · exact .inl ⟨hl, if_pos hl⟩
  · refine .inr ?_
    simp only [hl, if_false]
    have hp := parseHeaders_iff s.adpcmAt s.latch.ch s.dec
    by_cases h : headersOk s.adpcmAt s.latch.ch
    · exact .inr ⟨by omega, h, if_pos (hp.mpr h)⟩
    · exact .inl ⟨by omega, h, if_neg fun hc => h (hp.mp hc)⟩

/-- Parsed headers: the working registers of the channels in use, the others kept. -/
theorem parseHeaders_get {byte : Nat → Byte} {ch : Nat} (hch : ch = 1 ∨ ch = 2) (h : headersOk byte ch)
    (dec : PerChannel Quant) (c : Channel) : (parseHeaders byte (channels ch) dec).1.get c =
      if c.toNat < ch then decodedQuant ch byte c 0 else dec.get c := by
  rcases hch with rfl | rfl
  · simp only [channels_one, parseHeaders, h .left (by decide), if_true]
    cases c <;> rfl
  · simp only [channels_two, parseHeaders, h .left (by decide), h .right (by decide), if_true]
    cases c <;> rfl

/-- A malformed header of one channel leaves the registers of a channel not in use alone. -/
theorem parseHeaders_other {byte : Nat → Byte} {ch : Nat} (hch : ch = 1 ∨ ch = 2) (dec : PerChannel Quant)
    {c : Channel} (hc : ch ≤ c.toNat) : (parseHeaders byte (channels ch) dec).1.get c = dec.get c := by
  have := c.toNat_lt
  rcases hch with rfl | rfl
  · cases c
    · exact absurd hc (by decide)
    · simp only [channels_one, parseHeaders]
      split <;> rfl
  · omega

/-- What a decoded block holds and leaves. -/
structure BlockDecoded (ch l : Nat) (byte : Nat → Byte) (dec : PerChannel Quant) (pcm : Memory) (w : DecodeWork) :
    Prop where
  registers : ∀ c, c.toNat < ch → w.dec.get c = decodedQuant ch byte c (8 * chunkCount ch l)
  otherRegisters : ∀ c, ¬ c.toNat < ch → w.dec.get c = dec.get c
  samples : ∀ epoch c f, c.toNat < ch → f ≤ 8 * chunkCount ch l →
    pcmEntry w.pcm epoch (pcmIndex ch f c) = (decodedQuant ch byte c f).sample
  otherEntries : ∀ epoch i, ch * frameCount ch l ≤ i → pcmEntry w.pcm epoch i = pcmEntry pcm epoch i

theorem decodeChunks_decoded {ch : Nat} (hch : ch = 1 ∨ ch = 2) (l : Nat) {byte : Nat → Byte} (h : headersOk byte ch)
    (dec : PerChannel Quant) (pcm : Memory) : BlockDecoded ch l byte dec pcm
      (decodeChunks ch l byte (parseHeaders byte (channels ch) dec).1 pcm) := by
  have hp := parseHeaders_get hch h dec
  generalize (parseHeaders byte (channels ch) dec).1 = d at hp
  have start : let w := (channels ch).foldl (emitSample ch 0) { dec := d, pcm := pcm }
      w.dec = d ∧
      (∀ epoch c, c.toNat < ch → pcmEntry w.pcm epoch (pcmIndex ch 0 c) = (d.get c).sample) ∧
      (∀ epoch i, ch ≤ i → pcmEntry w.pcm epoch i = pcmEntry pcm epoch i) := by
    rcases hch with rfl | rfl
    · refine ⟨rfl, fun epoch c hc => ?_, fun epoch i hi => ?_⟩
      · cases c
        · exact (pcmEntry_writePcmEntry _ _ _ _ _).trans (if_pos rfl)
        · exact absurd hc (by decide)
      · refine (pcmEntry_writePcmEntry _ _ _ _ _).trans (if_neg ?_)
        simp only [pcmIndex, Channel.toNat_left]; omega
    · refine ⟨rfl, fun epoch c hc => ?_, fun epoch i hi => ?_⟩
      · refine (pcmEntry_writePcmEntry _ _ _ _ _).trans ?_
        cases c
        · exact (if_neg (by decide)).trans ((pcmEntry_writePcmEntry _ _ _ _ _).trans (if_pos rfl))
        · exact if_pos rfl
      · refine (pcmEntry_writePcmEntry _ _ _ _ _).trans ((if_neg ?_).trans
          ((pcmEntry_writePcmEntry _ _ _ _ _).trans (if_neg ?_))) <;>
        · simp only [pcmIndex, Channel.toNat_left, Channel.toNat_right]; omega
  obtain ⟨s1, s2, s3⟩ := start
  unfold decodeChunks
  generalize (channels ch).foldl (emitSample ch 0) { dec := d, pcm := pcm } = w at s1 s2 s3
  obtain ⟨c1, c2, c3, c4⟩ := codes_decode ch hch byte w
    (fun c hc => by rw [s1, hp c, if_pos hc]) (chunkCount ch l)
  refine ⟨c1, fun c hc => ?_, fun epoch c f hc hf => ?_, fun epoch i hi => ?_⟩
  · rw [c2 c hc, s1, hp c, if_neg hc]
  · by_cases h0 : f = 0
    · subst f
      rw [c4 epoch _ fun d g hd hg _ he => by have := (pcmIndex_inj hc hd he).1; omega, s2 epoch c hc, hp c,
        if_pos hc]
    · exact c3 epoch c f hc (by omega) hf
  · have hfc : frameCount ch l = 1 + 8 * chunkCount ch l := rfl
    have hge : ch ≤ i := Nat.le_trans (by rw [hfc, Nat.mul_add, Nat.mul_one]; omega) hi
    rw [c4 epoch i fun c f hc h1 h2 he => ?_, s3 epoch i hge]
    have := pcmIndex_lt hc (show f < frameCount ch l by omega)
    rw [Nat.mul_comm] at this
    omega

/-- A channel's decoded frames depend on the bytes of the block only (R157). -/
theorem decodedQuant_congr {ch l : Nat} {b b' : Nat → Byte} (h : ∀ a, a < l → b a = b' a) (hl : 4 * ch ≤ l)
    {c : Channel} (hc : c.toNat < ch) {f : Nat} (hf : f ≤ 8 * chunkCount ch l) :
    decodedQuant ch b c f = decodedQuant ch b' c f := by
  induction f with
  | zero =>
    simp only [decodedQuant, headerAddress]
    rw [h _ (by omega), h _ (by omega), h _ (by omega)]
  | succ f ih =>
    simp only [decodedQuant, codeOfFrame]
    rw [ih (by omega), h]
    have h4 := (codePlace_before (k := chunkCount ch l) hc (show 1 ≤ f + 1 by omega) hf).2
    have h6 : 4 * ch * chunkCount ch l ≤ l - 4 * ch := Nat.mul_div_le _ _
    omega

/-- The block loop keeps PCM's form. -/
theorem decodeChunks_form {ch l entries : Nat} (hch : ch = 1 ∨ ch = 2) (byte : Nat → Byte) (dec : PerChannel Quant)
    {pcm : Memory} (hsize : ch * frameCount ch l ≤ entries) (hw : Memory.wf pcm)
    (hi : Memory.inside pcm (2 * entries)) :
    Memory.wf (decodeChunks ch l byte dec pcm).pcm ∧
    Memory.inside (decodeChunks ch l byte dec pcm).pcm (2 * entries) := by
  have hfc : frameCount ch l = 1 + 8 * chunkCount ch l := rfl
  have index : ∀ {c : Channel} {f : Nat}, c.toNat < ch → f < frameCount ch l → pcmIndex ch f c < entries :=
    fun hc hf => by have := pcmIndex_lt hc hf; rw [Nat.mul_comm] at this; omega
  have start : ∀ (w : DecodeWork), Memory.wf w.pcm ∧ Memory.inside w.pcm (2 * entries) →
      Memory.wf ((channels ch).foldl (emitSample ch 0) w).pcm ∧
      Memory.inside ((channels ch).foldl (emitSample ch 0) w).pcm (2 * entries) := by
    intro w ⟨h1, h2⟩
    rcases hch with rfl | rfl
    · exact ⟨writePcmEntry_wf h1 _ _, writePcmEntry_inside h2 (index (by decide) (by omega)) _⟩
    · exact ⟨writePcmEntry_wf (writePcmEntry_wf h1 _ _) _ _,
        writePcmEntry_inside (writePcmEntry_inside h2 (index (by decide) (by omega)) _)
          (index (by decide) (by omega)) _⟩
  have loop : ∀ (ps : List Position) (w : DecodeWork),
      (∀ p ∈ ps, p.channel.toNat < ch ∧ 1 ≤ p.frame ∧ p.frame ≤ 8 * chunkCount ch l) →
      Memory.wf w.pcm ∧ Memory.inside w.pcm (2 * entries) →
      Memory.wf (ps.foldl (decodeOne ch byte) w).pcm ∧
      Memory.inside (ps.foldl (decodeOne ch byte) w).pcm (2 * entries) := by
    intro ps
    induction ps with
    | nil => exact fun w _ h => h
    | cons p ps ih =>
      intro w hp hw
      obtain ⟨p1, -, p3⟩ := hp p (by simp)
      exact ih _ (fun q hq => hp q (by simp [hq]))
        ⟨decodeOne_wf ch byte hw.1 p, decodeOne_inside ch byte hw.2 (index p1 (by omega))⟩
  exact loop _ _ (fun p hp => mem_codePositions hp) (start _ ⟨hw, hi⟩)

/-- In a legal configuration the frames of every block fit the PCM buffer (20_memory.md R60). -/
theorem frames_fit {l : Latch} (h : l.legal = true) {n : Nat} (hn : n ≤ l.bs) :
    l.ch * frameCount l.ch n ≤ Config.pcmEntries := by
  obtain ⟨-, h2, -, h4, h5, h6, -, -, -⟩ := (Latch.legal_iff _).mp h
  show _ ≤ 65536
  unfold frameCount chunkCount
  rcases h2 with h2 | h2 <;> rw [h2] <;> omega

end Sys2Proof.Machine
end

