-- ==== Sys2Proof/Laws/PerInstr.lean ====
section
/-! SUPPORT. What holds of each instruction as syntax: its encoding is the one of its row of spec/opcode_table.json. -/

namespace Sys2Proof

/-- The number a command word stands for: LEN above RSV = 0 and OP (30_encoding.md R90, R95). -/
theorem commandWord_toNat (op : Nibble) (len : Nat) :
    (commandWord op len).toNat = len % 65536 * 65536 + op.toNat := by
  have hop := op.isLt
  have hlow : (0#12 ++ op : BitVec 16).toNat = op.toNat := by
    rw [BitVec.toNat_append]; simp
  have h : (0#12 ++ op : BitVec 16).toNat < 2 ^ 16 := by omega
  show (BitVec.ofNat 16 len ++ (0#12 ++ op : BitVec 16)).toNat = _
  rw [BitVec.toNat_append, ← Nat.shiftLeft_add_eq_or_of_lt h, Nat.shiftLeft_eq, BitVec.toNat_ofNat, hlow]

/-- The bits an encoding has under a mask of whole low bits: all four of a code (R81), the low `bits` of a command
word. -/
def Encoding.lowBits (e : Encoding) (bits : Nat) : Nat :=
  match e with
  | .code n => n.toNat % 2 ^ bits
  | .command w => w.toNat % 2 ^ bits

namespace Laws.EncodesItsRow

/-- The mask of an instruction's row, as its count of low bits: a code's 4, 32 where LEN must be 0, and 16 where it
is the operand (30_encoding.md R81, R91). -/
def maskBits : Instr → Nat
  | .cfg | .rsts => 32
  | .enc _ | .dec _ => 16
  | .p0 | .p1 | .p2 | .p3 | .p4 | .p5 | .p6 | .p7 => 4
  | .n0 | .n1 | .n2 | .n3 | .n4 | .n5 | .n6 | .n7 => 4

/-- The fixed bits of an instruction's row (R91, R97). -/
def matchBits : Instr → Nat
  | .p0 => 0x0 | .p1 => 0x1 | .p2 => 0x2 | .p3 => 0x3 | .p4 => 0x4 | .p5 => 0x5 | .p6 => 0x6 | .p7 => 0x7
  | .n0 => 0x8 | .n1 => 0x9 | .n2 => 0xA | .n3 => 0xB | .n4 => 0xC | .n5 => 0xD | .n6 => 0xE | .n7 => 0xF
  | .cfg => 0x00000001 | .enc _ => 0x0002 | .dec _ => 0x0003 | .rsts => 0x00000004

/-- A well-formed instruction's encoding has the fixed bits of its row. -/
def Statement (i : Instr) : Prop :=
  i.wellFormed = true → (encode i).lowBits (maskBits i) = matchBits i

theorem p0 : Statement .p0 := fun _ => rfl
theorem p1 : Statement .p1 := fun _ => rfl
theorem p2 : Statement .p2 := fun _ => rfl
theorem p3 : Statement .p3 := fun _ => rfl
theorem p4 : Statement .p4 := fun _ => rfl
theorem p5 : Statement .p5 := fun _ => rfl
theorem p6 : Statement .p6 := fun _ => rfl
theorem p7 : Statement .p7 := fun _ => rfl
theorem n0 : Statement .n0 := fun _ => rfl
theorem n1 : Statement .n1 := fun _ => rfl
theorem n2 : Statement .n2 := fun _ => rfl
theorem n3 : Statement .n3 := fun _ => rfl
theorem n4 : Statement .n4 := fun _ => rfl
theorem n5 : Statement .n5 := fun _ => rfl
theorem n6 : Statement .n6 := fun _ => rfl
theorem n7 : Statement .n7 := fun _ => rfl
theorem cfg : Statement .cfg := fun _ => rfl
theorem enc (n : Nat) : Statement (.enc n) := fun _ => by
  show (commandWord 0x2 n).toNat % 65536 = 0x2
  rw [commandWord_toNat]
  show (n % 65536 * 65536 + 2) % 65536 = 2
  omega
theorem dec (l : Nat) : Statement (.dec l) := fun _ => by
  show (commandWord 0x3 l).toNat % 65536 = 0x3
  rw [commandWord_toNat]
  show (l % 65536 * 65536 + 3) % 65536 = 3
  omega
theorem rsts : Statement .rsts := fun _ => rfl

end Laws.EncodesItsRow

end Sys2Proof
end

