-- ==== Sys2Proof/Laws/State.lean ====
section
/-! SUPPORT. One lemma per field per update of State, true by rfl, so that no later proof unfolds a record update. -/

namespace Sys2Proof.Machine.State

variable (s : State)

/-! ### `invalidateContext` -/

@[simp] theorem invalidateContext_config : s.invalidateContext.config = s.config := rfl
@[simp] theorem invalidateContext_blockSize : s.invalidateContext.blockSize = s.blockSize := rfl
@[simp] theorem invalidateContext_sampleRate : s.invalidateContext.sampleRate = s.sampleRate := rfl
@[simp] theorem invalidateContext_latch : s.invalidateContext.latch = s.latch := rfl
@[simp] theorem invalidateContext_ctxValid : s.invalidateContext.ctxValid = false := rfl
@[simp] theorem invalidateContext_cs : s.invalidateContext.cs = PerChannel.zeroBanks := rfl
@[simp] theorem invalidateContext_err : s.invalidateContext.err = s.err := rfl
@[simp] theorem invalidateContext_fault : s.invalidateContext.fault = s.fault := rfl
@[simp] theorem invalidateContext_result : s.invalidateContext.result = s.result := rfl
@[simp] theorem invalidateContext_dec : s.invalidateContext.dec = s.dec := rfl
@[simp] theorem invalidateContext_seq : s.invalidateContext.seq = s.seq := rfl
@[simp] theorem invalidateContext_pcm : s.invalidateContext.pcm = s.pcm := rfl
@[simp] theorem invalidateContext_adpcm : s.invalidateContext.adpcm = s.adpcm := rfl
@[simp] theorem invalidateContext_inbox : s.invalidateContext.inbox = s.inbox := rfl
@[simp] theorem invalidateContext_reads : s.invalidateContext.reads = s.reads := rfl
@[simp] theorem invalidateContext_freeCount : s.invalidateContext.freeCount = s.freeCount := rfl
@[simp] theorem invalidateContext_epoch : s.invalidateContext.epoch = s.epoch := rfl

/-! ### `finish` -/

@[simp] theorem finish_config (r : Nat) : (s.finish r).config = s.config := rfl
@[simp] theorem finish_blockSize (r : Nat) : (s.finish r).blockSize = s.blockSize := rfl
@[simp] theorem finish_sampleRate (r : Nat) : (s.finish r).sampleRate = s.sampleRate := rfl
@[simp] theorem finish_latch (r : Nat) : (s.finish r).latch = s.latch := rfl
@[simp] theorem finish_ctxValid (r : Nat) : (s.finish r).ctxValid = s.ctxValid := rfl
@[simp] theorem finish_cs (r : Nat) : (s.finish r).cs = s.cs := rfl
@[simp] theorem finish_err (r : Nat) : (s.finish r).err = .noError := rfl
@[simp] theorem finish_fault (r : Nat) : (s.finish r).fault = s.fault := rfl
@[simp] theorem finish_result (r : Nat) : (s.finish r).result = BitVec.ofNat 32 r := rfl
@[simp] theorem finish_dec (r : Nat) : (s.finish r).dec = s.dec := rfl
@[simp] theorem finish_seq (r : Nat) : (s.finish r).seq = Sequencer.idle := rfl
@[simp] theorem finish_pcm (r : Nat) : (s.finish r).pcm = s.pcm := rfl
@[simp] theorem finish_adpcm (r : Nat) : (s.finish r).adpcm = s.adpcm := rfl
@[simp] theorem finish_inbox (r : Nat) : (s.finish r).inbox = s.inbox := rfl
@[simp] theorem finish_reads (r : Nat) : (s.finish r).reads = s.reads := rfl
@[simp] theorem finish_freeCount (r : Nat) : (s.finish r).freeCount = s.freeCount := rfl
@[simp] theorem finish_epoch (r : Nat) : (s.finish r).epoch = s.epoch := rfl

/-! ### `raise` -/

@[simp] theorem raise_config (e : ErrCode) : (s.raise e).config = s.config := rfl
@[simp] theorem raise_blockSize (e : ErrCode) : (s.raise e).blockSize = s.blockSize := rfl
@[simp] theorem raise_sampleRate (e : ErrCode) : (s.raise e).sampleRate = s.sampleRate := rfl
@[simp] theorem raise_latch (e : ErrCode) : (s.raise e).latch = s.latch := rfl
@[simp] theorem raise_ctxValid (e : ErrCode) : (s.raise e).ctxValid = s.ctxValid := rfl
@[simp] theorem raise_cs (e : ErrCode) : (s.raise e).cs = s.cs := rfl
@[simp] theorem raise_err (e : ErrCode) : (s.raise e).err = e := rfl
@[simp] theorem raise_fault (e : ErrCode) : (s.raise e).fault = (s.fault || e.setsFault) := rfl
@[simp] theorem raise_result (e : ErrCode) : (s.raise e).result = 0 := rfl
@[simp] theorem raise_dec (e : ErrCode) : (s.raise e).dec = s.dec := rfl
@[simp] theorem raise_seq (e : ErrCode) : (s.raise e).seq = Sequencer.idle := rfl
@[simp] theorem raise_pcm (e : ErrCode) : (s.raise e).pcm = s.pcm := rfl
@[simp] theorem raise_adpcm (e : ErrCode) : (s.raise e).adpcm = s.adpcm := rfl
@[simp] theorem raise_inbox (e : ErrCode) : (s.raise e).inbox = s.inbox := rfl
@[simp] theorem raise_reads (e : ErrCode) : (s.raise e).reads = s.reads := rfl
@[simp] theorem raise_freeCount (e : ErrCode) : (s.raise e).freeCount = s.freeCount := rfl
@[simp] theorem raise_epoch (e : ErrCode) : (s.raise e).epoch = s.epoch := rfl

/-! ### `takeCode` -/

@[simp] theorem takeCode_config : s.takeCode.config = s.config := rfl
@[simp] theorem takeCode_blockSize : s.takeCode.blockSize = s.blockSize := rfl
@[simp] theorem takeCode_sampleRate : s.takeCode.sampleRate = s.sampleRate := rfl
@[simp] theorem takeCode_latch : s.takeCode.latch = s.latch := rfl
@[simp] theorem takeCode_ctxValid : s.takeCode.ctxValid = s.ctxValid := rfl
@[simp] theorem takeCode_cs : s.takeCode.cs = s.cs := rfl
@[simp] theorem takeCode_err : s.takeCode.err = s.err := rfl
@[simp] theorem takeCode_fault : s.takeCode.fault = s.fault := rfl
@[simp] theorem takeCode_result : s.takeCode.result = s.result := rfl
@[simp] theorem takeCode_dec : s.takeCode.dec = s.dec := rfl
@[simp] theorem takeCode_seq : s.takeCode.seq = { s.seq with code := none } := rfl
@[simp] theorem takeCode_pcm : s.takeCode.pcm = s.pcm := rfl
@[simp] theorem takeCode_adpcm : s.takeCode.adpcm = s.adpcm := rfl
@[simp] theorem takeCode_inbox : s.takeCode.inbox = s.inbox := rfl
@[simp] theorem takeCode_reads : s.takeCode.reads = s.reads := rfl
@[simp] theorem takeCode_freeCount : s.takeCode.freeCount = s.freeCount := rfl
@[simp] theorem takeCode_epoch : s.takeCode.epoch = s.epoch := rfl

/-! ### `takeAccess` -/

@[simp] theorem takeAccess_config (rest : List HostAccess) : (s.takeAccess rest).config = s.config := rfl
@[simp] theorem takeAccess_blockSize (rest : List HostAccess) : (s.takeAccess rest).blockSize = s.blockSize := rfl
@[simp] theorem takeAccess_sampleRate (rest : List HostAccess) : (s.takeAccess rest).sampleRate = s.sampleRate := rfl
@[simp] theorem takeAccess_latch (rest : List HostAccess) : (s.takeAccess rest).latch = s.latch := rfl
@[simp] theorem takeAccess_ctxValid (rest : List HostAccess) : (s.takeAccess rest).ctxValid = s.ctxValid := rfl
@[simp] theorem takeAccess_cs (rest : List HostAccess) : (s.takeAccess rest).cs = s.cs := rfl
@[simp] theorem takeAccess_err (rest : List HostAccess) : (s.takeAccess rest).err = s.err := rfl
@[simp] theorem takeAccess_fault (rest : List HostAccess) : (s.takeAccess rest).fault = s.fault := rfl
@[simp] theorem takeAccess_result (rest : List HostAccess) : (s.takeAccess rest).result = s.result := rfl
@[simp] theorem takeAccess_dec (rest : List HostAccess) : (s.takeAccess rest).dec = s.dec := rfl
@[simp] theorem takeAccess_seq (rest : List HostAccess) : (s.takeAccess rest).seq = s.seq := rfl
@[simp] theorem takeAccess_pcm (rest : List HostAccess) : (s.takeAccess rest).pcm = s.pcm := rfl
@[simp] theorem takeAccess_adpcm (rest : List HostAccess) : (s.takeAccess rest).adpcm = s.adpcm := rfl
@[simp] theorem takeAccess_inbox (rest : List HostAccess) : (s.takeAccess rest).inbox = rest := rfl
@[simp] theorem takeAccess_reads (rest : List HostAccess) : (s.takeAccess rest).reads = s.reads := rfl
@[simp] theorem takeAccess_freeCount (rest : List HostAccess) : (s.takeAccess rest).freeCount = s.freeCount := rfl
@[simp] theorem takeAccess_epoch (rest : List HostAccess) : (s.takeAccess rest).epoch = s.epoch := rfl

/-! ### `afterEncodeError` -/

@[simp] theorem afterEncodeError_config (n : Nat) : (s.afterEncodeError n).config = s.config := rfl
@[simp] theorem afterEncodeError_blockSize (n : Nat) : (s.afterEncodeError n).blockSize = s.blockSize := rfl
@[simp] theorem afterEncodeError_sampleRate (n : Nat) : (s.afterEncodeError n).sampleRate = s.sampleRate := rfl
@[simp] theorem afterEncodeError_latch (n : Nat) : (s.afterEncodeError n).latch = s.latch := rfl
@[simp] theorem afterEncodeError_ctxValid (n : Nat) : (s.afterEncodeError n).ctxValid = true := rfl
@[simp] theorem afterEncodeError_cs (n : Nat) :
    (s.afterEncodeError n).cs =
      (channels s.latch.ch).foldl (fun cs c => cs.set c (freeBank s.freeCount c.toNat)) s.cs := rfl
@[simp] theorem afterEncodeError_err (n : Nat) : (s.afterEncodeError n).err = s.err := rfl
@[simp] theorem afterEncodeError_fault (n : Nat) : (s.afterEncodeError n).fault = s.fault := rfl
@[simp] theorem afterEncodeError_result (n : Nat) : (s.afterEncodeError n).result = s.result := rfl
@[simp] theorem afterEncodeError_dec (n : Nat) : (s.afterEncodeError n).dec = s.dec := rfl
@[simp] theorem afterEncodeError_seq (n : Nat) : (s.afterEncodeError n).seq = s.seq := rfl
@[simp] theorem afterEncodeError_pcm (n : Nat) : (s.afterEncodeError n).pcm = s.pcm := rfl
@[simp] theorem afterEncodeError_adpcm (n : Nat) :
    (s.afterEncodeError n).adpcm =
      writePrefix (Config.freeAdpcm s.freeCount) s.adpcm (blockBytes s.latch.ch n) := rfl
@[simp] theorem afterEncodeError_inbox (n : Nat) : (s.afterEncodeError n).inbox = s.inbox := rfl
@[simp] theorem afterEncodeError_reads (n : Nat) : (s.afterEncodeError n).reads = s.reads := rfl
@[simp] theorem afterEncodeError_freeCount (n : Nat) : (s.afterEncodeError n).freeCount = s.freeCount + 1 := rfl
@[simp] theorem afterEncodeError_epoch (n : Nat) : (s.afterEncodeError n).epoch = s.epoch := rfl

/-! ### `afterDecodeError` -/

@[simp] theorem afterDecodeError_config (l : Nat) : (s.afterDecodeError l).config = s.config := rfl
@[simp] theorem afterDecodeError_blockSize (l : Nat) : (s.afterDecodeError l).blockSize = s.blockSize := rfl
@[simp] theorem afterDecodeError_sampleRate (l : Nat) : (s.afterDecodeError l).sampleRate = s.sampleRate := rfl
@[simp] theorem afterDecodeError_latch (l : Nat) : (s.afterDecodeError l).latch = s.latch := rfl
@[simp] theorem afterDecodeError_ctxValid (l : Nat) : (s.afterDecodeError l).ctxValid = s.ctxValid := rfl
@[simp] theorem afterDecodeError_cs (l : Nat) : (s.afterDecodeError l).cs = s.cs := rfl
@[simp] theorem afterDecodeError_err (l : Nat) : (s.afterDecodeError l).err = s.err := rfl
@[simp] theorem afterDecodeError_fault (l : Nat) : (s.afterDecodeError l).fault = s.fault := rfl
@[simp] theorem afterDecodeError_result (l : Nat) : (s.afterDecodeError l).result = s.result := rfl
@[simp] theorem afterDecodeError_dec (l : Nat) : (s.afterDecodeError l).dec = s.dec := rfl
@[simp] theorem afterDecodeError_seq (l : Nat) : (s.afterDecodeError l).seq = s.seq := rfl
@[simp] theorem afterDecodeError_pcm (l : Nat) :
    (s.afterDecodeError l).pcm =
      writePcmPrefix (Config.freePcm s.freeCount) s.pcm (s.latch.ch * frameCount s.latch.ch l) := rfl
@[simp] theorem afterDecodeError_adpcm (l : Nat) : (s.afterDecodeError l).adpcm = s.adpcm := rfl
@[simp] theorem afterDecodeError_inbox (l : Nat) : (s.afterDecodeError l).inbox = s.inbox := rfl
@[simp] theorem afterDecodeError_reads (l : Nat) : (s.afterDecodeError l).reads = s.reads := rfl
@[simp] theorem afterDecodeError_freeCount (l : Nat) : (s.afterDecodeError l).freeCount = s.freeCount + 1 := rfl
@[simp] theorem afterDecodeError_epoch (l : Nat) : (s.afterDecodeError l).epoch = s.epoch := rfl

/-! ### `hardwareReset` -/

@[simp] theorem hardwareReset_config : s.hardwareReset.config = State.reset.config := rfl
@[simp] theorem hardwareReset_blockSize : s.hardwareReset.blockSize = State.reset.blockSize := rfl
@[simp] theorem hardwareReset_sampleRate : s.hardwareReset.sampleRate = State.reset.sampleRate := rfl
@[simp] theorem hardwareReset_latch : s.hardwareReset.latch = State.reset.latch := rfl
@[simp] theorem hardwareReset_ctxValid : s.hardwareReset.ctxValid = State.reset.ctxValid := rfl
@[simp] theorem hardwareReset_cs : s.hardwareReset.cs = State.reset.cs := rfl
@[simp] theorem hardwareReset_err : s.hardwareReset.err = State.reset.err := rfl
@[simp] theorem hardwareReset_fault : s.hardwareReset.fault = State.reset.fault := rfl
@[simp] theorem hardwareReset_result : s.hardwareReset.result = State.reset.result := rfl
@[simp] theorem hardwareReset_dec : s.hardwareReset.dec = State.reset.dec := rfl
@[simp] theorem hardwareReset_seq : s.hardwareReset.seq = State.reset.seq := rfl
@[simp] theorem hardwareReset_pcm : s.hardwareReset.pcm = State.reset.pcm := rfl
@[simp] theorem hardwareReset_adpcm : s.hardwareReset.adpcm = State.reset.adpcm := rfl
@[simp] theorem hardwareReset_inbox : s.hardwareReset.inbox = s.inbox := rfl
@[simp] theorem hardwareReset_reads : s.hardwareReset.reads = s.reads := rfl
@[simp] theorem hardwareReset_freeCount : s.hardwareReset.freeCount = s.freeCount := rfl
@[simp] theorem hardwareReset_epoch : s.hardwareReset.epoch = s.epoch + 1 := rfl

/-! ### `setSelectedQuant`: only the sample and the index of the selected channel state -/

@[simp] theorem setSelectedQuant_config (q : Quant) : (s.setSelectedQuant q).config = s.config := by
  unfold setSelectedQuant; split <;> rfl
@[simp] theorem setSelectedQuant_blockSize (q : Quant) : (s.setSelectedQuant q).blockSize = s.blockSize := by
  unfold setSelectedQuant; split <;> rfl
@[simp] theorem setSelectedQuant_sampleRate (q : Quant) : (s.setSelectedQuant q).sampleRate = s.sampleRate := by
  unfold setSelectedQuant; split <;> rfl
@[simp] theorem setSelectedQuant_latch (q : Quant) : (s.setSelectedQuant q).latch = s.latch := by
  unfold setSelectedQuant; split <;> rfl
@[simp] theorem setSelectedQuant_ctxValid (q : Quant) : (s.setSelectedQuant q).ctxValid = s.ctxValid := by
  unfold setSelectedQuant; split <;> rfl
@[simp] theorem setSelectedQuant_err (q : Quant) : (s.setSelectedQuant q).err = s.err := by
  unfold setSelectedQuant; split <;> rfl
@[simp] theorem setSelectedQuant_fault (q : Quant) : (s.setSelectedQuant q).fault = s.fault := by
  unfold setSelectedQuant; split <;> rfl
@[simp] theorem setSelectedQuant_result (q : Quant) : (s.setSelectedQuant q).result = s.result := by
  unfold setSelectedQuant; split <;> rfl
@[simp] theorem setSelectedQuant_seq (q : Quant) : (s.setSelectedQuant q).seq = s.seq := by
  unfold setSelectedQuant; split <;> rfl
@[simp] theorem setSelectedQuant_pcm (q : Quant) : (s.setSelectedQuant q).pcm = s.pcm := by
  unfold setSelectedQuant; split <;> rfl
@[simp] theorem setSelectedQuant_adpcm (q : Quant) : (s.setSelectedQuant q).adpcm = s.adpcm := by
  unfold setSelectedQuant; split <;> rfl
@[simp] theorem setSelectedQuant_inbox (q : Quant) : (s.setSelectedQuant q).inbox = s.inbox := by
  unfold setSelectedQuant; split <;> rfl
@[simp] theorem setSelectedQuant_reads (q : Quant) : (s.setSelectedQuant q).reads = s.reads := by
  unfold setSelectedQuant; split <;> rfl
@[simp] theorem setSelectedQuant_freeCount (q : Quant) : (s.setSelectedQuant q).freeCount = s.freeCount := by
  unfold setSelectedQuant; split <;> rfl
@[simp] theorem setSelectedQuant_epoch (q : Quant) : (s.setSelectedQuant q).epoch = s.epoch := by
  unfold setSelectedQuant; split <;> rfl

/-- On the encoder's side a code rewrites the selected bank's sample and index and keeps its shaping fields. -/
theorem setSelectedQuant_cs (q : Quant) : (s.setSelectedQuant q).cs =
    match s.seq.engine with
    | .encoder => s.cs.set s.seq.pos.channel { s.cs.get s.seq.pos.channel with toQuant := q }
    | .decoder => s.cs := by
  unfold setSelectedQuant; split <;> simp_all

/-- On the decoder's side a code rewrites the selected working registers. -/
theorem setSelectedQuant_dec (q : Quant) : (s.setSelectedQuant q).dec =
    match s.seq.engine with
    | .encoder => s.dec
    | .decoder => s.dec.set s.seq.pos.channel q := by
  unfold setSelectedQuant; split <;> simp_all

end Sys2Proof.Machine.State
end

