-- ==== Sys2Proof/Laws/Words.lean ====
section
/-! SUPPORT. The fields of a command word as numbers, and the word a field's value comes from. -/

namespace Sys2Proof

theorem opField_toNat (w : Word) : (opField w).toNat = w.toNat % 16 := by
  simp [opField, BitVec.extractLsb'_toNat]

theorem rsvField_toNat (w : Word) : (rsvField w).toNat = w.toNat / 16 % 4096 := by
  simp [rsvField, BitVec.extractLsb'_toNat, Nat.shiftRight_eq_div_pow]

theorem lenField_eq (w : Word) : lenField w = w.toNat / 65536 := by
  have := w.isLt
  simp only [lenField, BitVec.extractLsb'_toNat, Nat.shiftRight_eq_div_pow]; omega

/-- The fields of a command word made from its fields. -/
theorem fields_commandWord (op : Nibble) {n : Nat} (hn : n < 65536) :
    rsvField (commandWord op n) = 0#12 ∧ opField (commandWord op n) = op ∧ lenField (commandWord op n) = n := by
  have ho := op.isLt
  have h := commandWord_toNat op n
  refine ⟨BitVec.eq_of_toNat_eq ?_, BitVec.eq_of_toNat_eq ?_, ?_⟩
  · rw [rsvField_toNat, h]; simp; omega
  · rw [opField_toNat, h]; omega
  · rw [lenField_eq, h]; omega

/-- A word whose RSV is 0 is made from its fields. -/
theorem commandWord_fields {w : Word} (hr : rsvField w = 0#12) : commandWord (opField w) (lenField w) = w := by
  have hw := w.isLt
  have h1 := opField_toNat w
  have h2 := rsvField_toNat w
  have h3 := lenField_eq w
  rw [hr] at h2
  simp at h2
  apply BitVec.eq_of_toNat_eq
  rw [commandWord_toNat]; omega

/-- A word decodes only to a command. -/
theorem decodeCommand_ok {w : Word} {i : Instr} (h : decode (.command w) = .ok i) :
    i = .cfg ∨ i = .rsts ∨ (∃ n, i = .enc n) ∨ ∃ l, i = .dec l := by
  simp only [decode, decodeCommand] at h
  repeat' split at h
  all_goals cases h
  all_goals simp

end Sys2Proof
end

