-- ==== Sys2Proof/Laws/Step.lean ====
section
/-! SUPPORT. What one step can do, said once; the cases of CFG; what a code does. -/

namespace Sys2Proof.Machine

/-! ## Codes -/

/-- A code goes on, and applies itself to the selected channel state. -/
theorem exec_code {i : Instr} (h : isCommand i = false) (s : State) :
    ∃ n, exec i s = .next (s.applySelected n) := by
  cases i <;> first | exact ⟨_, rfl⟩ | cases h

@[simp] theorem selectedQuant_setSelectedQuant (s : State) (q : Quant) :
    (s.setSelectedQuant q).selectedQuant = q := by
  unfold State.setSelectedQuant State.selectedQuant
  cases h : s.seq.engine <;> simp [h]

/-! ## CFG -/

/-- CFG with register values it accepts, and with others. -/
theorem execCfg_cases (s : State) :
    (∃ l, checkConfig s.config s.blockSize s.sampleRate = .ok l ∧ exec .cfg s =
      .next ({ s.invalidateContext with latch := l }.finish 0)) ∨
    (∃ e, checkConfig s.config s.blockSize s.sampleRate = .error e ∧ exec .cfg s =
      .next ({ s.invalidateContext with latch := Latch.invalid }.raise .configurationError)) := by
  simp only [exec, execCfg, State.invalidateContext_config, State.invalidateContext_blockSize,
    State.invalidateContext_sampleRate]
  cases h : checkConfig s.config s.blockSize s.sampleRate with
  | ok l => exact .inl ⟨l, rfl, rfl⟩
  | error e => exact .inr ⟨e, rfl, rfl⟩

/-- CONFIG's fields as numbers (10_state.md R27). -/
theorem configChannels_eq (w : Word) : configChannels w = w.toNat % 4 := by
  simp [configChannels, BitVec.extractLsb'_toNat]

theorem configReserved_eq_zero (w : Word) : configReserved w = 0#29 ↔ w.toNat / 8 = 0 := by
  have := w.isLt
  rw [← BitVec.toNat_inj]
  simp only [configReserved, BitVec.extractLsb'_toNat, Nat.shiftRight_eq_div_pow, BitVec.toNat_ofNat]; omega

theorem configNsEn_eq (w : Word) : configNsEn w = !decide (w.toNat / 4 % 2 = 0) := by
  simp only [configNsEn, BitVec.getLsbD, Nat.testBit, Nat.shiftRight_eq_div_pow]
  rw [Nat.and_comm, Nat.and_one_is_mod]
  rfl

/-- The block size in force, as the rule lists the cases. -/
theorem effectiveBlockSize_eq_ok {ch rate bsr bs : Nat} : effectiveBlockSize ch rate bsr = .ok bs ↔
    (bsr = 0 ∧ bs = autoBlockSize ch rate ∧ bs ≤ 32768) ∨ (bsr = bs ∧ bs ∈ explicitBlockSizes) := by
  unfold effectiveBlockSize
  by_cases h0 : bsr = 0
  · have hno : ¬ (bsr = bs ∧ bs ∈ explicitBlockSizes) := by
      rintro ⟨rfl, h⟩; rw [h0] at h; revert h; decide
    rw [if_pos h0]
    simp only [h0, true_and]
    rw [h0] at hno
    split <;> simp only [reduceCtorEq, Except.ok.injEq, false_iff]
    · rintro (⟨rfl, h⟩ | h)
      · omega
      · exact absurd h hno
    · constructor
      · rintro rfl; exact .inl ⟨rfl, by omega⟩
      · rintro (⟨rfl, -⟩ | h)
        · rfl
        · exact absurd h hno
  · rw [if_neg h0]
    split
    · rename_i hm
      simp only [Except.ok.injEq, h0, false_and, false_or]
      exact ⟨fun h => ⟨h, h ▸ hm⟩, fun h => h.1⟩
    · rename_i hm
      simp only [reduceCtorEq, h0, false_and, false_or, false_iff]
      rintro ⟨rfl, h⟩; exact hm h

/-! ## One step -/

/-- Everything a step that goes on can have done. -/
inductive StepCase (s t : State) : Prop where
  /-- A waiting code ran. -/
  | code (n : Nibble) (h : s.seq.code = some n) (ht : exec (decodeCode n) s.takeCode = .next t)
  /-- Nothing was waiting. -/
  | idle (h : s.seq.code = none) (hi : s.inbox = []) (ht : t = s)
  /-- A command ran. -/
  | command (h : s.seq.code = none) (w : Word) (rest : List HostAccess) (i : Instr)
      (hi : s.inbox = HostAccess.writeReg .command w :: rest) (hd : decode (.command w) = .ok i)
      (ht : exec i (s.takeAccess rest) = .next t)
  /-- An illegal word was rejected. -/
  | illegal (h : s.seq.code = none) (w : Word) (rest : List HostAccess)
      (hi : s.inbox = HostAccess.writeReg .command w :: rest) (ht : t = (s.takeAccess rest).raise .illegalCommand)
      (hd : ∃ e, decode (.command w) = .error e)
  /-- The host wrote. -/
  | write (h : s.seq.code = none) (space : Space) (off bytes : Nat) (v : Word) (rest : List HostAccess)
      (hi : s.inbox = .write space off bytes v :: rest) (ha : space.admits off bytes = true)
      (hw : HostAccess.commandWord? (.write space off bytes v) = none)
      (ht : t = (s.takeAccess rest).writeAt space off v)
  /-- The host read. -/
  | read (h : s.seq.code = none) (space : Space) (off bytes : Nat) (rest : List HostAccess)
      (hi : s.inbox = .read space off bytes :: rest) (ha : space.admits off bytes = true)
      (ht : t = { s.takeAccess rest with reads := s.readAt space off :: s.reads })
  /-- Hardware reset was asserted. -/
  | reset (h : s.seq.code = none) (rest : List HostAccess) (hi : s.inbox = .hardwareReset :: rest)
      (ht : t = (s.takeAccess rest).hardwareReset)

/-- Only a write to COMMAND carries a command word. -/
theorem commandWord_eq_some {a : HostAccess} {w : Word} (h : a.commandWord? = some w) :
    a = HostAccess.writeReg .command w := by
  cases a with
  | write space off bytes v =>
    cases space with
    | regs =>
      simp only [HostAccess.commandWord?] at h
      split at h
      · rename_i hc
        obtain ⟨rfl, rfl⟩ := hc
        simp only [Option.some.injEq] at h
        subst v; rfl
      · cases h
    | pcm | adpcm => cases h
  | read => cases h
  | hardwareReset => cases h

theorem step_cases {s t : State} (h : step s = .next t) : StepCase s t := by
  unfold step State.pending at h
  cases hc : s.seq.code with
  | some n => rw [hc] at h; exact .code n hc h
  | none =>
    rw [hc] at h
    cases hi : s.inbox with
    | nil => rw [hi] at h; exact .idle hc hi (Host.Outcome.next.inj h).symm
    | cons a rest =>
      rw [hi] at h
      simp only at h
      cases hw : a.commandWord? with
      | some w =>
        rw [hw] at h
        have ha := commandWord_eq_some hw
        subst ha
        simp only [runCommand] at h
        cases hd : decode (.command w) with
        | ok i => rw [hd] at h; exact .command hc w rest i hi hd h
        | error e => rw [hd] at h; exact .illegal hc w rest hi (Host.Outcome.next.inj h).symm ⟨e, hd⟩
      | none =>
        rw [hw] at h
        cases a with
        | write space off bytes v =>
          simp only [State.perform] at h
          split at h
          · exact .write hc space off bytes v rest hi ‹_› hw (Host.Outcome.next.inj h).symm
          · cases h
        | read space off bytes =>
          simp only [State.perform] at h
          split at h
          · exact .read hc space off bytes rest hi ‹_› (Host.Outcome.next.inj h).symm
          · cases h
        | hardwareReset => exact .reset hc rest hi (Host.Outcome.next.inj h).symm

/-- The accesses the interface admits, as the rule lists them (20_memory.md R66). -/
theorem admits_iff (space : Space) (off bytes : Nat) : space.admits off bytes = true ↔
    (match space with
      | .regs => bytes = 4 ∧ off % 4 = 0 ∧ off < 128
      | .pcm => bytes = 2 ∧ off % 2 = 0 ∧ off / 2 < 65536
      | .adpcm => bytes = 1 ∧ off < 32768) := by
  cases space <;> simp only [Space.admits, Bool.and_eq_true, beq_iff_eq, decide_eq_true_eq] <;>
    simp only [Config.registerSpaceBytes, Config.pcmEntries, Config.adpcmBytes] <;> omega

/-- A host write outside the buffers changes a host-writable register or nothing. -/
theorem writeAt_regs_cases (s : State) (off : Nat) (v : Word) :
    s.writeAt .regs off v = { s with config := v } ∨ s.writeAt .regs off v = { s with blockSize := v } ∨
    s.writeAt .regs off v = { s with sampleRate := v } ∨ s.writeAt .regs off v = s := by
  simp only [State.writeAt]
  split
  · rename_i r _
    cases r <;> simp [State.writeRegister]
  · simp

end Sys2Proof.Machine
end

