-- ==== Sys2Proof/Laws/Program.lean ====
section
/-! SUPPORT. Host programs: what a step does to the settings and to the queue, and that a statement put into the queue
expands for the configuration in force when it is reached. -/

namespace Sys2Proof.Machine

@[simp] theorem submit_settings (s : State) (p : Statement) : (s.submit p).settings = s.settings := rfl
@[simp] theorem submit_seq (s : State) (p : Statement) : (s.submit p).seq = s.seq := rfl
@[simp] theorem submit_inbox (s : State) (p : Statement) :
    (s.submit p).inbox = s.inbox ++ p.accesses s.settingsAhead.latch := rfl

@[simp] theorem takeAccess_settings (s : State) (rest : List HostAccess) : (s.takeAccess rest).settings = s.settings := rfl
@[simp] theorem raise_settings (s : State) (e : ErrCode) : (s.raise e).settings = s.settings := rfl
@[simp] theorem finish_settings (s : State) (r : Nat) : (s.finish r).settings = s.settings := rfl

@[simp] theorem commandWord?_writeReg (w : Word) : (HostAccess.writeReg .command w).commandWord? = some w := rfl

/-- CFG has one word. -/
theorem decode_cfg_iff {w : Word} : decode (.command w) = .ok .cfg ↔ w = commandWord 0x1#4 0 := by
  constructor
  · intro h
    simp only [decode, decodeCommand] at h
    repeat' split at h
    all_goals cases h
    rename_i hr ho hl
    rw [← commandWord_fields (Decidable.not_not.mp hr), ho, hl]
  · rintro rfl; rfl

/-- CFG latches what its registers say, and reads the queue no further. -/
theorem execCfg_settings (s : State) : ∃ t, exec .cfg s = .next t ∧
    t.settings = { s.settings with latch := latchedBy s.config s.blockSize s.sampleRate } ∧
    t.inbox = s.inbox ∧ t.seq = Sequencer.idle := by
  unfold latchedBy
  rcases execCfg_cases s with ⟨l, hl, h⟩ | ⟨e, hl, h⟩ <;> rw [hl] <;> exact ⟨_, h, rfl, rfl, rfl⟩

/-- No other command touches the settings or the queue, and each leaves the sequencer idle. -/
theorem command_settings {i : Instr} {s t : State} (hi : isCommand i = true) (hc : i ≠ .cfg) (h : exec i s = .next t) :
    t.settings = s.settings ∧ t.inbox = s.inbox ∧ t.seq = Sequencer.idle := by
  cases i <;> cases hi
  · exact absurd rfl hc
  · rcases execEnc_cases h with ⟨-, rfl⟩ | ⟨-, -, rfl⟩ | ⟨-, -, rfl⟩
    · exact ⟨rfl, rfl, rfl⟩
    · exact ⟨rfl, rfl, rfl⟩
    · rcases encodeBlock_cases s _ with ⟨-, h⟩ | ⟨-, w, -, h⟩ | ⟨-, e, -, h⟩ <;> rw [h] <;> exact ⟨rfl, rfl, rfl⟩
  · rcases execDec_cases h with ⟨-, rfl⟩ | ⟨-, -, rfl⟩ | ⟨-, -, rfl⟩
    · exact ⟨rfl, rfl, rfl⟩
    · exact ⟨rfl, rfl, rfl⟩
    · rcases decodeBlock_cases s _ with ⟨-, h⟩ | ⟨-, -, h⟩ | ⟨-, -, h⟩ <;> rw [h] <;> exact ⟨rfl, rfl, rfl⟩
  · cases h; exact ⟨rfl, rfl, rfl⟩

/-- A register write, on the settings. -/
theorem writeAt_settings (s : State) (off : Nat) (v : Word) :
    (s.writeAt .regs off v).settings = s.settings.write v (registerAt off) ∧
    (s.writeAt .regs off v).inbox = s.inbox ∧ (s.writeAt .regs off v).seq = s.seq := by
  simp only [State.writeAt]
  split
  · rename_i r h; rw [h]; cases r <;> exact ⟨rfl, rfl, rfl⟩
  · rename_i h; rw [h]; exact ⟨rfl, rfl, rfl⟩

/-- One access of the host: it leaves the queue, the settings become those after it, and no code waits. -/
theorem step_settings {s t : State} {a : HostAccess} {rest : List HostAccess} (hc : s.seq.code = none)
    (hi : s.inbox = a :: rest) (h : step s = .next t) :
    t.settings = s.settings.after a ∧ t.inbox = rest ∧ t.seq.code = none := by
  cases step_cases h with
  | code n h' _ => rw [hc] at h'; cases h'
  | idle _ h' _ => rw [hi] at h'; cases h'
  | command _ w r i h' hd ht =>
    rw [hi] at h'; cases h'
    simp only [Settings.after, commandWord?_writeReg]
    by_cases hw : w = commandWord 0x1#4 0
    · have := decode_cfg_iff.mpr hw
      rw [hd, Except.ok.injEq] at this
      subst this
      obtain ⟨u, hu, h1, h2, h3⟩ := execCfg_settings (s.takeAccess rest)
      rw [hu] at ht; cases ht
      rw [if_pos hw, h1, h2, h3]; exact ⟨rfl, rfl, rfl⟩
    · have hne : i ≠ .cfg := fun h => hw (decode_cfg_iff.mp (h ▸ hd))
      have hcmd : isCommand i = true := by
        rcases decodeCommand_ok hd with rfl | rfl | ⟨n, rfl⟩ | ⟨l, rfl⟩ <;> rfl
      obtain ⟨h1, h2, h3⟩ := command_settings hcmd hne ht
      rw [if_neg hw, h1, h2, h3]; exact ⟨rfl, rfl, rfl⟩
  | illegal _ w r h' ht hd =>
    rw [hi] at h'; cases h'; subst ht
    have hw : w ≠ commandWord 0x1#4 0 := fun h => by
      obtain ⟨e, he⟩ := hd; rw [decode_cfg_iff.mpr h] at he; cases he
    simp only [Settings.after, commandWord?_writeReg, if_neg hw]
    exact ⟨rfl, rfl, rfl⟩
  | write _ space off bytes v r h' ha hw ht =>
    rw [hi] at h'; cases h'; subst ht
    simp only [Settings.after, hw]
    cases space with
    | regs =>
      obtain ⟨h1, h2, h3⟩ := writeAt_settings (s.takeAccess rest) off v
      rw [h1, h2, h3]; exact ⟨rfl, rfl, hc⟩
    | pcm | adpcm => exact ⟨rfl, rfl, hc⟩
  | read _ space off bytes r h' ha ht => rw [hi] at h'; cases h'; subst ht; exact ⟨rfl, rfl, hc⟩
  | reset _ r h' ht => rw [hi] at h'; cases h'; subst ht; exact ⟨rfl, rfl, rfl⟩

/-- The first accesses of a queue, all performed: the rest is left, the settings are those after them. -/
theorem run_settings : ∀ (l q : List HostAccess) (s t : State), s.seq.code = none → s.inbox = l ++ q →
    core.run l.length s = .next t → t.inbox = q ∧ t.settings = l.foldl Settings.after s.settings
  | [], q, s, t, hc, hi, h => by
    cases h; exact ⟨hi, rfl⟩
  | a :: l, q, s, t, hc, hi, h => by
    simp only [List.length_cons, Host.Core.run] at h
    cases hs : core.step s with
    | next u =>
      rw [hs] at h
      obtain ⟨h1, h2, h3⟩ := step_settings hc hi hs
      obtain ⟨g1, g2⟩ := run_settings l q u t h3 h2 h
      exact ⟨g1, by rw [g2, h1]; rfl⟩
    | fault | refused => rw [hs] at h; cases h

/-- The settings ahead do not move while the queue is worked off. -/
theorem step_settingsAhead {s t : State} (hc : s.seq.code = none) (h : step s = .next t) :
    t.settingsAhead = s.settingsAhead := by
  cases hi : s.inbox with
  | nil =>
    have : t = s := by simpa [step, State.pending, hc, hi] using h.symm
    rw [this]
  | cons a rest =>
    obtain ⟨h1, h2, -⟩ := step_settings hc hi h
    simp only [State.settingsAhead, h1, h2, hi, List.foldl_cons]

end Sys2Proof.Machine
end

