-- ==== Sys2Proof/Laws/Search.lean ====
section
/-! SUPPORT. The search: on 16-bit targets it raises no error; its alternatives loop is a minimum with the tie rule of
45_lookahead.md R226. -/

namespace Sys2Proof.Machine

/-! ## The greedy code -/

theorem is16_half (v : Half) : is16 v.toInt := half_bounds v

theorem applyCode_is16 (sample : Int) (index : Nat) (n : Nibble) : is16 (applyCode sample index n).1 :=
  nextSample_bounds _ _ _

theorem greedyMagnitude_of_mem {d : Int} (h : -536870912 ≤ d) (h' : d ≤ 536870911) (step : Nat) :
    greedyMagnitude d step = .ok (min 7 ((d * 4).toNat / step)) := by
  unfold greedyMagnitude
  rw [chk_of_mem (by omega) (by omega)]; rfl

/-- The greedy code when no checked value leaves 32 bits (R221). -/
theorem greedy_of_mem {sample s : Int} (index : Nat) (h : (s - sample).natAbs ≤ 536870911) :
    greedy sample index s = .ok (BitVec.ofNat 4
      ((if s < sample then 8 else 0) + min 7 (4 * (s - sample).natAbs / stepRom index))) := by
  unfold greedy
  rw [chk_of_mem (by omega) (by omega)]
  show (if s - sample < 0 then _ else _) = _
  by_cases hs : s < sample
  · rw [if_pos (by omega), if_pos hs, chk_of_mem (by omega) (by omega)]
    show (greedyMagnitude (-(s - sample)) _ >>= _) = _
    rw [greedyMagnitude_of_mem (by omega) (by omega)]
    have : (-(s - sample) * 4).toNat = 4 * (s - sample).natAbs := by omega
    rw [this]; rfl
  · rw [if_neg (by omega), if_neg hs]
    show (greedyMagnitude (s - sample) _ >>= _) = _
    rw [greedyMagnitude_of_mem (by omega) (by omega)]
    have : ((s - sample) * 4).toNat = 4 * (s - sample).natAbs := by omega
    rw [this, Nat.zero_add]; rfl

theorem greedy_is16 {sample s : Int} (index : Nat) (h : is16 sample) (hs : is16 s) :
    ∃ g, greedy sample index s = .ok g := by
  unfold is16 at h hs
  exact ⟨_, greedy_of_mem index (by omega)⟩

/-! ## The alternatives loop -/

/-- What the loop holds after it has visited the codes in `seen`. -/
structure Best (total : Nibble → Nat) (g : Nibble) (seen : Nibble → Prop) (best : Nibble × Nat) : Prop where
  value : best.2 = total best.1
  least : ∀ m, seen m → best.2 ≤ total m
  greedy : best.2 ≤ total g
  tie : total g = best.2 → best.1 = g
  visited : best.1 ≠ g → seen best.1
  first : best.1 ≠ g → ∀ m, seen m → total m = best.2 → best.1.toNat ≤ m.toNat

/-- One alternative, when the child searches answer `child`: its total replaces the minimum only if it is smaller, and
the pruning test discards no smaller total (R224, R225). -/
theorem tryCode_eq {sample s : Int} {index : Nat} {g : Nibble} {child : Int → Nat → Checked (Nibble × Nat)}
    {total : Nibble → Nat} {m : Nibble}
    (hc : ∃ r, child (applyCode sample index m).1 (applyCode sample index m).2 = .ok r ∧
      total m = squaredError (applyCode sample index m).1 s + r.2) (best : Nibble × Nat) :
    tryCode sample index s g child best m = .ok (if m ≠ g ∧ total m < best.2 then (m, total m) else best) := by
  obtain ⟨r, hr, ht⟩ := hc
  unfold tryCode
  by_cases hm : m = g
  · simp [hm]
  · simp only [hm, if_false, ne_eq, not_false_eq_true, true_and, hr, ht]
    by_cases he : squaredError (applyCode sample index m).1 s < best.2
    · rw [if_pos he]
      show (if _ then Except.ok _ else Except.ok _) = _
      split <;> rfl
    · rw [if_neg he, if_neg (by omega)]

theorem best_step {total : Nibble → Nat} {g m : Nibble} {seen : Nibble → Prop} {best : Nibble × Nat}
    (h : Best total g seen best) (hm : ∀ v, seen v → v.toNat < m.toNat) :
    Best total g (fun v => seen v ∨ v = m) (if m ≠ g ∧ total m < best.2 then (m, total m) else best) := by
  obtain ⟨h1, h2, h3, h4, h5, h6⟩ := h
  by_cases hc : m ≠ g ∧ total m < best.2
  · rw [if_pos hc]
    refine ⟨rfl, fun v hv => ?_, by show total m ≤ _; omega, fun he => ?_, fun _ => .inr rfl, fun _ v hv he => ?_⟩
    · rcases hv with hv | rfl
      · have := h2 v hv; show total m ≤ _; omega
      · exact Nat.le_refl _
    · have he : total g = total m := he
      omega
    · rcases hv with hv | rfl
      · have := h2 v hv
        have he : total v = total m := he
        omega
      · exact Nat.le_refl _
  · rw [if_neg hc]
    refine ⟨h1, fun v hv => ?_, h3, h4, fun hg => .inl (h5 hg), fun hg v hv he => ?_⟩
    · rcases hv with hv | rfl
      · exact h2 v hv
      · by_cases hg : v = g
        · subst v; exact h3
        · simp only [ne_eq, hg, not_false_eq_true, true_and] at hc; omega
    · rcases hv with hv | rfl
      · exact h6 hg v hv he
      · exact Nat.le_of_lt (hm _ (h5 hg))

/-- The whole loop. -/
theorem best_fold {total : Nibble → Nat} {g : Nibble} {f : Nibble × Nat → Nibble → Checked (Nibble × Nat)}
    (hf : ∀ best m, f best m = .ok (if m ≠ g ∧ total m < best.2 then (m, total m) else best))
    (l : List Nibble) (hl : l.Pairwise fun a b => a.toNat < b.toNat) {seen : Nibble → Prop} {best : Nibble × Nat}
    (hs : ∀ v, seen v → ∀ m ∈ l, v.toNat < m.toNat) (h : Best total g seen best) :
    ∃ r, l.foldlM f best = .ok r ∧ Best total g (fun v => seen v ∨ v ∈ l) r := by
  induction l generalizing seen best with
  | nil => exact ⟨best, rfl, by simpa using h⟩
  | cons m l ih =>
    obtain ⟨hm, hl⟩ := List.pairwise_cons.mp hl
    obtain ⟨r, hr, hb⟩ := ih hl (seen := fun v => seen v ∨ v = m)
      (fun v hv k hk => by
        rcases hv with hv | rfl
        · exact hs v hv k (by simp [hk])
        · exact hm k hk)
      (best_step h fun v hv => hs v hv m (by simp))
    refine ⟨r, ?_, ?_⟩
    · rw [List.foldlM_cons, hf]; exact hr
    · simpa only [List.mem_cons, or_assoc] using hb

theorem mem_allCodes (n : Nibble) : n ∈ allCodes := by revert n; decide

theorem allCodes_sorted : allCodes.Pairwise fun a b => a.toNat < b.toNat := by decide

/-- The search at depth 1 or more, when every child search answers: a least total, ties to the greedy code and then to
the smallest (R226). -/
theorem search_best {sample s target : Int} {index : Nat} {future : List Int} {g : Nibble}
    (hg : greedy sample index s = .ok g)
    (hc : ∀ m, ∃ r, search (applyCode sample index m).1 (applyCode sample index m).2 target future = .ok r) :
    ∃ r, search sample index s (target :: future) = .ok r ∧
      Best (totalError sample index s target future) g (fun _ => True) r := by
  have hf : ∀ best m, tryCode sample index s g (fun s1 i1 => search s1 i1 target future) best m =
      .ok (if m ≠ g ∧ totalError sample index s target future m < best.2
        then (m, totalError sample index s target future m) else best) := fun best m => by
    refine tryCode_eq ?_ best
    obtain ⟨r, hr⟩ := hc m
    exact ⟨r, hr, by simp only [totalError, childError, hr]⟩
  obtain ⟨r0, hr0⟩ := hc g
  have ht : totalError sample index s target future g = squaredError (applyCode sample index g).1 s + r0.2 := by
    simp only [totalError, childError, hr0]
  obtain ⟨r, hr, hb⟩ := best_fold hf allCodes allCodes_sorted (seen := fun _ => False)
    (best := (g, totalError sample index s target future g)) (fun _ h => h.elim)
    ⟨rfl, fun _ h => h.elim, Nat.le_refl _, fun _ => rfl, fun h => absurd rfl h, fun h => absurd rfl h⟩
  refine ⟨r, ?_, ?_⟩
  · simp only [search, hg]
    show ((search _ _ target future : Checked (Nibble × Nat)) >>= _) = _
    rw [hr0, ← hr, ht]
    rfl
  · have : (fun v => False ∨ v ∈ allCodes) = fun _ => True := by
      funext v; simp [mem_allCodes v]
    rw [this] at hb; exact hb

/-- On 16-bit samples and targets the search raises no error (R227). -/
theorem search_is16 {sample s : Int} (index : Nat) {future : List Int} (h : is16 sample) (hs : is16 s)
    (hf : ∀ v ∈ future, is16 v) : ∃ r, search sample index s future = .ok r := by
  induction future generalizing sample s index with
  | nil =>
    obtain ⟨g, hg⟩ := greedy_is16 index h hs
    exact ⟨_, by simp only [search, hg]; rfl⟩
  | cons target future ih =>
    obtain ⟨g, hg⟩ := greedy_is16 index h hs
    obtain ⟨r, hr, -⟩ := search_best hg fun m =>
      ih _ (applyCode_is16 _ _ _) (hf target (by simp)) fun v hv => hf v (by simp [hv])
    exact ⟨r, hr⟩

/-- On 16-bit inputs the search raises no error for any target its greedy step can scale (R221, R227). -/
theorem search_of_mem {sample s : Int} (index : Nat) {future : List Int} (hd : (s - sample).natAbs ≤ 536870911)
    (hf : ∀ v ∈ future, is16 v) : ∃ r, search sample index s future = .ok r := by
  have hg := greedy_of_mem (sample := sample) (s := s) index hd
  cases future with
  | nil => exact ⟨_, by simp only [search, hg]; rfl⟩
  | cons target future =>
    obtain ⟨r, hr, -⟩ := search_best hg fun m =>
      search_is16 _ (applyCode_is16 _ _ _) (hf target (by simp)) fun v hv => hf v (List.mem_cons_of_mem _ hv)
    exact ⟨r, hr⟩

end Sys2Proof.Machine
end

