-- ==== Sys2Proof/Tests/Slice0.lean ====
section
/-! SUPPORT. Tests of single steps, with results from spec/95_test_vectors.md and the worked examples of the rules;
words written out from the encoding tables; and one concrete state for each clause of each statement. -/

namespace Sys2Proof.Tests

open Sys2Proof
open Sys2Proof.Machine

section

/-! Each kernel evaluation below waits for the declarations before it, so the theorems of this file are elaborated one
after another: in parallel each would hold a thread of its own. -/
set_option Elab.async false

/-! ## Helpers -/

/-- The outcome is a next state in which `p` holds. -/
def okWith (o : Host.Outcome State Fault Refusal) (p : State → Bool) : Bool :=
  match o with
  | .next t => p t
  | .fault _ | .refused _ => false

theorem exists_next {o : Host.Outcome State Fault Refusal} {p : State → Bool} (h : okWith o p = true) :
    ∃ t, o = .next t ∧ p t = true := by
  cases o with
  | next t => exact ⟨t, rfl, h⟩
  | fault | refused => cases h

/-- The value of a checked computation, if it raised no error. -/
def value {α : Type} (r : Checked α) : Option α := r.toOption

theorem exists_ok {α : Type} {r : Checked α} (h : (value r).isSome = true) : ∃ v, r = .ok v := by
  cases r with
  | ok v => exact ⟨v, rfl⟩
  | error => cases h

/-- A configured core, the buffers unwritten. -/
def configured (ch bs rate : Nat) (mode : NsMode) : State :=
  { State.reset with
    latch := { cfgValid := true, ch := ch, nsMode := mode, bs := bs, spb := samplesPerBlock ch bs, rate := rate } }

/-- After `SETUP 1, 0, 256, 8000`, but for the registers. -/
def mono : State := configured 1 256 8000 .off

/-- PCM entries from entry 0. -/
def withPcm (s : State) (vs : List Int) : State :=
  { s with pcm := (vs.zipIdx).foldl (fun m p => writePcmEntry m p.2 (BitVec.ofInt 16 p.1)) s.pcm }

/-- ADPCM bytes from address 0. -/
def withAdpcm (s : State) (bs : List Nat) : State :=
  { s with adpcm := (bs.zipIdx).foldl (fun m p => Memory.write m p.2 (BitVec.ofNat 8 p.1)) s.adpcm }

def pcmList (s : State) (n : Nat) : List Int := (List.range n).map fun i => (s.pcmAt i).toInt

def adpcmList (s : State) (n : Nat) : List Nat := (List.range n).map fun a => (s.adpcmAt a).toNat

/-- A mono core whose bank 0 stands at `(sample, index)`. -/
def atQuant (sample : Int) (index : Nat) : State :=
  { mono with
    ctxValid := true
    cs := { mono.cs with left :=
      { sample := BitVec.ofInt 16 sample, index := BitVec.ofNat 7 index, h0 := 0, h1 := 0, weight := 0, error := 0 } } }

/-- The host's next access. -/
def asked (s : State) (a : HostAccess) : State := { s with inbox := [a] }

/-- The values the codes give from `(sample, index)`, through `withFetchWord` and `step`. -/
def afterCode (sample : Int) (index w : Nat) : Option (Int × Nat) :=
  match step ((atQuant sample index).withFetchWord 8 w) with
  | .next t => some (t.cs.left.sample.toInt, t.cs.left.index.toNat)
  | .fault _ | .refused _ => none

/-! ## WellFormed (30_encoding.md R90, R92) -/

theorem test_enc_operand_too_wide : (Instr.enc 65536).wellFormed = false := by decide
theorem test_dec_operand_too_wide : (Instr.dec 65536).wellFormed = false := by decide
theorem test_widest_operands : (Instr.enc 65535).wellFormed = true ∧ (Instr.dec 65535).wellFormed = true := by decide

/-! ## Decoding: every constructor's word, bit by bit (R81, R90, R91, R97) -/

theorem test_decode_positive_codes :
    decode (.code 0b0000#4) = .ok .p0 ∧ decode (.code 0b0001#4) = .ok .p1 ∧ decode (.code 0b0010#4) = .ok .p2 ∧
    decode (.code 0b0011#4) = .ok .p3 ∧ decode (.code 0b0100#4) = .ok .p4 ∧ decode (.code 0b0101#4) = .ok .p5 ∧
    decode (.code 0b0110#4) = .ok .p6 ∧ decode (.code 0b0111#4) = .ok .p7 := by and_intros <;> rfl

theorem test_decode_negative_codes :
    decode (.code 0b1000#4) = .ok .n0 ∧ decode (.code 0b1001#4) = .ok .n1 ∧ decode (.code 0b1010#4) = .ok .n2 ∧
    decode (.code 0b1011#4) = .ok .n3 ∧ decode (.code 0b1100#4) = .ok .n4 ∧ decode (.code 0b1101#4) = .ok .n5 ∧
    decode (.code 0b1110#4) = .ok .n6 ∧ decode (.code 0b1111#4) = .ok .n7 := by and_intros <;> rfl

/-- CMD-1 to CMD-4 and CMD-11. -/
theorem test_decode_commands :
    decode (.command 0b0000000000000000_000000000000_0001#32) = .ok .cfg ∧
    decode (.command 0b0000000111111001_000000000000_0010#32) = .ok (.enc 505) ∧
    decode (.command 0b1111111111111111_000000000000_0010#32) = .ok (.enc 65535) ∧
    decode (.command 0b0000000100000000_000000000000_0011#32) = .ok (.dec 256) ∧
    decode (.command 0b0000000000000000_000000000000_0100#32) = .ok .rsts := by and_intros <;> rfl

/-- CMD-5 to CMD-10, R93. -/
theorem test_decode_illegal :
    decode (.command 0x00000000#32) = .error .unknownOpcode ∧ decode (.command 0x00000005#32) = .error .unknownOpcode ∧
    decode (.command 0x0000000F#32) = .error .unknownOpcode ∧ decode (.command 0x00000012#32) = .error .reservedBits ∧
    decode (.command 0x00010001#32) = .error .lengthNotZero ∧
    decode (.command 0x00010004#32) = .error .lengthNotZero := by and_intros <;> rfl

/-- The host's entry point: a code's row is one byte, a command's four. -/
theorem test_decode_table_words :
    decodeTableWord 8 0xD = some .n5 ∧ decodeTableWord 8 0x10 = none ∧ decodeTableWord 32 0x01F90002 = some (.enc 505) ∧
    decodeTableWord 32 0x00000005 = none := by decide

/-- A command word placed by `withFetchWord` is the next step. -/
theorem test_fetch_word_runs :
    okWith (step (State.reset.withFetchWord 32 0x00000003)) (fun t => t.err == .notConfigured) = true ∧
    okWith (step (State.reset.withFetchWord 8 0x4)) (fun t => t.cs.left.sample == 7 && t.cs.left.index == 2) = true := by
  decide +kernel

/-! ## Codes (R118 to R133) -/

/-- The worked example of each rule, from sample 1000 and index 20. -/
theorem test_codes_from_1000_20 :
    (List.range 16).map (afterCode 1000 20) =
      [(1006, 19), (1018, 19), (1031, 19), (1043, 19), (1056, 22), (1068, 24), (1081, 26), (1093, 28),
       (994, 19), (982, 19), (969, 19), (957, 19), (944, 22), (932, 24), (919, 26), (907, 28)].map some := by
  decide +kernel

/-- QUANT-1 to QUANT-9. -/
theorem test_codes_at_the_ends :
    [afterCode 32000 88 0x7, afterCode (-32000) 88 0xF, afterCode 0 0 0x0, afterCode 0 0 0x8, afterCode 5 0 0xF,
      afterCode 100 87 0x7, afterCode 100 1 0x3, afterCode 32767 10 0x4, afterCode (-32768) 10 0xC] =
      [(32767, 88), (-32768, 88), (0, 0), (0, 0), (-6, 8), (32767, 88), (107, 0), (32767, 12),
       (-32768, 12)].map some := by
  decide +kernel

/-- A code waiting at the decoder's quantizer moves `dsample`, `dindex` of its channel (log 4). -/
theorem test_code_at_the_decoder :
    okWith (step { mono with
        dec := { mono.dec with right := { sample := 1000, index := 20 } }
        seq := { engine := .decoder, pos := { Sequencer.idle.pos with channel := .right }, code := some 0xD#4 } })
      (fun t => t.dec.right == { sample := 932, index := 24 } && t.cs == mono.cs && t.seq.code == none) = true := by
  decide +kernel

/-! ## Commands -/

/-- R261's example: CONFIG 1, BLOCK_SIZE 0 (AUTO), 8000 Hz. -/
theorem test_cfg_example :
    okWith (exec .cfg { State.reset with config := 1, blockSize := 0, sampleRate := 8000 })
      (fun t => t.latch == mono.latch && t.readRegister .status == 0x10#32 && t.readRegister .bytesPerSecond == 4055#32 &&
        t.readRegister .effBlockSize == 0x100#32 && t.readRegister .samplesPerBlock == 0x1F9#32) = true := by
  decide +kernel

/-- The modes of CMD's registers, AUTO at 33000 Hz, and the failing values of R261 and R243. -/
theorem test_cfg_corners :
    [(5, 256, 8000), (5, 0, 96000), (1, 0, 33000), (3, 256, 8000), (1, 384, 8000), (1, 256, 0x80000000),
      (2, 0, 715000), (1, 0, 1419000)].map (fun r => okWith
        (exec .cfg { State.reset with config := BitVec.ofNat 32 r.1, blockSize := BitVec.ofNat 32 r.2.1,
                                      sampleRate := BitVec.ofNat 32 r.2.2 })
        (fun t => t.statusWord == 0x210#32 || t.statusWord == 0x110#32 || t.latch.bs == 768)) =
      [true, true, true, false, false, false, false, false] := by
  decide +kernel

/-- ENC-1 (R193): the block, the final bank and STATUS. -/
def enc1 : State := withPcm mono [0, 300, 700, 1000, 1200, 1100, 800, 400, 0]

theorem test_enc_example :
    okWith (exec (.enc 9) enc1)
      (fun t => adpcmList t 8 == [0x00, 0x00, 0x22, 0x00, 0x65, 0x12, 0xB8, 0xCC] && t.result == 8 &&
        t.cs.left.toQuant == { sample := BitVec.ofInt 16 (-24), index := 44 } && t.statusWord == 0x30#32) = true := by
  decide +kernel

/-- ENC-2: three stereo frames, padded to nine. -/
def enc2 : State := withPcm (configured 2 2048 44100 .off) [100, -100, 200, -300, 350, -450]

theorem test_enc_stereo :
    okWith (exec (.enc 3) enc2)
      (fun t => adpcmList t 16 ==
        [0x64, 0x00, 0x0F, 0x00, 0x9C, 0xFF, 0x12, 0x00, 0x77, 0x82, 0x08, 0x80, 0xFF, 0x0A, 0x08, 0x08] &&
        t.cs.right.toQuant == { sample := BitVec.ofInt 16 (-442), index := 28 }) = true := by
  decide +kernel

/-- DEC-1 (R160). -/
def dec1 : State := withAdpcm mono [0x10, 0x00, 0x05, 0x00, 0x70, 0x8F, 0x12, 0x34]

theorem test_dec_example :
    okWith (exec (.dec 8) dec1)
      (fun t => pcmList t 9 == [16, 17, 36, -5, -11, 16, 31, 72, 110] && t.dec.left.index == 18 &&
        t.result == 9) = true := by
  decide +kernel

/-- DEC-3: DEC-2's stereo block, its three trailing bytes ignored. -/
def dec3 : State := withAdpcm (configured 2 256 8000 .off)
  [0xE8, 0x03, 0x14, 0x00, 0x18, 0xFC, 0x0A, 0x00, 0x77, 0x77, 0x00, 0x00, 0x88, 0x08, 0x80, 0x99, 1, 2, 3]

theorem test_dec_stereo :
    okWith (exec (.dec 19) dec3)
      (fun t => pcmList t 18 == [1000, -1000, 1093, -1002, 1292, -1004, 1722, -1006, 2647, -1005, 2779, -1004, 2899,
        -1005, 3008, -1008, 3107, -1011] && t.result == 9) = true := by
  decide +kernel

/-- R264, on a running stream. -/
theorem test_rsts :
    okWith (exec .rsts (atQuant (-24) 44)) (fun t => t.statusWord == 0x10#32 && t.cs == PerChannel.zeroBanks) = true := by
  decide +kernel

/-- L1-4, ENC-5 and DEC-9: the ERR field of STATUS. -/
theorem test_errors :
    [exec (.dec 4) (withAdpcm mono [0, 0, 0x59, 0]), exec (.dec 4) (withAdpcm mono [0, 0, 5, 1]),
      exec (.dec 3) (withAdpcm mono [0, 0, 5]), exec (.enc 506) mono, exec (.dec 257) mono, exec (.enc 1) State.reset,
      step (asked mono (issue 0x12#32))].map (fun o => (List.range 9).map fun k =>
        okWith o (fun t => (t.statusWord.extractLsb' 0 4).toNat == k)) =
      [2, 2, 3, 7, 7, 6, 5].map (fun e => (List.range 9).map (e == ·)) := by
  decide +kernel

/-! ## The parts of ENC -/

/-- SEED-1, SEED-2, SEED-4 and the boundaries of R171. -/
theorem test_seeding :
    initialDelta (fun f => ([0, 100, -100, 200, -200, 300, -300, 400, -400][f]?).getD 0) 9 = 250 ∧
    initialDelta (fun f => ([5, 100, -40][f]?).getD 7) 9 = 31 ∧ initialDelta (fun _ => 1000) 1 = 0 ∧
    [0, 6, 7, 8, 31, 250, 31279, 31280, 65535].map seedIndex = [0, 0, 1, 2, 15, 37, 87, 88, 88] := by
  decide +kernel

/-- A bank for the shaping vectors. -/
def shapingBank (h0 h1 weight error : Int) : Chan :=
  { sample := 0, index := 0, h0 := BitVec.ofInt 16 h0, h1 := BitVec.ofInt 16 h1, weight := BitVec.ofInt 32 weight
    error := BitVec.ofInt 32 error }

/-- The shaped sample, the new history, weight and error. -/
def shaped (mode : NsMode) (b : Chan) (s : Int) : Option (Int × Int × Int × Int × Int) :=
  (value (shape mode b s)).map fun r => (r.2, r.1.h0.toInt, r.1.h1.toInt, r.1.weight.toInt, r.1.error.toInt)

/-- NS-1 to NS-10 (R211). -/
theorem test_shaping :
    [shaped .static (shapingBank 0 0 0 5) 100, shaped .dynamic (shapingBank 0 0 0 0) 1000,
      shaped .dynamic (shapingBank 1000 900 0 (-40)) 1100, shaped .dynamic (shapingBank 1000 900 800 (-40)) 1100,
      shaped .dynamic (shapingBank 1000 900 1280 (-7)) 1100, shaped .dynamic (shapingBank 1000 900 1280 7) 1100,
      shaped .dynamic (shapingBank 1000 900 300 (-40)) 1100, shaped .dynamic (shapingBank 0 0 1280 7) 1100,
      shaped .dynamic (shapingBank (-500) (-400) 600 33) (-700),
      shaped .dynamic (shapingBank 32767 (-32768) 40000 0) 0] =
    [some (95, 0, 0, 0, -95), some (1000, 1000, 0, 0, -1000), some (1140, 1100, 1000, 2, -1140),
      some (1097, 1100, 1000, 802, -1100), some (1094, 1100, 1000, 1278, -1100), some (1106, 1100, 1000, 1278, -1100),
      some (1136, 1100, 1000, 302, -1136), some (1106, 1100, 0, 1280, -1100), some (-711, -700, -500, 602, 711),
      none] := by
  decide +kernel

/-- SRCH-1 to SRCH-5. -/
theorem test_search :
    [search 0 34 300 [700, 1000, 1200], search 0 34 300 [], search 0 0 (-1) [0, 0, 0], search 0 0 0 [0, 0, 0],
      search 0 10 0 [0, 0, 0]].map value =
      [(0x5#4, 2288), (0x6#4, 64), (0x9#4, 0), (0x0#4, 0), (0x0#4, 9)].map some ∧
    [0, 1, -1, 49, 50, -50, 200, 1000, -1000].map (fun s => value (greedy 0 20 s)) =
      [0x0#4, 0x0#4, 0x8#4, 0x3#4, 0x4#4, 0xC#4, 0x7#4, 0x7#4, 0xF#4].map some := by
  decide +kernel

/-- BLK: pad, bytes per second and AUTO. -/
theorem test_block_arithmetic :
    [1, 2, 8, 9, 10, 17, 18, 505].map pad = [1, 9, 9, 9, 17, 17, 25, 505] ∧
    [(1, 256), (1, 2048), (1, 32768), (2, 256), (2, 2048), (2, 32768)].map (fun c => bytesPerSecond c.1 c.2 8000) =
      [4055, 4006, 4000, 8224, 8027, 8001] ∧
    [(1, 8000), (1, 33000), (2, 44100), (1, 96000), (2, 715000), (1, 1419000)].map (fun c => autoBlockSize c.1 c.2) =
      [256, 768, 2048, 2048, 33280, 33024] := by
  decide +kernel

/-- PROG-1's first line as accesses, and the CONFIG words `(1 << 2) | 5` and `(2 << 2) | 1` (R96). -/
theorem test_setup_statement :
    (Statement.setup 1 0 256 8000).accesses Latch.invalid =
      [.write .regs 0x00 4 0x1#32, .write .regs 0x04 4 0x100#32, .write .regs 0x08 4 0x1F40#32,
       .write .regs 0x0C 4 0x1#32] ∧
    ((Statement.setup 5 1 0 8000).accesses Latch.invalid).head? = some (.write .regs 0x00 4 0x5#32) ∧
    ((Statement.setup 1 2 0 8000).accesses Latch.invalid).head? = some (.write .regs 0x00 4 0x9#32) := by
  decide +kernel

/-- PROG-1, but for its fill, queued whole from reset: ENCBLK is `ENC 505` and DECBLK `DEC 256`. -/
theorem test_program_queued_whole :
    (State.reset.submitAll [.setup 1 0 256 8000, .encblk, .decblk]).inbox.drop 4 =
      [issue 0x01F90002#32, issue 0x01000003#32] := by
  decide +kernel

/-! ## Witnesses: states and operands that meet the hypotheses of each statement, clause by clause -/

theorem exists_error {α : Type} {r : Checked α} (h : (value r).isSome = false) : ∃ e, r = .error e := by
  cases r with
  | ok => cases h
  | error e => exact ⟨e, rfl⟩

theorem witness_CommandWordOperand :
    (0x01F90002#32).toNat % 65536 = 2 ∧ (0xFFFF0003#32).toNat % 65536 = 3 ∧ 65535 < 65536 ∧ 0 < 65536 := by decide

theorem witness_IllegalWords :
    (0x00000012#32).toNat / 16 % 4096 ≠ 0 ∧ (0x00000005#32).toNat % 16 ∉ [0x1, 0x2, 0x3, 0x4] ∧
    ((0x00010001#32).toNat % 16 ∈ [0x1, 0x4] ∧ (0x00010001#32).toNat / 65536 ≠ 0) ∧
    ∀ w, (asked mono (issue w)).seq = Sequencer.idle ∧
      (asked mono (issue w)).inbox = HostAccess.writeReg .command w :: [] :=
  ⟨by decide, by decide, by decide, fun _ => ⟨rfl, rfl⟩⟩

theorem witness_CodePlaces :
    0 < 4 ∧ 3 < 4 ∧ 0 < 2 ∧ 1 < 2 ∧ Channel.right.toNat < 2 ∧ Channel.left.toNat < 1 ∧ 1 ≤ 9 ∧
    codePlace 2 9 .right = codePlace 2 (1 + 8) .right := by decide

theorem witness_StepRunsDecodedInstruction :
    (({ mono with seq := { mono.seq with code := some 0x7#4 } } : State).seq.code = some 0x7#4 ∧
      decode (.code 0x7#4) = .ok .p7) ∧
    (mono.seq.code = none ∧ (asked mono (issue 0x00090002#32)).inbox = HostAccess.writeReg .command 0x00090002#32 :: [] ∧
      decode (.command 0x00090002#32) = .ok (.enc 9)) ∧
    (tableEncoding 8 0xF = some (.code 0xF#4) ∧ decode (.code 0xF#4) = .ok .n7) ∧
    (tableEncoding 32 0x00080003 = some (.command 0x00080003#32) ∧ decode (.command 0x00080003#32) = .ok (.dec 8)) ∧
    mono.inbox = [] := by and_intros <;> rfl

/-- PROG-3's SETUP, queued before ENCBLK and DECBLK: SPB 2041, BS 2048. -/
theorem witness_PseudoInstructions :
    let s := State.reset.submit (.setup 2 0 0 44100)
    s.seq.code = none ∧
    (∃ t, core.run s.inbox.length (s.submit .encblk) = .next t ∧ (t.latch.spb == 2041) = true) ∧
    (∃ t, core.run s.inbox.length (s.submit .decblk) = .next t ∧ (t.latch.bs == 2048) = true) :=
  ⟨rfl, exists_next (p := fun t => t.latch.spb == 2041) (by decide +kernel),
    exists_next (p := fun t => t.latch.bs == 2048) (by decide +kernel)⟩

/-- A state whose codes go to the decoder's registers of channel 1. -/
def atDecoder : State :=
  { mono with seq := { engine := .decoder, pos := { Sequencer.idle.pos with channel := .right }, code := none } }

theorem witness_CodesFrame :
    isCommand .n5 = false ∧ (∃ t, exec .n5 mono = .next t) ∧ mono.seq.engine = .encoder ∧
    (∃ t, exec .n5 atDecoder = .next t) ∧ atDecoder.seq.engine = .decoder ∧ Channel.left ≠ atDecoder.seq.pos.channel :=
  ⟨rfl, ⟨_, rfl⟩, rfl, ⟨_, rfl⟩, rfl, by decide⟩

theorem witness_CodeSymmetry : 0 < 8 ∧ 7 < 8 := by decide
theorem witness_CodeMonotonicity : 88 ≤ 88 ∧ 6 < 7 ∧ stepRom 0 = 7 := by decide
theorem witness_RomContents : 87 < 88 := by decide

theorem witness_FullBlockIsWholeChunks :
    ((1 = 1 ∨ 1 = 2) ∧ 256 % 8 = 0 ∧ 8 ≤ 256) ∧ ((2 = 1 ∨ 2 = 2) ∧ 32768 % 8 = 0 ∧ 8 ≤ 32768) := by decide

theorem witness_PadIsLeast : 1 ≤ 1 ∧ 1 ≤ 8 * 0 + 1 ∧ 10 ≤ 8 * 2 + 1 := by decide

/-- The widest mono configuration and its longest block, and the shortest. -/
theorem witness_SizesAgree :
    (configured 1 32768 8000 .off).latch.legal = true ∧ 1 ≤ 65529 ∧ 65529 ≤ (configured 1 32768 8000 .off).latch.spb ∧
    enc1.latch.legal = true ∧ 1 ≤ 1 ∧ 1 ≤ enc1.latch.spb ∧ ∃ t, exec (.enc 1) enc1 = .next t :=
  ⟨by decide +kernel, by decide, by decide +kernel, by decide +kernel, by decide, by decide +kernel, _, rfl⟩

theorem witness_OutputSizes : 504 < samplesPerBlock 1 256 ∧ 0 < samplesPerBlock 2 256 := by decide

theorem witness_BytesPerSecondFits : (configured 2 32768 2147483647 .static).latch.legal = true := by decide +kernel

/-- An explicit size, the largest one at the largest rate, and AUTO at its largest. -/
theorem witness_ConfigureLatches :
    ConfigAccepted (1#32).toNat (256#32).toNat (8000#32).toNat 256 ∧
    ConfigAccepted (6#32).toNat (32768#32).toNat (0x7FFFFFFF#32).toNat 32768 ∧
    ConfigAccepted (1#32).toNat (0#32).toNat (1408000#32).toNat 32768 := by
  unfold ConfigAccepted; decide

/-- Three channels, a reserved bit, the rates 0 and 2^31, the size 384, and AUTO above 32768. -/
theorem witness_ConfigureRejects :
    ∀ r ∈ [(3, 256, 8000), (9, 256, 8000), (1, 256, 0), (1, 256, 0x80000000), (1, 384, 8000), (1, 0, 1419000)],
      ∀ bs, ¬ ConfigAccepted r.1 r.2.1 r.2.2 bs := by
  intro r hr bs h
  simp only [List.mem_cons, List.not_mem_nil, or_false] at hr
  obtain ⟨hch, hrsv, hlo, hhi, h⟩ := h
  rcases hr with rfl | rfl | rfl | rfl | rfl | rfl <;> simp at hch hrsv hlo hhi h
  all_goals omega

theorem witness_ResetStreamEndsStream : (atQuant (-24) 44).seq = Sequencer.idle := by decide

theorem witness_RejectedCommandsChangeNothing :
    State.reset.latch.cfgValid = false ∧ State.reset.seq = Sequencer.idle ∧ mono.latch.legal = true ∧
    mono.latch.spb < 506 ∧ mono.latch.bs < 257 ∧ mono.seq = Sequencer.idle := by decide +kernel

/-- A static stream whose error stands at the lowest 32-bit value. -/
def overflowing : State :=
  { withPcm (configured 1 2048 96000 .static) [0, 0] with
    ctxValid := true
    cs := { PerChannel.zeroBanks with left := { Chan.zero with error := 0x80000000 } } }

theorem witness_FaultIsSticky :
    (isCommand (.enc 2) = true ∧ ∃ t, exec (.enc 2) overflowing = .next t ∧ (t.err == .numericRange) = true) ∧
    (∃ t, exec .rsts { mono with fault := true } = .next t ∧ t.fault = true) ∧
    (∃ t, step { asked mono .hardwareReset with fault := true } = .next t ∧ t.fault = false) :=
  ⟨⟨rfl, exists_next (by decide +kernel)⟩, ⟨_, rfl, rfl⟩, ⟨_, rfl, rfl⟩⟩

theorem witness_ResultCounts :
    (∃ t, exec .cfg mono = .next t) ∧ (∃ t, exec .rsts mono = .next t) ∧
    (∃ t, exec (.enc 9) enc1 = .next t ∧ (t.err == .noError) = true) ∧
    (∃ t, exec (.dec 8) dec1 = .next t ∧ (t.err == .noError) = true) ∧
    (isCommand (.enc 506) = true ∧ ∃ t, exec (.enc 506) enc1 = .next t ∧ (t.err != .noError) = true) :=
  ⟨⟨_, rfl⟩, ⟨_, rfl⟩, exists_next (by decide +kernel), exists_next (by decide +kernel), rfl,
    exists_next (by decide +kernel)⟩

theorem witness_StatusIsPerCommand : isCommand (.enc 9) = true ∧ isCommand .cfg = true := by decide

theorem witness_RegisterMap :
    State.reset.latch.cfgValid = false ∧ mono.latch.legal = true ∧
    ∀ off ∈ [0x24, 0x58, 0x7C], off ∉ [0x00, 0x04, 0x08, 0x0C, 0x10, 0x14, 0x18, 0x1C, 0x20, 0x40, 0x44, 0x48, 0x4C,
      0x50, 0x54, 0x60, 0x64, 0x68, 0x6C, 0x70, 0x74] := by decide +kernel

theorem witness_ReadsHaveNoSideEffect :
    mono.seq.code = none ∧ (asked mono (.read .regs 0x7C 4)).inbox = .read .regs 0x7C 4 :: [] ∧
    (4 = 4 ∧ 0x7C % 4 = 0 ∧ 0x7C < 128) ∧ (2 = 2 ∧ 131070 % 2 = 0 ∧ 131070 / 2 < 65536) ∧
    (1 = 1 ∧ 32767 < 32768) := by decide

theorem witness_RegisterWrites :
    mono.seq.code = none ∧ ∀ off ∈ [0x00, 0x04, 0x08, 0x10, 0x54, 0x7C],
      (asked mono (.write .regs off 4 0xFFFFFFFF#32)).inbox = .write .regs off 4 0xFFFFFFFF#32 :: [] ∧
      off % 4 = 0 ∧ off < 128 ∧ off ≠ 0x0C := by decide

theorem witness_BufferWrites :
    mono.seq.code = none ∧ 65535 < 65536 ∧ 32767 < 32768 ∧
    (asked mono (.write .pcm (2 * 65535) 2 0xBEEF#32)).inbox = .write .pcm (2 * 65535) 2 0xBEEF#32 :: [] ∧
    (asked mono (.write .adpcm 32767 1 0x5A#32)).inbox = .write .adpcm 32767 1 0x5A#32 :: [] := by decide

/-- A halfword register access, a misaligned one, one past the end, half a PCM entry, a PCM access across two entries,
one past the end, a wide ADPCM access, and one past the end. -/
theorem witness_OutsideAccessesAreRefused :
    mono.seq.code = none ∧
    (asked mono (.write .regs 0 2 1#32)).inbox = .write .regs 0 2 1#32 :: [] ∧
    (asked mono (.read .adpcm 32768 1)).inbox = .read .adpcm 32768 1 :: [] ∧
    (2 ≠ 4 ∨ 0 % 4 ≠ 0 ∨ 128 ≤ 0) ∧ (4 ≠ 4 ∨ 2 % 4 ≠ 0 ∨ 128 ≤ 2) ∧ (4 ≠ 4 ∨ 128 % 4 ≠ 0 ∨ 128 ≤ 128) ∧
    (1 ≠ 2 ∨ 0 % 2 ≠ 0 ∨ 65536 ≤ 0 / 2) ∧ (2 ≠ 2 ∨ 1 % 2 ≠ 0 ∨ 65536 ≤ 1 / 2) ∧
    (2 ≠ 2 ∨ 131072 % 2 ≠ 0 ∨ 65536 ≤ 131072 / 2) ∧
    (4 ≠ 1 ∨ 32768 ≤ 0) ∧ (1 ≠ 1 ∨ 32768 ≤ 32768) := by decide

theorem witness_HardwareReset :
    enc1.seq.code = none ∧ (asked enc1 .hardwareReset).inbox = .hardwareReset :: [] := by decide

/-- A whole chunk, the shortest block with the largest index, and a stereo block with trailing bytes. -/
theorem witness_DecodeReconstructs :
    ∀ p ∈ [(dec1, 8), (withAdpcm mono [0x34, 0x12, 0x58, 0x00], 4), (dec3, 19)],
      p.1.latch.legal = true ∧ 4 * p.1.latch.ch ≤ p.2 ∧ p.2 ≤ p.1.latch.bs ∧ ∀ c : Channel, c.toNat < p.1.latch.ch →
        (p.1.adpcmAt (4 * c.toNat + 2)).toNat ≤ 88 ∧ p.1.adpcmAt (4 * c.toNat + 3) = 0 := by
  intro p hp
  simp only [List.mem_cons, List.not_mem_nil, or_false] at hp
  rcases hp with rfl | rfl | rfl <;> refine ⟨by decide +kernel, by decide +kernel, by decide +kernel, fun c => ?_⟩ <;>
    cases c <;> decide +kernel

theorem witness_DecodeFrame :
    (∃ t, exec (.dec 8) dec1 = .next t ∧ (t.err == .noError) = true) ∧
    (∃ t, exec (.dec 257) dec1 = .next t ∧ (t.err == .badLength) = true) ∧
    (∃ t, exec (.dec 8) State.reset = .next t ∧ (t.err == .notConfigured) = true) ∧
    dec1.latch.ch * (1 + 8 * ((8 - 4 * dec1.latch.ch) / (4 * dec1.latch.ch))) ≤ 9 ∧
    dec1.latch.ch ≤ Channel.right.toNat :=
  ⟨exists_next (by decide +kernel), exists_next (by decide +kernel), exists_next (by decide +kernel), by decide, by decide⟩

theorem witness_DecodeIgnoresContext : ∃ t, exec (.dec 8) dec1 = .next t ∧ (t.err == .noError) = true :=
  exists_next (by decide +kernel)

/-- L1-4's three blocks. -/
theorem witness_DecodeErrors :
    mono.latch.legal = true ∧ 3 ≤ mono.latch.bs ∧ 3 < 4 * mono.latch.ch ∧ 4 * mono.latch.ch ≤ 4 ∧ 4 ≤ mono.latch.bs ∧
    Channel.left.toNat < mono.latch.ch ∧
    88 < ((withAdpcm mono [0, 0, 0x59, 0]).adpcmAt (4 * Channel.left.toNat + 2)).toNat ∧
    (withAdpcm mono [0, 0, 5, 1]).adpcmAt (4 * Channel.left.toNat + 3) ≠ 0 := by decide +kernel

/-- Two states with one block, apart in the context and in PCM. -/
theorem witness_DecodeBlockIndependence :
    let u := { withPcm dec1 [5, 6] with ctxValid := true, latch := (configured 1 512 96000 .static).latch }
    dec1.latch.legal = true ∧ u.latch.legal = true ∧ dec1.latch.ch = u.latch.ch ∧ 8 ≤ dec1.latch.bs ∧ 8 ≤ u.latch.bs ∧
      ∀ a, a < 8 → dec1.adpcmAt a = u.adpcmAt a := by decide +kernel

theorem witness_SeedIndexIsLeast : 0 < seedIndex 31280 ∧ 87 < seedIndex 31280 ∧ ¬ 0 < seedIndex 0 := by decide +kernel

theorem witness_InitialDelta :
    (1 ≤ 1 ∧ ∀ f : Nat, is16 ((fun _ => 32767 : Nat → Int) f)) ∧
    (∀ f, f < 9 → (fun _ => -32768 : Nat → Int) f = (fun _ => -32768 : Nat → Int) 0) :=
  ⟨⟨Nat.le_refl 1, fun _ => (⟨by decide, by decide⟩ : is16 32767)⟩, fun _ _ => rfl⟩

theorem witness_EncodeEmptyBlock : mono.latch.legal = true ∧ mono.seq = Sequencer.idle := by decide +kernel

theorem witness_EncodeSampleSteps :
    (∃ r, encodeSample .dynamic (shapingBank 1000 900 1280 7) 1100 [0, 0] = .ok r) ∧
    (∃ r, encodeSample .off (shapingBank 0 0 0 0) 300 [] = .ok r) :=
  ⟨exists_ok (by decide +kernel), exists_ok (by decide +kernel)⟩

theorem witness_SearchDepth :
    1 < 9 ∧ 8 < 9 ∧ (lookaheadTargets (fun f => f) 9 5)[2]? = some 8 ∧ (lookaheadTargets (fun f => f) 9 8)[0]? = none := by
  decide +kernel

theorem witness_EncodeRunsEveryChannel :
    (enc1.latch.legal = true ∧ 1 ≤ 9 ∧ 9 ≤ enc1.latch.spb ∧
      ∃ b : Channel → Chan, ∀ c, c.toNat < enc1.latch.ch → enc1.runAfter 9 c (pad 9 - 1) = .ok (b c)) ∧
    (overflowing.latch.legal = true ∧ 1 ≤ 2 ∧ 2 ≤ overflowing.latch.spb ∧
      ∃ c e, c.toNat < overflowing.latch.ch ∧ overflowing.runAfter 2 c (pad 2 - 1) = .error e) := by
  refine ⟨⟨by decide +kernel, by decide, by decide +kernel, ?_⟩, by decide +kernel, by decide, by decide +kernel, ?_⟩
  · obtain ⟨v, h⟩ := exists_ok (r := enc1.runAfter 9 .left (pad 9 - 1)) (by decide +kernel)
    refine ⟨fun _ => v, fun c hc => ?_⟩
    cases c with
    | left => exact h
    | right => exact absurd hc (by decide)
  · obtain ⟨e, h⟩ := exists_error (r := overflowing.runAfter 2 .left (pad 2 - 1)) (by decide +kernel)
    exact ⟨.left, e, by decide, h⟩

/-- A new stream, and a running one. -/
theorem witness_EncodeHeaders :
    1 ≤ 1 ∧ (∃ t, exec (.enc 1) enc1 = .next t ∧ (t.err == .noError) = true) ∧
    (∃ t, exec (.enc 1) (withPcm (atQuant (-24) 44) [5]) = .next t ∧ (t.err == .noError) = true) ∧
    Channel.left.toNat < enc1.latch.ch :=
  ⟨by decide, exists_next (by decide +kernel), exists_next (by decide +kernel), by decide⟩

theorem witness_EncodeCompletesWhenOff :
    enc1.latch.legal = true ∧ enc1.latch.nsMode = .off ∧ 1 ≤ 1 ∧ 1 ≤ 505 ∧ 505 ≤ enc1.latch.spb := by decide +kernel

theorem witness_EncodeFrame :
    (∃ t, exec (.enc 9) enc1 = .next t ∧ (t.err == .noError) = true) ∧
    (∃ t, exec (.enc 9) State.reset = .next t ∧ (t.err == .notConfigured) = true) ∧
    (∃ t, exec (.enc 506) enc1 = .next t ∧ (t.err == .badLength) = true) ∧ (∃ t, exec (.enc 0) enc1 = .next t) ∧
    blockBytes enc1.latch.ch 9 ≤ 8 ∧ enc1.latch.ch ≤ Channel.right.toNat :=
  ⟨exists_next (by decide +kernel), exists_next (by decide +kernel), exists_next (by decide +kernel), ⟨_, rfl⟩,
    by decide, by decide⟩

theorem witness_EncodeErrorState :
    (∃ t, exec (.enc 2) overflowing = .next t ∧ (t.err == .numericRange) = true) ∧
    Channel.left.toNat < overflowing.latch.ch ∧ overflowing.latch.ch ≤ Channel.right.toNat ∧
    blockBytes overflowing.latch.ch 2 ≤ 8 :=
  ⟨exists_next (by decide +kernel), by decide, by decide, by decide⟩

/-- Two states that agree on the input, apart in ADPCM, in a later PCM entry and in a register. -/
theorem witness_EncodeReadsOnly :
    let u := { enc1 with adpcm := [(0, 5#8)], pcm := writePcmEntry enc1.pcm 9 77#16, config := 3 }
    enc1.latch = u.latch ∧ enc1.ctxValid = u.ctxValid ∧ enc1.cs = u.cs ∧
      (∀ i, i < 9 * enc1.latch.ch → enc1.pcmAt i = u.pcmAt i) ∧
      ∃ s', exec (.enc 9) enc1 = .next s' ∧ (s'.err == .noError) = true :=
  ⟨rfl, rfl, rfl, by decide +kernel, exists_next (by decide +kernel)⟩

/-- ENC-1 and ENC-2: mono, and stereo with padding. -/
theorem witness_RoundTrip :
    (enc1.latch.legal = true ∧ 1 ≤ 9 ∧ 9 ≤ enc1.latch.spb ∧ (∀ c, (enc1.cs.get c).index.toNat ≤ 88) ∧
      ∃ t, exec (.enc 9) enc1 = .next t ∧ (t.err == .noError) = true) ∧
    (enc2.latch.legal = true ∧ 1 ≤ 3 ∧ 3 ≤ enc2.latch.spb ∧ (∀ c, (enc2.cs.get c).index.toNat ≤ 88) ∧
      ∃ t, exec (.enc 3) enc2 = .next t ∧ (t.err == .noError) = true) :=
  ⟨⟨by decide +kernel, by decide, by decide +kernel, fun c => by cases c <;> decide, exists_next (by decide +kernel)⟩,
    by decide +kernel, by decide, by decide +kernel, fun c => by cases c <;> decide, exists_next (by decide +kernel)⟩

/-- The last values of the pre-filter that stay in 32 bits at each end, the first that do not, and a sample coded. -/
theorem witness_StaticShaping :
    (∀ p ∈ [(shapingBank 0 0 0 (-2147483647), (0 : Int)), (shapingBank 0 0 0 2147483647, 0)],
      -2147483647 ≤ p.2 - p.1.error.toInt ∧ p.2 - p.1.error.toInt ≤ 2147483647) ∧
    (∀ p ∈ [(shapingBank 0 0 0 (-2147483648), (0 : Int)), (shapingBank 0 0 0 2147483647, -1)],
      p.2 - p.1.error.toInt < -2147483647 ∨ 2147483647 < p.2 - p.1.error.toInt) ∧
    ∃ r, encodeSample .static (shapingBank 0 0 0 5) 100 [0] = .ok r :=
  ⟨by decide +kernel, by decide +kernel, exists_ok (by decide +kernel)⟩

/-- The four branches: no prediction, agreeing signs, opposite signs with a negative gain, and a gain above 0. -/
theorem witness_DynamicShaping :
    is16 1100 ∧ ∀ b ∈ [shapingBank 0 0 1280 7, shapingBank 1000 900 800 (-40), shapingBank 1000 900 1280 (-7),
      shapingBank 1000 900 300 (-40)], ∃ r, shape .dynamic b 1100 = .ok r := by
  refine ⟨⟨by decide, by decide⟩, fun b hb => exists_ok ?_⟩
  revert b; decide +kernel

theorem witness_DynamicShapingCompletes :
    is16 (-32768) ∧ is16 32767 ∧ -16384 ≤ (shapingBank 0 0 (-16384) 65536).weight.toInt ∧
    (shapingBank 0 0 16384 (-65536)).weight.toInt ≤ 16384 ∧ -65536 ≤ (shapingBank 0 0 16384 (-65536)).error.toInt ∧
    (shapingBank 0 0 (-16384) 65536).error.toInt ≤ 65536 :=
  ⟨⟨by decide, by decide⟩, ⟨by decide, by decide⟩, by decide +kernel, by decide +kernel, by decide +kernel,
    by decide +kernel⟩

theorem witness_ShapedSampleCompletes :
    is16 (-32768) ∧ is16 32767 ∧ (∀ v ∈ [(32767 : Int), -32768], is16 v) ∧
    -268435456 ≤ (shapingBank 0 0 0 (-268435456)).error.toInt ∧ (shapingBank 0 0 0 268435456).error.toInt ≤ 268435456 ∧
    -16384 ≤ (shapingBank 0 0 (-16384) 65536).weight.toInt ∧ (shapingBank 0 0 16384 (-65536)).weight.toInt ≤ 16384 ∧
    -65536 ≤ (shapingBank 0 0 16384 (-65536)).error.toInt ∧ (shapingBank 0 0 (-16384) 65536).error.toInt ≤ 65536 := by
  unfold is16; decide +kernel

theorem witness_GreedyCode :
    ((536870911 : Int) - 0).natAbs ≤ 536870911 ∧ 536870911 < ((-536870912 : Int) - 0).natAbs ∧
    ∃ g, greedy 0 34 300 = .ok g :=
  ⟨by decide, by decide, exists_ok (by decide +kernel)⟩

theorem witness_SearchStaysInRange : is16 (-32768) ∧ is16 32767 ∧ ∀ v ∈ [(-32768 : Int), 32767], is16 v := by
  unfold is16; decide

/-- SRCH-1, where an alternative wins, and SRCH-5, where the greedy code does. -/
theorem witness_SearchFindsLeastTotal :
    is16 0 ∧ is16 700 ∧ (∀ v ∈ [(1000 : Int), 1200], is16 v) ∧ greedy 0 34 300 = .ok 0x6#4 ∧
    value (search 0 34 300 [700, 1000, 1200]) = some (0x5#4, 2288) ∧ greedy 0 0 0 = .ok 0x0#4 ∧
    value (search 0 0 0 [0, 0, 0]) = some (0x0#4, 0) := by
  refine ⟨?_, ?_, ?_, rfl, by decide +kernel, rfl, by decide +kernel⟩ <;> (unfold is16; decide)

/-! A running mono stream, its host about to encode nine frames. -/

def running : State := asked { enc1 with ctxValid := true, cs := (atQuant (-24) 44).cs } (issue 0x00090002#32)

theorem witness_Invariant : Invariant running where
  pcm_wf := by decide +kernel
  pcm_inside := by decide +kernel
  adpcm_wf := by decide +kernel
  adpcm_inside := by decide +kernel
  latch := .inr (by decide +kernel)
  context := fun _ => rfl
  no_context := by decide
  mono := fun _ => rfl
  index := fun c => by cases c <;> decide +kernel
  result := by decide
  idle := rfl

theorem witness_StepKeepsInv : Invariant running ∧ ∃ t, step running = .next t ∧ (t.err == .noError) = true :=
  ⟨witness_Invariant, exists_next (by decide +kernel)⟩

theorem witness_StepGoesOn : Invariant running ∧ nextAdmitted running = true := ⟨witness_Invariant, rfl⟩

/-- ENC changes banks and ADPCM, CFG the latch, DEC and the host PCM, and the host ADPCM. -/
theorem witness_WhoWritesWhat :
    (running.seq.code = none ∧ ∀ rest, running.inbox ≠ .hardwareReset :: rest) ∧
    (∃ t, step running = .next t ∧ (t.cs != running.cs && t.adpcm != running.adpcm) = true) ∧
    (∃ t, step (asked { State.reset with config := 1, sampleRate := 8000 } (issue 1#32)) = .next t ∧
      (t.latch != Latch.invalid) = true) ∧
    (∃ t, step (asked dec1 (issue 0x00080003#32)) = .next t ∧ (t.pcm != dec1.pcm) = true) ∧
    (∃ t, step (asked mono (.write .pcm 0 2 5#32)) = .next t ∧ (t.pcm != mono.pcm) = true) ∧
    (∃ t, step (asked mono (.write .adpcm 0 1 5#32)) = .next t ∧ (t.adpcm != mono.adpcm) = true) :=
  ⟨⟨rfl, fun _ h => by cases h⟩, exists_next (by decide +kernel), exists_next (by decide +kernel),
    exists_next (by decide +kernel), exists_next (by decide +kernel), exists_next (by decide +kernel)⟩

end

end Sys2Proof.Tests
end

section
/-! PROOFS. The invariant of the machine: reset meets it, and each operation a step is made of keeps it. -/

namespace Sys2Proof.Machine

/-- Reset banks hold the index 0 (10_state.md R22, R40). -/
theorem zeroBanks_index_le (c : Channel) : (PerChannel.zeroBanks.get c).index.toNat ≤ 88 := by
  cases c <;> decide

/-- Every accepted block fits the ADPCM buffer (20_memory.md R60, 46_block_arithmetic.md R248). -/
theorem blockBytes_le_adpcmBytes {l : Latch} (h : l.legal = true) {n : Nat} (hn : n ≤ l.spb) :
    blockBytes l.ch n ≤ Config.adpcmBytes := by
  obtain ⟨-, -, -, -, hbs, -⟩ := (Latch.legal_iff l).mp h
  exact Nat.le_trans (blockBytes_le h hn) hbs

namespace Invariant

variable {s : State}

/-! ### Reset, the host's accesses and the end of a command -/

theorem reset : Invariant State.reset where
  pcm_wf := .nil
  pcm_inside := nofun
  adpcm_wf := .nil
  adpcm_inside := nofun
  latch := .inl rfl
  context := nofun
  no_context _ := rfl
  mono _ := rfl
  index := zeroBanks_index_le
  result _ := rfl
  idle := rfl

/-- No part of the invariant speaks of what the host wants and has read, or of the model's own counters. -/
theorem hardwareReset (s : State) : Invariant s.hardwareReset := { reset with }

theorem takeAccess (h : Invariant s) (rest : List HostAccess) : Invariant (s.takeAccess rest) := { h with }

theorem withReads (h : Invariant s) (reads : List Word) : Invariant { s with reads := reads } := { h with }

theorem finish (h : Invariant s) (r : Nat) : Invariant (s.finish r) :=
  { h with result := fun hne => absurd rfl hne, idle := rfl }

theorem raise (h : Invariant s) (e : ErrCode) : Invariant (s.raise e) :=
  { h with result := fun _ => rfl, idle := rfl }

/-- An admitted write lands inside its buffer, or on a register no part of the invariant speaks of. -/
theorem writeAt (h : Invariant s) {space : Space} {off bytes : Nat} (ha : space.admits off bytes = true) (v : Word) :
    Invariant (s.writeAt space off v) := by
  have ha := (admits_iff space off bytes).mp ha
  cases space with
  | regs => rcases writeAt_regs_cases s off v with ht | ht | ht | ht <;> rw [ht] <;> exact { h with }
  | pcm =>
    obtain ⟨-, -, hoff⟩ := ha
    exact { h with pcm_wf := writePcmEntry_wf h.pcm_wf _ _
                   pcm_inside := writePcmEntry_inside h.pcm_inside hoff _ }
  | adpcm =>
    obtain ⟨-, hoff⟩ := ha
    exact { h with adpcm_wf := Memory.write_wf h.adpcm_wf _ _
                   adpcm_inside := Memory.write_inside h.adpcm_inside hoff _ }

/-! ### CFG and RSTS -/

theorem invalidateContext (h : Invariant s) : Invariant s.invalidateContext :=
  { h with context := nofun, no_context := fun _ => rfl, mono := fun _ => rfl, index := zeroBanks_index_le }

/-- Without a context any latch CONFIGURE can leave is as good as another. -/
theorem invalidateContext_withLatch (h : Invariant s) {l : Latch} (hl : l = Latch.invalid ∨ l.legal = true) :
    Invariant { s.invalidateContext with latch := l } :=
  { h.invalidateContext with latch := hl, context := nofun, mono := fun _ => rfl }

theorem exec_cfg {t : State} (h : Invariant s) (ht : exec .cfg s = .next t) : Invariant t := by
  rcases execCfg_cases s with ⟨l, hl, he⟩ | ⟨e, -, he⟩ <;> rw [he] at ht <;> cases ht
  · exact (h.invalidateContext_withLatch (.inr (checkConfig_legal hl))).finish 0
  · exact (h.invalidateContext_withLatch (.inl rfl)).raise .configurationError

/-! ### ENC -/

/-- A coded block: its banks end on an applied code or as they began, and its bytes lie in the buffer. -/
theorem encoded (h : Invariant s) (hl : s.latch.legal = true) {n : Nat} (hn : 1 ≤ n) (hs : n ≤ s.latch.spb)
    {w : EncodeWork} (hw : s.encodedBlock n = .ok w) :
    Invariant { s with ctxValid := true, cs := w.cs, adpcm := w.adpcm } := by
  have hcoded := encodedBlock_coded hl hn hw
  obtain ⟨hcfg, hch, -⟩ := (Latch.legal_iff _).mp hl
  have hsize := blockBytes_le_adpcmBytes hl hs
  rw [blockBytes_pos hn] at hsize
  obtain ⟨hwf, hinside⟩ := encodeChunks_form hch hsize h.adpcm_wf h.adpcm_inside ((encodedBlock_ok hl hn).mp hw)
  have hindex : ∀ c, (w.cs.get c).index.toNat ≤ 88 := fun c => by
    by_cases hc : c.toNat < s.latch.ch
    · refine bankAfter_index_le (hcoded.banks c hc) ?_
      rw [startBanks_blockStart hl n hc]
      exact blockStart_index_le (h.index c)
    · rw [hcoded.otherBanks c hc]
      exact h.index c
  have hmono : s.latch.ch = 1 → w.cs.right = Chan.zero := fun h1 =>
    (hcoded.otherBanks .right (by simp [h1])).trans (h.mono h1)
  exact { h with adpcm_wf := hwf, adpcm_inside := hinside, context := fun _ => hcfg, no_context := nofun,
                 mono := hmono, index := hindex }

/-- The arbitrary values a failed ENC leaves are legal ones, in the banks in use and in the block only. -/
theorem afterEncodeError (h : Invariant s) (hl : s.latch.legal = true) {n : Nat} (hs : n ≤ s.latch.spb) :
    Invariant (s.afterEncodeError n) := by
  obtain ⟨hcfg, hch, -⟩ := (Latch.legal_iff _).mp hl
  have hbank := freeBanks_get (count := s.freeCount) hch s.cs
  have hindex : ∀ c, ((s.afterEncodeError n).cs.get c).index.toNat ≤ 88 := fun c => by
    rw [State.afterEncodeError_cs, hbank c]
    split
    · exact freeBank_index_le _ _
    · exact h.index c
  have hmono : s.latch.ch = 1 → (s.afterEncodeError n).cs.right = Chan.zero := fun h1 =>
    ((hbank .right).trans (if_neg (by simp [h1]))).trans (h.mono h1)
  exact { h with adpcm_wf := writePrefix_wf h.adpcm_wf _ _
                 adpcm_inside := writePrefix_inside h.adpcm_inside (blockBytes_le_adpcmBytes hl hs) _
                 context := fun _ => hcfg, no_context := nofun, mono := hmono, index := hindex }

theorem encodeBlock (h : Invariant s) (hl : s.latch.legal = true) {n : Nat} (hs : n ≤ s.latch.spb) :
    Invariant (s.encodeBlock n) := by
  rcases encodeBlock_cases s n with ⟨-, ht⟩ | ⟨hn, w, hw, ht⟩ | ⟨-, e, -, ht⟩ <;> rw [ht]
  · exact h.finish 0
  · exact (h.encoded hl hn hs hw).finish _
  · exact (h.afterEncodeError hl hs).raise e

theorem exec_enc {n : Nat} {t : State} (h : Invariant s) (ht : exec (.enc n) s = .next t) : Invariant t := by
  rcases execEnc_cases ht with ⟨-, rfl⟩ | ⟨-, -, rfl⟩ | ⟨hl, hs, rfl⟩
  · exact h.raise _
  · exact h.raise _
  · exact h.encodeBlock hl hs

/-! ### DEC -/

theorem afterDecodeError (h : Invariant s) (hl : s.latch.legal = true) {l : Nat} (hs : l ≤ s.latch.bs) :
    Invariant (s.afterDecodeError l) :=
  { h with pcm_wf := writePcmPrefix_wf h.pcm_wf _ _
           pcm_inside := writePcmPrefix_inside h.pcm_inside (frames_fit hl hs) _ }

/-- The working registers are no part of the invariant. -/
theorem withDec (h : Invariant s) (dec : PerChannel Quant) : Invariant { s with dec := dec } := { h with }

theorem withDecodeWork (h : Invariant s) {w : DecodeWork} (hwf : Memory.wf w.pcm)
    (hinside : Memory.inside w.pcm (2 * Config.pcmEntries)) : Invariant { s with dec := w.dec, pcm := w.pcm } :=
  { h with pcm_wf := hwf, pcm_inside := hinside }

theorem decodeBlock (h : Invariant s) (hl : s.latch.legal = true) {l : Nat} (hs : l ≤ s.latch.bs) :
    Invariant (s.decodeBlock l) := by
  rcases decodeBlock_cases s l with ⟨-, ht⟩ | ⟨-, -, ht⟩ | ⟨-, -, ht⟩ <;> rw [ht]
  · exact (h.afterDecodeError hl hs).raise _
  · exact ((h.afterDecodeError hl hs).withDec _).raise _
  · obtain ⟨-, hch, -⟩ := (Latch.legal_iff _).mp hl
    obtain ⟨hwf, hinside⟩ := decodeChunks_form hch s.adpcmAt
      (parseHeaders s.adpcmAt (channels s.latch.ch) s.dec).1 (frames_fit hl hs) h.pcm_wf h.pcm_inside
    exact (h.withDecodeWork hwf hinside).finish _

theorem exec_dec {l : Nat} {t : State} (h : Invariant s) (ht : exec (.dec l) s = .next t) : Invariant t := by
  rcases execDec_cases ht with ⟨-, rfl⟩ | ⟨-, -, rfl⟩ | ⟨hl, hs, rfl⟩
  · exact h.raise _
  · exact h.raise _
  · exact h.decodeBlock hl hs

/-! ### One step -/

theorem command {i : Instr} {w : Word} {t : State} (h : Invariant s) (hd : decode (.command w) = .ok i)
    (ht : exec i s = .next t) : Invariant t := by
  rcases decodeCommand_ok hd with rfl | rfl | ⟨n, rfl⟩ | ⟨l, rfl⟩
  · exact h.exec_cfg ht
  · cases ht
    exact h.invalidateContext.finish 0
  · exact h.exec_enc ht
  · exact h.exec_dec ht

theorem step {t : State} (h : Invariant s) (hst : Machine.step s = .next t) : Invariant t := by
  cases step_cases hst with
  | code n hcode _ =>
    rw [h.idle] at hcode
    cases hcode
  | idle _ _ ht => exact ht ▸ h
  | command _ w rest i _ hd ht => exact (h.takeAccess rest).command hd ht
  | illegal _ w rest _ ht _ => exact ht ▸ (h.takeAccess rest).raise _
  | write _ space off bytes v rest _ ha _ ht => exact ht ▸ (h.takeAccess rest).writeAt ha v
  | read _ space off bytes rest _ _ ht => exact ht ▸ (h.takeAccess rest).withReads _
  | reset _ rest _ ht => exact ht ▸ hardwareReset _

end Invariant

/-- Settles O57: reset zeroes what the invariant speaks of and lists no byte of a buffer. -/
theorem invAtReset : Obligations.InvAtReset := Invariant.reset

/-- Settles O58, by the cases of a step: each operation it is made of keeps the invariant. -/
theorem stepKeepsInv : Obligations.StepKeepsInv := fun _ _ h hst => h.step hst

end Sys2Proof.Machine
end

section
/-! PROOFS. One step: which instruction it runs. -/

namespace Sys2Proof.Machine

variable {s : State}

theorem step_eq_exec_of_code {n : Nibble} (hcode : s.seq.code = some n) :
    step s = exec (decodeCode n) s.takeCode := by
  simp only [step, State.pending, hcode, runCode]

theorem step_eq_exec_of_command {w : Word} {rest : List HostAccess} {i : Instr} (hcode : s.seq.code = none)
    (hinbox : s.inbox = HostAccess.writeReg .command w :: rest) (hd : decode (.command w) = .ok i) :
    step s = exec i (s.takeAccess rest) := by
  simp only [step, State.pending, hcode, hinbox, commandWord?_writeReg, runCommand, hd]

theorem step_eq_self_of_idle (hcode : s.seq.code = none) (hinbox : s.inbox = []) : step s = .next s := by
  simp only [step, State.pending, hcode, hinbox]

/-- A row's word, placed as the next one, runs before anything that waited (30_encoding.md R81, R91; log 5). -/
theorem step_withFetchWord {nbits w : Nat} {e : Encoding} {i : Instr} (he : tableEncoding nbits w = some e)
    (hd : decode e = .ok i) : step (s.withFetchWord nbits w) = exec i s.takeCode := by
  unfold tableEncoding at he
  by_cases hn : nbits ≤ 8
  · have hplaced : s.withFetchWord nbits w = { s with seq := { s.seq with code := some (BitVec.ofNat 4 w) } } :=
      if_pos hn
    rw [if_pos hn] at he
    split at he <;> cases he
    cases hd
    rw [hplaced]
    exact step_eq_exec_of_code rfl
  · have hplaced : s.withFetchWord nbits w = { s with
        seq := { s.seq with code := none }
        inbox := HostAccess.writeReg .command (BitVec.ofNat 32 w) :: s.inbox } := if_neg hn
    rw [if_neg hn] at he
    split at he <;> cases he
    rw [hplaced]
    exact step_eq_exec_of_command rfl rfl hd

/-- Settles O6, by what `step` finds pending. -/
theorem stepRunsDecodedInstruction : Obligations.StepRunsDecodedInstruction := by
  intro s
  refine ⟨fun n i hcode hd => ?_, fun w rest i hcode hinbox hd => step_eq_exec_of_command hcode hinbox hd,
    fun nbits w e i he hd => step_withFetchWord he hd, step_eq_self_of_idle⟩
  cases hd
  exact step_eq_exec_of_code hcode

end Sys2Proof.Machine
end

section
/-! PROOFS. What the commands leave unchanged, and which steps may change the banks, the latch and the buffers. -/

namespace Sys2Proof.Machine

variable {s t : State}

theorem exec_cfg_frame (h : exec .cfg s = .next t) : t.pcm = s.pcm ∧ t.adpcm = s.adpcm := by
  rcases execCfg_cases s with ⟨l, -, he⟩ | ⟨e, -, he⟩ <;> rw [he] at h <;> cases h <;> exact ⟨rfl, rfl⟩

theorem exec_rsts_frame (h : exec .rsts s = .next t) : t.latch = s.latch ∧ t.pcm = s.pcm ∧ t.adpcm = s.adpcm := by
  cases h
  exact ⟨rfl, rfl, rfl⟩

theorem exec_enc_frame {n : Nat} (h : exec (.enc n) s = .next t) : t.latch = s.latch ∧ t.pcm = s.pcm := by
  rcases execEnc_cases h with ⟨-, rfl⟩ | ⟨-, -, rfl⟩ | ⟨-, -, rfl⟩
  · exact ⟨rfl, rfl⟩
  · exact ⟨rfl, rfl⟩
  · rcases encodeBlock_cases s n with ⟨-, he⟩ | ⟨-, w, -, he⟩ | ⟨-, e, -, he⟩ <;> rw [he] <;> exact ⟨rfl, rfl⟩

theorem exec_dec_frame {l : Nat} (h : exec (.dec l) s = .next t) :
    t.cs = s.cs ∧ t.latch = s.latch ∧ t.adpcm = s.adpcm := by
  rcases execDec_cases h with ⟨-, rfl⟩ | ⟨-, -, rfl⟩ | ⟨-, -, rfl⟩
  · exact ⟨rfl, rfl, rfl⟩
  · exact ⟨rfl, rfl, rfl⟩
  · rcases decodeBlock_cases s l with ⟨-, he⟩ | ⟨-, -, he⟩ | ⟨-, -, he⟩ <;> rw [he] <;> exact ⟨rfl, rfl, rfl⟩

/-- A register write touches neither the banks nor the latch nor a buffer (47_host_commands.md R265). -/
theorem writeAt_regs_frame (s : State) (off : Nat) (v : Word) :
    (s.writeAt .regs off v).cs = s.cs ∧ (s.writeAt .regs off v).latch = s.latch ∧
    (s.writeAt .regs off v).pcm = s.pcm ∧ (s.writeAt .regs off v).adpcm = s.adpcm := by
  rcases writeAt_regs_cases s off v with h | h | h | h <;> rw [h] <;> exact ⟨rfl, rfl, rfl, rfl⟩

/-- Settles O60, by the cases of a step and the frame of each command. -/
theorem whoWritesWhat : Obligations.WhoWritesWhat := by
  intro s t hcode hst hreset runs
  cases step_cases hst with
  | code n hn _ =>
    rw [hcode] at hn
    cases hn
  | idle _ _ ht => subst ht; exact ⟨absurd rfl, absurd rfl, absurd rfl, absurd rfl⟩
  | illegal _ w rest _ ht _ => subst ht; exact ⟨absurd rfl, absurd rfl, absurd rfl, absurd rfl⟩
  | read _ space off bytes rest _ _ ht => subst ht; exact ⟨absurd rfl, absurd rfl, absurd rfl, absurd rfl⟩
  | reset _ rest hi _ => exact absurd hi (hreset rest)
  | write _ space off bytes v rest hi _ _ ht =>
    subst ht
    cases space with
    | regs =>
      obtain ⟨hcs, hlatch, hpcm, hadpcm⟩ := writeAt_regs_frame (s.takeAccess rest) off v
      exact ⟨absurd hcs, absurd hlatch, absurd hpcm, absurd hadpcm⟩
    | pcm => exact ⟨absurd rfl, absurd rfl, fun _ => .inr ⟨off, bytes, v, rest, hi⟩, absurd rfl⟩
    | adpcm => exact ⟨absurd rfl, absurd rfl, absurd rfl, fun _ => .inr ⟨off, bytes, v, rest, hi⟩⟩
  | command _ w rest i hi hd ht =>
    have hruns : ∀ p : Instr → Prop, p i → runs p := fun p hp => ⟨w, rest, i, hi, hd, hp⟩
    rcases decodeCommand_ok hd with rfl | rfl | ⟨n, rfl⟩ | ⟨l, rfl⟩
    · obtain ⟨hpcm, hadpcm⟩ := exec_cfg_frame ht
      exact ⟨fun _ => hruns _ (.inl rfl), fun _ => hruns _ rfl, absurd hpcm, absurd hadpcm⟩
    · obtain ⟨hlatch, hpcm, hadpcm⟩ := exec_rsts_frame ht
      exact ⟨fun _ => hruns _ (.inr (.inl rfl)), absurd hlatch, absurd hpcm, absurd hadpcm⟩
    · obtain ⟨hlatch, hpcm⟩ := exec_enc_frame ht
      exact ⟨fun _ => hruns _ (.inr (.inr ⟨n, rfl⟩)), absurd hlatch, absurd hpcm, fun _ => .inl (hruns _ ⟨n, rfl⟩)⟩
    · obtain ⟨hcs, hlatch, hadpcm⟩ := exec_dec_frame ht
      exact ⟨absurd hcs, absurd hlatch, fun _ => .inl (hruns _ ⟨l, rfl⟩), absurd hadpcm⟩

end Sys2Proof.Machine
end

section
/-! PROOFS. How a command ends: RESULT and FAULT (10_state.md R32, R33; 60_exceptions.md R301). -/

namespace Sys2Proof.Machine

variable {s t : State} {i : Instr}

/-! ### Success or an error -/

/-- Every command ends with success, which leaves FAULT, or with the error epilogue (60_exceptions.md R301). -/
theorem command_ends (hi : isCommand i = true) (h : exec i s = .next t) :
    (t.err = .noError ∧ t.fault = s.fault) ∨ (t.result = 0 ∧ t.fault = (s.fault || t.err.setsFault)) := by
  cases i <;> cases hi
  case cfg =>
    rcases execCfg_cases s with ⟨l, -, he⟩ | ⟨e, -, he⟩ <;> rw [he] at h <;> cases h
    · exact .inl ⟨rfl, rfl⟩
    · exact .inr ⟨rfl, rfl⟩
  case rsts =>
    cases h
    exact .inl ⟨rfl, rfl⟩
  case enc n =>
    rcases execEnc_cases h with ⟨-, rfl⟩ | ⟨-, -, rfl⟩ | ⟨-, -, rfl⟩
    · exact .inr ⟨rfl, rfl⟩
    · exact .inr ⟨rfl, rfl⟩
    · rcases encodeBlock_cases s n with ⟨-, he⟩ | ⟨-, w, -, he⟩ | ⟨-, e, -, he⟩ <;> rw [he]
      · exact .inl ⟨rfl, rfl⟩
      · exact .inl ⟨rfl, rfl⟩
      · exact .inr ⟨rfl, rfl⟩
  case dec l =>
    rcases execDec_cases h with ⟨-, rfl⟩ | ⟨-, -, rfl⟩ | ⟨-, -, rfl⟩
    · exact .inr ⟨rfl, rfl⟩
    · exact .inr ⟨rfl, rfl⟩
    · rcases decodeBlock_cases s l with ⟨-, he⟩ | ⟨-, -, he⟩ | ⟨-, -, he⟩ <;> rw [he]
      · exact .inr ⟨rfl, rfl⟩
      · exact .inr ⟨rfl, rfl⟩
      · exact .inl ⟨rfl, rfl⟩

theorem ErrCode.setsFault_iff (e : ErrCode) :
    e.setsFault = true ↔ e = .numericRange ∨ e = .encodingSizeMismatch := by
  cases e <;> decide

/-! ### RESULT -/

theorem exec_cfg_result (h : exec .cfg s = .next t) : t.result = 0 := by
  rcases execCfg_cases s with ⟨l, -, he⟩ | ⟨e, -, he⟩ <;> rw [he] at h <;> cases h <;> rfl

theorem exec_rsts_result (h : exec .rsts s = .next t) : t.result = 0 := by
  cases h
  rfl

/-- The bytes written by an ENC that succeeds (43_encoder.md R189). -/
theorem exec_enc_result {n : Nat} (h : exec (.enc n) s = .next t) (ht : t.err = .noError) :
    t.result.toNat = blockBytes s.latch.ch n := by
  rcases execEnc_cases h with ⟨-, rfl⟩ | ⟨-, -, rfl⟩ | ⟨hl, hs, rfl⟩
  · cases ht
  · cases ht
  · have hfits := blockBytes_le_adpcmBytes hl hs
    rw [show Config.adpcmBytes = 32768 from rfl] at hfits
    rcases encodeBlock_cases s n with ⟨rfl, he⟩ | ⟨hn, w, hw, he⟩ | ⟨hn, e, hw, he⟩ <;> rw [he] at ht ⊢
    · rfl
    · have hwritten := (encodedBlock_coded hl hn hw).written
      rw [← blockBytes_pos hn] at hwritten
      rw [State.finish_result, hwritten, BitVec.toNat_ofNat]
      omega
    · rw [State.raise_err, (encodedBlock_error hl hn hw).1] at ht
      cases ht

/-- The frames written by a DEC that succeeds (41_decoder.md R155). -/
theorem exec_dec_result {l : Nat} (h : exec (.dec l) s = .next t) (ht : t.err = .noError) :
    t.result.toNat = frameCount s.latch.ch l := by
  rcases execDec_cases h with ⟨-, rfl⟩ | ⟨-, -, rfl⟩ | ⟨hl, hs, rfl⟩
  · cases ht
  · cases ht
  · obtain ⟨-, hch, -⟩ := (Latch.legal_iff _).mp hl
    have hfits : frameCount s.latch.ch l ≤ 65536 :=
      Nat.le_trans (Nat.le_mul_of_pos_left _ (by omega)) (frames_fit hl hs)
    rcases decodeBlock_cases s l with ⟨-, he⟩ | ⟨-, -, he⟩ | ⟨-, -, he⟩ <;> rw [he] at ht ⊢
    · cases ht
    · cases ht
    · rw [State.finish_result, BitVec.toNat_ofNat]
      omega

theorem command_result_of_error (hi : isCommand i = true) (h : exec i s = .next t) (ht : t.err ≠ .noError) :
    t.result = 0 := by
  rcases command_ends hi h with ⟨herr, -⟩ | ⟨hres, -⟩
  · exact absurd herr ht
  · exact hres

/-- Settles O24, command by command. -/
theorem resultCounts : Obligations.ResultCounts := fun _ _ =>
  ⟨exec_cfg_result, exec_rsts_result, fun _ h => exec_enc_result h, fun _ h => exec_dec_result h,
    fun _ hi h => command_result_of_error hi h⟩

/-! ### FAULT -/

theorem command_fault_iff (hi : isCommand i = true) (h : exec i s = .next t) :
    t.fault = true ↔ s.fault = true ∨ t.err = .numericRange ∨ t.err = .encodingSizeMismatch := by
  rcases command_ends hi h with ⟨herr, hf⟩ | ⟨-, hf⟩
  · simp [hf, herr]
  · rw [hf, Bool.or_eq_true, ErrCode.setsFault_iff]

/-- A step that finds FAULT set and is no hardware reset leaves it set. -/
theorem step_keeps_fault_or_resets (h : step s = .next t) (hs : s.fault = true) :
    t.fault = true ∨ ∃ rest, s.inbox = .hardwareReset :: rest := by
  cases step_cases h with
  | code n _ ht =>
    by_cases hi : isCommand (decodeCode n) = true
    · exact .inl ((command_fault_iff hi ht).mpr (.inl hs))
    · obtain ⟨m, hm⟩ := exec_code (Bool.not_eq_true _ ▸ hi) s.takeCode
      rw [hm] at ht
      cases ht
      exact .inl ((State.setSelectedQuant_fault _ _).trans hs)
  | idle _ _ ht => exact .inl (ht ▸ hs)
  | command _ w rest i _ hd ht =>
    have hi : isCommand i = true := by
      rcases decodeCommand_ok hd with rfl | rfl | ⟨n, rfl⟩ | ⟨l, rfl⟩ <;> rfl
    exact .inl ((command_fault_iff hi ht).mpr (.inl hs))
  | illegal _ w rest _ ht _ =>
    subst ht
    simp [hs]
  | write _ space off bytes v rest _ _ _ ht =>
    subst ht
    left
    cases space with
    | regs => rcases writeAt_regs_cases (s.takeAccess rest) off v with he | he | he | he <;> rw [he] <;> exact hs
    | pcm => exact hs
    | adpcm => exact hs
  | read _ space off bytes rest _ _ ht => exact .inl (ht ▸ hs)
  | reset _ rest hi _ => exact .inr ⟨rest, hi⟩

/-! ### Under FAULT a command runs as without it -/

/-- The state with FAULT set and nothing else changed. -/
def State.withFault (s : State) : State := { s with fault := true }

theorem withFault_applySelected (s : State) (n : Nibble) :
    s.withFault.applySelected n = (s.applySelected n).withFault := by
  simp only [State.applySelected, State.selectedQuant, State.setSelectedQuant, State.withFault]
  cases s.seq.engine <;> rfl

theorem withFault_encodeBlock (s : State) (n : Nat) :
    s.withFault.encodeBlock n = (s.encodeBlock n).withFault := by
  have hsame : s.withFault.encodedBlock n = s.encodedBlock n := rfl
  unfold State.encodeBlock
  rw [hsame]
  split
  · rfl
  · cases s.encodedBlock n <;> rfl

theorem withFault_decodeBlock (s : State) (l : Nat) :
    s.withFault.decodeBlock l = (s.decodeBlock l).withFault := by
  simp only [State.decodeBlock, apply_ite State.withFault]
  rfl

/-- The same outcome, with FAULT set in the state it goes on to. -/
def withFaultNext : Host.Outcome State Fault Refusal → Host.Outcome State Fault Refusal
  | .next t => .next t.withFault
  | .fault r => .fault r
  | .refused r => .refused r

theorem exec_cfg_withFault (s : State) : exec .cfg s.withFault = withFaultNext (exec .cfg s) := by
  simp only [exec, execCfg, State.invalidateContext, State.withFault]
  cases checkConfig s.config s.blockSize s.sampleRate <;> rfl

theorem exec_enc_withFault (n : Nat) (s : State) :
    exec (.enc n) s.withFault = withFaultNext (exec (.enc n) s) := by
  simp only [exec, execEnc, withFault_encodeBlock, apply_ite withFaultNext]
  rfl

theorem exec_dec_withFault (l : Nat) (s : State) :
    exec (.dec l) s.withFault = withFaultNext (exec (.dec l) s) := by
  simp only [exec, execDec, withFault_decodeBlock, apply_ite withFaultNext]
  rfl

/-- No instruction reads FAULT, and none clears it. -/
theorem exec_withFault (i : Instr) (s : State) : exec i s.withFault = withFaultNext (exec i s) := by
  cases i with
  | cfg => exact exec_cfg_withFault s
  | enc n => exact exec_enc_withFault n s
  | dec l => exact exec_dec_withFault l s
  | rsts => rfl
  | _ => exact congrArg Host.Outcome.next (withFault_applySelected s _)

/-- Settles O23, by how a command ends, by the cases of a step, and by `exec_withFault`. -/
theorem faultIsSticky : Obligations.FaultIsSticky := by
  refine ⟨fun i s t hi h => command_fault_iff hi h, fun s t h hs ht => ?_, fun i s t h => ?_⟩
  · exact (step_keeps_fault_or_resets h hs).resolve_left (by simp [ht])
  · exact (exec_withFault i { s with fault := false }).trans (congrArg withFaultNext h)

end Sys2Proof.Machine
end

section
/-! PROOFS. The register space as the host reads it (10_state.md R26 to R36). -/

namespace Sys2Proof.Machine

/-! ### STATUS (R31) -/

theorem nsField_toNat (l : Latch) : l.nsField.toNat =
    if l.cfgValid = false ∨ l.nsMode = .off then 0 else if l.nsMode = .static then 1 else 2 := by
  unfold Latch.nsField
  cases l.cfgValid <;> cases l.nsMode <;> rfl

theorem statusWord_err (s : State) : s.statusWord.extractLsb' 0 4 = s.err.code := by
  unfold State.statusWord
  iterate 5 refine (BitVec.extractLsb'_append_eq_of_add_le (by decide)).trans ?_
  exact BitVec.extractLsb'_append_eq_right

theorem statusWord_nsField (s : State) : s.statusWord.extractLsb' 8 2 = s.latch.nsField :=
  (BitVec.extractLsb'_append_eq_of_add_le (by decide)).trans BitVec.extractLsb'_append_eq_left

theorem statusWord_high (s : State) : s.statusWord.extractLsb' 10 22 = 0 := BitVec.extractLsb'_append_eq_left

/-- The single bits of STATUS, from bit 4 to bit 7. -/
theorem statusWord_bits (s : State) :
    s.statusWord.getLsbD 4 = s.latch.cfgValid ∧ s.statusWord.getLsbD 5 = s.ctxValid ∧
    s.statusWord.getLsbD 6 = s.fault ∧ s.statusWord.getLsbD 7 = false := by
  simp only [State.statusWord, BitVec.getLsbD_append]
  simp

/-- Settles O26, field by field. -/
theorem statusLayout : Obligations.StatusLayout := by
  refine ⟨fun s => ?_, rfl⟩
  obtain ⟨hcfg, hctx, hfault, hzero⟩ := statusWord_bits s
  refine ⟨statusWord_err s, hcfg, hctx, hfault, hzero, ?_, statusWord_high s⟩
  rw [statusWord_nsField, nsField_toNat]

/-! ### The derived registers (R34, R35, R36) -/

/-- The sizes of a legal latch in bounds the 32-bit registers hold. -/
theorem Latch.legal_bounds {l : Latch} (h : l.legal = true) :
    l.bs ≤ 32768 ∧ l.bs ≤ 2 * l.spb ∧ l.spb ≤ 65536 ∧ 0 < l.spb := by
  obtain ⟨-, hch, -, hlo, hhi, -, hspb, -⟩ := (Latch.legal_iff l).mp h
  rcases hch with hch | hch <;> rw [hch] at hspb
  · rw [samplesPerBlock_one] at hspb; omega
  · rw [samplesPerBlock_two] at hspb; omega

/-- The quotient is below twice the greatest rate, because a block has at most twice as many bytes as frames. -/
theorem Latch.bytesPerSecond_lt {l : Latch} (h : l.legal = true) : l.rate * l.bs / l.spb < 2 ^ 32 := by
  obtain ⟨-, hbs, -, hpos⟩ := Latch.legal_bounds h
  obtain ⟨-, -, -, -, -, -, -, -, hrate⟩ := (Latch.legal_iff l).mp h
  rw [Nat.div_lt_iff_lt_mul hpos]
  calc l.rate * l.bs ≤ 2147483647 * (2 * l.spb) := Nat.mul_le_mul hrate hbs
    _ < 2 ^ 32 * l.spb := by omega

theorem Latch.bytesPerSecond_eq {l : Latch} (h : l.legal = true) :
    bytesPerSecond l.ch l.bs l.rate = l.rate * l.bs / l.spb := by
  obtain ⟨-, -, -, -, -, -, hspb, -⟩ := (Latch.legal_iff l).mp h
  rw [hspb, bytesPerSecond]

section Derived

variable {s : State}

theorem readRegister_effBlockSize (h : s.latch.legal = true) :
    (s.readRegister .effBlockSize).toNat = s.latch.bs := by
  obtain ⟨hbs, -⟩ := Latch.legal_bounds h
  simp only [State.readRegister, Latch.legal_cfgValid h, if_true, BitVec.toNat_ofNat]
  omega

theorem readRegister_samplesPerBlock (h : s.latch.legal = true) :
    (s.readRegister .samplesPerBlock).toNat = s.latch.spb := by
  obtain ⟨-, -, hspb, -⟩ := Latch.legal_bounds h
  simp only [State.readRegister, Latch.legal_cfgValid h, if_true, BitVec.toNat_ofNat]
  omega

theorem readRegister_bytesPerSecond (h : s.latch.legal = true) :
    (s.readRegister .bytesPerSecond).toNat = bytesPerSecond s.latch.ch s.latch.bs s.latch.rate := by
  have hlt := Latch.bytesPerSecond_lt h
  rw [← Latch.bytesPerSecond_eq h] at hlt
  simp only [State.readRegister, Latch.legal_cfgValid h, if_true, BitVec.toNat_ofNat]
  exact Nat.mod_eq_of_lt hlt

/-- Without a configuration the derived registers read 0 (R36). -/
theorem readRegister_derived_of_invalid (h : s.latch.cfgValid = false) :
    s.readRegister .effBlockSize = 0 ∧ s.readRegister .samplesPerBlock = 0 ∧ s.readRegister .bytesPerSecond = 0 := by
  simp [State.readRegister, h]

end Derived

/-- Settles O18, by the bound on the quotient. -/
theorem bytesPerSecondFits : Obligations.BytesPerSecondFits := fun _ h =>
  ⟨Latch.bytesPerSecond_lt h, (readRegister_bytesPerSecond h).trans (Latch.bytesPerSecond_eq h)⟩

/-! ### The map (R26) -/

/-- The table lists every register at its own offset. -/
theorem registerAt_offset (r : Register) : registerAt r.offset = some r := by
  cases r with
  | chSample c | chIndex c | chHist0 c | chHist1 c | chWeight c | chError c => cases c <;> rfl
  | _ => rfl

theorem readAt_offset (s : State) (r : Register) : s.readAt .regs r.offset = s.readRegister r := by
  simp only [State.readAt, registerAt_offset]

/-- An offset no register has reads 0. -/
theorem readAt_unlisted (s : State) {off : Nat} (h : off ∉ registerList.map Register.offset) :
    s.readAt .regs off = 0 := by
  have hnone : registerAt off = none := by
    refine List.find?_eq_none.mpr fun r hr hoff => h ?_
    exact List.mem_map.mpr ⟨r, hr, beq_iff_eq.mp hoff⟩
  simp only [State.readAt, hnone]

/-- Settles O27, by the register at each offset. -/
theorem registerMap : Obligations.RegisterMap := by
  intro s
  have hread := readAt_offset s
  refine ⟨hread .config, hread .blockSize, hread .sampleRate, hread .command, hread .status, hread .result,
    fun h => ?_, fun h => ?_, fun c => ?_, fun off h => readAt_unlisted s h⟩
  · obtain ⟨hbs, hspb, hbps⟩ := readRegister_derived_of_invalid h
    exact ⟨(hread .effBlockSize).trans hbs, (hread .samplesPerBlock).trans hspb,
      (hread .bytesPerSecond).trans hbps⟩
  · exact ⟨(congrArg _ (hread .effBlockSize)).trans (readRegister_effBlockSize h),
      (congrArg _ (hread .samplesPerBlock)).trans (readRegister_samplesPerBlock h),
      (congrArg _ (hread .bytesPerSecond)).trans (readRegister_bytesPerSecond h)⟩
  · exact ⟨(congrArg _ (hread (.chSample c))).trans (BitVec.toInt_signExtend_of_le (by decide)),
      (congrArg _ (hread (.chIndex c))).trans (BitVec.toNat_setWidth_of_le (by decide)),
      (congrArg _ (hread (.chHist0 c))).trans (BitVec.toInt_signExtend_of_le (by decide)),
      (congrArg _ (hread (.chHist1 c))).trans (BitVec.toInt_signExtend_of_le (by decide)),
      hread (.chWeight c), hread (.chError c)⟩

end Sys2Proof.Machine
end

section
/-! PROOFS. One host access: a read, a write of a buffer, and a refused access (20_memory.md R66, R67). -/

namespace Sys2Proof.Machine

variable {s : State} {space : Space} {off bytes : Nat} {v : Word} {rest : List HostAccess}

/-! ### What a step makes of an access -/

theorem step_eq_perform {a : HostAccess} (hcode : s.seq.code = none) (hinbox : s.inbox = a :: rest)
    (hw : a.commandWord? = none) : step s = (s.takeAccess rest).perform a := by
  simp only [step, State.pending, hcode, hinbox, hw]

theorem perform_read (ha : space.admits off bytes = true) :
    s.perform (.read space off bytes) = .next { s with reads := s.readAt space off :: s.reads } := if_pos ha

theorem perform_write (ha : space.admits off bytes = true) :
    s.perform (.write space off bytes v) = .next (s.writeAt space off v) := if_pos ha

/-! ### Reads -/

theorem readAt_pcm (s : State) (i : Nat) : s.readAt .pcm (2 * i) = (s.pcmAt i).setWidth 32 := by
  simp only [State.readAt, Nat.mul_div_cancel_left i Nat.two_pos]

/-- Settles O28: an admitted read is performed, and recording its value is all it does. -/
theorem readsHaveNoSideEffect : Obligations.ReadsHaveNoSideEffect := by
  refine ⟨fun s space off bytes rest hcode hinbox hin => ?_, readAt_pcm, fun _ _ => rfl⟩
  have ha : space.admits off bytes = true := (admits_iff space off bytes).mpr (by cases space <;> exact hin)
  exact (step_eq_perform hcode hinbox rfl).trans (perform_read ha)

/-! ### Writes of the buffers -/

/-- The two bytes of the entry just written (R62). -/
theorem pcmByte_writePcmEntry (m : Memory) (epoch i : Nat) (x : Half) :
    pcmByte (writePcmEntry m i x) epoch (2 * i) = x.extractLsb' 0 8 ∧
    pcmByte (writePcmEntry m i x) epoch (2 * i + 1) = x.extractLsb' 8 8 := by
  simp [writePcmEntry, pcmByte_write]

theorem writeAt_pcm (s : State) (i : Nat) (v : Word) :
    s.writeAt .pcm (2 * i) v = { s with pcm := writePcmEntry s.pcm i (v.setWidth 16) } := by
  simp only [State.writeAt, Nat.mul_div_cancel_left i Nat.two_pos]

theorem step_write_pcm {i : Nat} (hcode : s.seq.code = none) (hinbox : s.inbox = .write .pcm (2 * i) 2 v :: rest)
    (hi : i < 65536) :
    step s = .next { s with inbox := rest, pcm := writePcmEntry s.pcm i (v.setWidth 16) } := by
  have ha : Space.pcm.admits (2 * i) 2 = true := (admits_iff .pcm (2 * i) 2).mpr ⟨rfl, by omega, by omega⟩
  rw [step_eq_perform hcode hinbox rfl, perform_write ha, writeAt_pcm]
  rfl

theorem step_write_adpcm {i : Nat} (hcode : s.seq.code = none) (hinbox : s.inbox = .write .adpcm i 1 v :: rest)
    (hi : i < 32768) : step s = .next { s with inbox := rest, adpcm := Memory.write s.adpcm i (v.setWidth 8) } :=
  (step_eq_perform hcode hinbox rfl).trans (perform_write ((admits_iff .adpcm i 1).mpr ⟨rfl, hi⟩))

/-- Settles O30, by read after write in each buffer. -/
theorem bufferWrites : Obligations.BufferWrites := by
  intro s i v rest hcode
  constructor
  · intro hinbox hi
    obtain ⟨hlow, hhigh⟩ := pcmByte_writePcmEntry s.pcm s.epoch i (v.setWidth 16)
    exact ⟨_, step_write_pcm hcode hinbox hi, rfl, fun j => pcmEntry_writePcmEntry _ _ i j _,
      hlow.trans (BitVec.extractLsb'_setWidth_of_le (by decide)),
      hhigh.trans (BitVec.extractLsb'_setWidth_of_le (by decide))⟩
  · intro hinbox hi
    exact ⟨_, step_write_adpcm hcode hinbox hi, rfl, fun x => adpcmByte_write _ _ i x _⟩

/-! ### Accesses outside the interface -/

/-- The access that carries a command word is inside the interface (10_state.md R30). -/
theorem commandWord_write_of_outside (ha : ¬ space.admits off bytes = true) :
    (HostAccess.write space off bytes v).commandWord? = none := by
  refine Option.eq_none_iff_forall_ne_some.mpr fun w hw => ha ?_
  cases commandWord_eq_some hw
  rfl

theorem step_write_outside (hcode : s.seq.code = none) (hinbox : s.inbox = .write space off bytes v :: rest)
    (ha : ¬ space.admits off bytes = true) : step s = .refused .outsideInterface :=
  (step_eq_perform hcode hinbox (commandWord_write_of_outside ha)).trans (if_neg ha)

theorem step_read_outside (hcode : s.seq.code = none) (hinbox : s.inbox = .read space off bytes :: rest)
    (ha : ¬ space.admits off bytes = true) : step s = .refused .outsideInterface :=
  (step_eq_perform hcode hinbox rfl).trans (if_neg ha)

/-- Settles O31: an access that is not admitted carries no command word, and is refused when it is performed. -/
theorem outsideAccessesAreRefused : Obligations.OutsideAccessesAreRefused := by
  intro s space off bytes v rest hcode hinbox hout
  have ha : ¬ space.admits off bytes = true := fun ha => by
    have hin := (admits_iff space off bytes).mp ha
    cases space <;> simp only at hin hout <;> omega
  rcases hinbox with hinbox | hinbox
  · exact step_write_outside hcode hinbox ha
  · exact step_read_outside hcode hinbox ha

end Sys2Proof.Machine
end

section
/-! PROOFS. ENC: what it leaves unchanged and what it depends on (20_memory.md R65). -/

namespace Sys2Proof.Machine

variable {s t u : State} {n : Nat}

/-! ### How an ENC ends -/

theorem Latch.legal_ch {l : Latch} (h : l.legal = true) : l.ch = 1 ∨ l.ch = 2 := by
  obtain ⟨-, hch, -⟩ := (Latch.legal_iff l).mp h
  exact hch

/-- Everything an ENC that goes on can have done. -/
inductive EncCase (s t : State) (n : Nat) : Prop where
  /-- The command was rejected (60_exceptions.md R302). -/
  | rejected (e : ErrCode) (he : e = .notConfigured ∨ e = .badLength) (ht : t = s.raise e)
  /-- The block was empty (43_encoder.md R182). -/
  | empty (hl : s.latch.legal = true) (hn : n = 0) (ht : t = s.finish 0)
  /-- The block was encoded (R189). -/
  | coded (hl : s.latch.legal = true) (hs : n ≤ s.latch.spb) (hn : 1 ≤ n) (w : EncodeWork)
      (hw : s.encodedBlock n = .ok w)
      (ht : t = { s with ctxValid := true, cs := w.cs, adpcm := w.adpcm }.finish w.written)
  /-- A checked value left its range (R305). -/
  | outOfRange (hl : s.latch.legal = true) (hn : 1 ≤ n) (ht : t = (s.afterEncodeError n).raise .numericRange)

theorem exec_enc_case (h : exec (.enc n) s = .next t) : EncCase s t n := by
  rcases execEnc_cases h with ⟨-, ht⟩ | ⟨-, -, ht⟩ | ⟨hl, hs, rfl⟩
  · exact .rejected _ (.inl rfl) ht
  · exact .rejected _ (.inr rfl) ht
  · rcases encodeBlock_cases s n with ⟨hn, ht⟩ | ⟨hn, w, hw, ht⟩ | ⟨hn, e, hw, ht⟩
    · exact .empty hl hn ht
    · exact .coded hl hs hn w hw ht
    · exact .outOfRange hl hn ((encodedBlock_error hl hn hw).1 ▸ ht)

/-! ### What ENC leaves unchanged -/

theorem exec_enc_keeps_rest (h : exec (.enc n) s = .next t) :
    t = { s with err := t.err, result := t.result, fault := t.fault, ctxValid := t.ctxValid, cs := t.cs,
                 adpcm := t.adpcm, seq := t.seq, freeCount := t.freeCount } := by
  cases exec_enc_case h with
  | rejected _ _ ht | empty _ _ ht | coded _ _ _ _ _ ht | outOfRange _ _ ht => rw [ht]; rfl

/-- ENC writes no byte past the block (43_encoder.md R180, R188; 60_exceptions.md R305). -/
theorem exec_enc_adpcmAt_beyond (h : exec (.enc n) s = .next t) {a : Nat} (ha : blockBytes s.latch.ch n ≤ a) :
    t.adpcmAt a = s.adpcmAt a := by
  cases exec_enc_case h with
  | rejected _ _ ht | empty _ _ ht => rw [ht]; rfl
  | coded hl _ hn w hw ht =>
    rw [ht]
    exact (encodedBlock_coded hl hn hw).otherBytes _ a (blockBytes_pos hn ▸ ha)
  | outOfRange _ _ ht =>
    rw [ht]
    exact (adpcmByte_writePrefix _ _ _ _ _).trans (if_neg (Nat.not_lt.mpr ha))

/-- ENC leaves the bank of a channel not in use (10_state.md R23; 60_exceptions.md R305). -/
theorem exec_enc_bank_unused (h : exec (.enc n) s = .next t) {c : Channel} (hc : s.latch.ch ≤ c.toNat) :
    t.cs.get c = s.cs.get c := by
  have hc := Nat.not_lt.mpr hc
  cases exec_enc_case h with
  | rejected _ _ ht | empty _ _ ht => rw [ht]; rfl
  | coded hl _ hn w hw ht =>
    rw [ht]
    exact (encodedBlock_coded hl hn hw).otherBanks c hc
  | outOfRange hl _ ht =>
    rw [ht]
    exact (freeBanks_get (Latch.legal_ch hl) s.cs c).trans (if_neg hc)

/-- An empty block and a rejected ENC change neither the context nor ADPCM (43_encoder.md R182;
60_exceptions.md R302). -/
theorem exec_enc_without_effect (h : exec (.enc n) s = .next t)
    (hno : n = 0 ∨ t.err = .notConfigured ∨ t.err = .badLength) :
    t.cs = s.cs ∧ t.ctxValid = s.ctxValid ∧ t.adpcm = s.adpcm := by
  cases exec_enc_case h with
  | rejected _ _ ht | empty _ _ ht => rw [ht]; exact ⟨rfl, rfl, rfl⟩
  | coded _ _ hn _ _ ht | outOfRange _ hn ht =>
    subst ht
    rcases hno with h0 | herr | herr
    · omega
    · cases herr
    · cases herr

/-- Settles O46, by the cases of ENC. (The name stands apart from the model's function `encodeFrame`.) -/
theorem EncCase.encodeFrame : Obligations.EncodeFrame := fun _ _ _ h =>
  ⟨exec_enc_keeps_rest h, fun _ => exec_enc_adpcmAt_beyond h, fun _ => exec_enc_bank_unused h,
    exec_enc_without_effect h⟩

/-! ### Every byte of a block is a header's or holds two codes -/

theorem exists_channel {ch m : Nat} (hch : ch = 1 ∨ ch = 2) (hm : m < ch) : ∃ c : Channel, c.toNat = m := by
  obtain rfl | rfl : m = 0 ∨ m = 1 := by omega
  · exact ⟨.left, rfl⟩
  · exact ⟨.right, rfl⟩

/-- The places of a block of `chunks` chunks (30_encoding.md R83, R85, R87): no byte of it is left out. -/
theorem block_byte_cases {ch chunks a : Nat} (hch : ch = 1 ∨ ch = 2) (ha : a < 4 * ch * (1 + chunks)) :
    (∃ c k, c.toNat < ch ∧ k < 4 ∧ headerAddress c k = a) ∨
    ∃ c f, c.toNat < ch ∧ 1 ≤ f ∧ f + 1 ≤ 8 * chunks ∧
      codePlace ch f c = (a, 0) ∧ codePlace ch (f + 1) c = (a, 1) := by
  by_cases hheader : a < 4 * ch
  · obtain ⟨c, hc⟩ := exists_channel (m := a / 4) hch (by omega)
    exact .inl ⟨c, a % 4, by omega, by omega, by rw [headerAddress, hc]; omega⟩
  · let k := (a - 4 * ch) / (4 * ch)
    let b := (a - 4 * ch) % 4
    have hm : (a - 4 * ch) % (4 * ch) / 4 < ch := by rcases hch with rfl | rfl <;> omega
    obtain ⟨c, hc⟩ := exists_channel hch hm
    have hk : k < chunks := by rcases hch with rfl | rfl <;> omega
    have haddress : (lanePositionByte k c b).address ch = a := by
      simp only [lanePositionByte, Position.address, hc, k, b]
      rcases hch with rfl | rfl <;> omega
    exact .inr ⟨c, 8 * k + 2 * b + 1, hc ▸ hm, by omega, by omega,
      haddress ▸ codePlace_low ch k c (by omega), haddress ▸ codePlace_high ch k c (by omega)⟩

/-! ### What ENC depends on -/

/-- What a coded block holds and leaves is determined by the inputs and the start banks of the channels in use. -/
theorem BlockCoded.unique {mode : NsMode} {ch frames : Nat} {x y : Channel → Nat → Int}
    {start start' cs : PerChannel Chan} {adpcm adpcm' : Memory} {w w' : EncodeWork} (hch : ch = 1 ∨ ch = 2)
    (hframes : frames - 1 = 8 * ((frames - 1) / 8)) (h : BlockCoded mode ch frames x start cs adpcm w)
    (h' : BlockCoded mode ch frames y start' cs adpcm' w') (hx : ∀ c, c.toNat < ch → y c = x c)
    (hstart : ∀ c, c.toNat < ch → start'.get c = start.get c) :
    w'.cs = w.cs ∧ w'.written = w.written ∧ ∀ epoch epoch' a, a < 4 * ch * (1 + (frames - 1) / 8) →
      adpcmByte w'.adpcm epoch' a = adpcmByte w.adpcm epoch a := by
  refine ⟨PerChannel.ext_get fun c => ?_, h'.written.trans h.written.symm, fun epoch epoch' a ha => ?_⟩
  · by_cases hc : c.toNat < ch
    · have hbank := h'.banks c hc
      rw [hx c hc, hstart c hc, h.banks c hc] at hbank
      exact (Except.ok.inj hbank).symm
    · exact (h'.otherBanks c hc).trans (h.otherBanks c hc).symm
  · rcases block_byte_cases hch ha with ⟨c, k, hc, hk, rfl⟩ | ⟨c, f, hc, h1, hf, hlow, hhigh⟩
    · rw [h'.headers epoch' c k hc hk, h.headers epoch c k hc hk, hstart c hc]
    · have hcode : ∀ g, 1 ≤ g → g ≤ frames - 1 →
          codeOfByte (adpcmByte w'.adpcm epoch' (codePlace ch g c).1) (codePlace ch g c).2 =
            codeOfByte (adpcmByte w.adpcm epoch (codePlace ch g c).1) (codePlace ch g c).2 := fun g hg1 hg => by
        have hchosen := h'.codes epoch' c g hc hg1 hg
        rw [hx c hc, hstart c hc, h.codes epoch c g hc hg1 hg] at hchosen
        exact (Except.ok.inj hchosen).symm
      have hfirst := hcode f h1 (by omega)
      have hsecond := hcode (f + 1) (by omega) (by omega)
      rw [hlow] at hfirst
      rw [hhigh] at hsecond
      exact byte_eq_of_codes hfirst hsecond

/-- Two states agree on what ENC of `n` frames may read. -/
structure SameEncodeInput (s u : State) (n : Nat) : Prop where
  latch : u.latch = s.latch
  ctxValid : u.ctxValid = s.ctxValid
  cs : u.cs = s.cs
  pcm : ∀ i, i < n * s.latch.ch → u.pcmAt i = s.pcmAt i

namespace SameEncodeInput

variable {c : Channel}

theorem input (h : SameEncodeInput s u n) (hn : 1 ≤ n) (hc : c.toNat < s.latch.ch) (f : Nat) :
    u.input n f c = s.input n f c := by
  unfold State.input
  rw [h.latch, h.pcm _ (pcmIndex_lt hc (by omega))]

theorem blockStart (h : SameEncodeInput s u n) (hn : 1 ≤ n) (hc : c.toNat < s.latch.ch) :
    u.blockStart n c = s.blockStart n c := by
  have hfirst : u.pcmAt c.toNat = s.pcmAt c.toNat :=
    h.pcm _ (Nat.lt_of_lt_of_le hc (Nat.le_mul_of_pos_left _ hn))
  simp only [State.blockStart, h.cs, h.ctxValid, hfirst, h.input hn hc]

theorem runAfter (h : SameEncodeInput s u n) (hn : 1 ≤ n) (hc : c.toNat < s.latch.ch) (f : Nat) :
    u.runAfter n c f = s.runAfter n c f := by
  simp only [State.runAfter, h.latch, h.blockStart hn hc, h.input hn hc]

/-- A block encoded in the one state is encoded in the other, with the same banks, length and bytes. -/
theorem encodedBlock (h : SameEncodeInput s u n) (hl : s.latch.legal = true) (hn : 1 ≤ n) {w : EncodeWork}
    (hw : s.encodedBlock n = .ok w) : ∃ w', u.encodedBlock n = .ok w' ∧ w'.cs = w.cs ∧ w'.written = w.written ∧
      ∀ epoch epoch' a, a < blockBytes s.latch.ch n →
        adpcmByte w'.adpcm epoch' a = adpcmByte w.adpcm epoch a := by
  have hlu : u.latch.legal = true := h.latch ▸ hl
  have hruns := (encodedBlock_iff_runs hl hn).mp ⟨w, hw⟩
  obtain ⟨w', hw'⟩ := (encodedBlock_iff_runs hlu hn).mpr fun c hc => by
    rw [h.latch] at hc
    rw [h.runAfter hn hc]
    exact hruns c hc
  have hcoded' := encodedBlock_coded hlu hn hw'
  rw [h.latch, h.cs] at hcoded'
  refine ⟨w', hw', ?_⟩
  rw [blockBytes_pos hn]
  refine (encodedBlock_coded hl hn hw).unique (Latch.legal_ch hl) (pad_sub_one n) hcoded'
    (fun c hc => funext (h.input hn hc)) fun c hc => ?_
  rw [startBanks_blockStart hl n hc, ← h.blockStart hn hc, ← startBanks_blockStart hlu n (h.latch ▸ hc), h.latch,
    h.cs]

end SameEncodeInput

theorem exec_enc_zero (hl : s.latch.legal = true) : exec (.enc 0) s = .next (s.finish 0) :=
  execEnc_legal hl (Nat.zero_le _)

theorem exec_enc_of_encodedBlock (hl : s.latch.legal = true) (hs : n ≤ s.latch.spb) (hn : 1 ≤ n) {w : EncodeWork}
    (hw : s.encodedBlock n = .ok w) : exec (.enc n) s =
      .next ({ s with ctxValid := true, cs := w.cs, adpcm := w.adpcm }.finish w.written) := by
  rw [execEnc_legal hl hs, State.encodeBlock, if_neg (by omega), hw]

/-- Settles O48: the block of the other state is encoded alike, channel by channel. -/
theorem encodeReadsOnly : Obligations.EncodeReadsOnly := by
  intro s u s' n hlatch hctx hcs hpcm hexec herr
  have hsame : SameEncodeInput s u n := ⟨hlatch.symm, hctx.symm, hcs.symm, fun i hi => (hpcm i hi).symm⟩
  cases exec_enc_case hexec with
  | rejected e he ht =>
    subst ht
    rw [State.raise_err] at herr
    rcases he with rfl | rfl <;> cases herr
  | outOfRange _ _ ht =>
    subst ht
    cases herr
  | empty hl hn ht =>
    subst hn ht
    refine ⟨u.finish 0, exec_enc_zero (hlatch ▸ hl), rfl, rfl, hcs.symm, hctx.symm, fun a ha => ?_⟩
    exact absurd ha (Nat.not_lt_zero a)
  | coded hl hs hn w hw ht =>
    subst ht
    obtain ⟨w', hw', hbanks, hwritten, hbytes⟩ := hsame.encodedBlock hl hn hw
    exact ⟨_, exec_enc_of_encodedBlock (hlatch ▸ hl) (hlatch ▸ hs) hn hw', rfl,
      congrArg (BitVec.ofNat 32) hwritten, hbanks, rfl, hbytes _ _⟩

end Sys2Proof.Machine
end

section
/-! PROOFS. Decoding and encoding are inverse to each other (30_encoding.md R81, R90 to R93, R97), and the command words
as numbers. -/

namespace Sys2Proof

open Machine

/-! ### Codes -/

/-- Every code has an instruction, whose encoding is the code (R81, R97). -/
theorem encode_decodeCode (n : Nibble) : (decodeCode n).wellFormed = true ∧ encode (decodeCode n) = .code n := by
  revert n
  decide

theorem isCommand_decodeCode (n : Nibble) : isCommand (decodeCode n) = false := by
  revert n
  decide

/-- A code is named by its sign bit and its magnitude (R97). -/
theorem mnemonic_decodeCode (n : Nibble) : (decodeCode n).mnemonic = (if n.toNat / 8 = 1 then "N" else "P") ++
    (["0", "1", "2", "3", "4", "5", "6", "7"][n.toNat % 8]?).getD "" := by
  revert n
  decide

/-! ### Command words -/

theorem decode_commandWord_enc {n : Nat} (hn : n < 65536) : decode (.command (commandWord 0x2#4 n)) = .ok (.enc n) := by
  obtain ⟨hrsv, hop, hlen⟩ := fields_commandWord 0x2#4 hn
  simp [decode, decodeCommand, hrsv, hop, hlen]

theorem decode_commandWord_dec {l : Nat} (hl : l < 65536) : decode (.command (commandWord 0x3#4 l)) = .ok (.dec l) := by
  obtain ⟨hrsv, hop, hlen⟩ := fields_commandWord 0x3#4 hl
  simp [decode, decodeCommand, hrsv, hop, hlen]

theorem lenFits_lenField (w : Word) : lenFits (lenField w) = true :=
  decide_eq_true (BitVec.isLt _)

theorem command_eq_of_fields {w : Word} {op : Nibble} {len : Nat} (hrsv : ¬ rsvField w ≠ 0#12)
    (hop : opField w = op) (hlen : lenField w = len) : Encoding.command (commandWord op len) = .command w := by
  rw [← hop, ← hlen, commandWord_fields (Decidable.not_not.mp hrsv)]

/-- What a word decodes to is well formed, and the word is its encoding: RSV is 0, and OP and LEN are the fields the
instruction was read from (R90 to R93). -/
theorem encode_of_decodeCommand {w : Word} {i : Instr} (h : decodeCommand w = .ok i) :
    i.wellFormed = true ∧ encode i = .command w := by
  unfold decodeCommand at h
  repeat' split at h
  all_goals cases h
  next hrsv hop hlen => exact ⟨rfl, command_eq_of_fields hrsv hop hlen⟩
  next hrsv _ hop => exact ⟨lenFits_lenField w, command_eq_of_fields hrsv hop rfl⟩
  next hrsv _ _ hop => exact ⟨lenFits_lenField w, command_eq_of_fields hrsv hop rfl⟩
  next hrsv _ _ _ hop hlen => exact ⟨rfl, command_eq_of_fields hrsv hop hlen⟩

/-! ### Both directions -/

theorem encode_of_decode {e : Encoding} {i : Instr} (h : decode e = .ok i) : i.wellFormed = true ∧ encode i = e := by
  cases e with
  | code n =>
    cases h
    exact encode_decodeCode n
  | command w => exact encode_of_decodeCommand h

theorem decode_encode {i : Instr} (h : i.wellFormed = true) : decode (encode i) = .ok i := by
  cases i with
  | p0 | p1 | p2 | p3 | p4 | p5 | p6 | p7 => rfl
  | n0 | n1 | n2 | n3 | n4 | n5 | n6 | n7 => rfl
  | cfg | rsts => rfl
  | enc n => exact decode_commandWord_enc (of_decide_eq_true h)
  | dec l => exact decode_commandWord_dec (of_decide_eq_true h)

/-- Settles O1: a decoded word is rebuilt from its fields, and an encoded instruction is read off its word's fields. -/
theorem decodeEncodeAgree : Obligations.DecodeEncodeAgree := by
  intro e i
  refine ⟨encode_of_decode, ?_⟩
  rintro ⟨hwf, rfl⟩
  exact decode_encode hwf

/-! ### Words as numbers -/

theorem commandWord_eq_ofNat (op : Nibble) (len : Nat) :
    commandWord op len = BitVec.ofNat 32 (len * 65536 + op.toNat) := by
  have hop := op.isLt
  apply BitVec.eq_of_toNat_eq
  rw [commandWord_toNat, BitVec.toNat_ofNat]
  omega

/-- A word whose low half is an OP with RSV 0 is that OP's word for the high half (R90). -/
theorem commandWord_of_low_half {w : Word} {op : Nibble} (h : w.toNat % 65536 = op.toNat) :
    commandWord op (w.toNat / 65536) = w := by
  have hw := w.isLt
  apply BitVec.eq_of_toNat_eq
  rw [commandWord_toNat]
  omega

theorem high_half_lt (w : Word) : w.toNat / 65536 < 65536 := by
  have hw := w.isLt
  omega

/-- Settles O3: the words are `commandWord` of the high half, and O1's lemmas decode them. -/
theorem commandWordOperand : Obligations.CommandWordOperand := by
  refine ⟨fun w hw => ?_, fun w hw => ?_, fun n _ => ?_, fun l _ => ?_, rfl, rfl⟩
  · have hdecode := decode_commandWord_enc (high_half_lt w)
    rwa [commandWord_of_low_half hw] at hdecode
  · have hdecode := decode_commandWord_dec (high_half_lt w)
    rwa [commandWord_of_low_half hw] at hdecode
  · exact congrArg Encoding.command (commandWord_eq_ofNat 0x2#4 n)
  · exact congrArg Encoding.command (commandWord_eq_ofNat 0x3#4 l)

/-- Settles O2: the words by evaluation, the codes by the lemmas about `decodeCode`. -/
theorem specWordsDecode : Obligations.SpecWordsDecode :=
  ⟨rfl, rfl, rfl, rfl, rfl, rfl, rfl, rfl, fun n =>
    ⟨decodeCode n, rfl, isCommand_decodeCode n, mnemonic_decodeCode n⟩⟩

/-! ### Illegal words -/

theorem toNat_of_command_eq {w : Word} {op : Nibble} {len : Nat}
    (h : Encoding.command (commandWord op len) = .command w) : w.toNat = len % 65536 * 65536 + op.toNat := by
  cases h
  exact commandWord_toNat op len

/-- The fields of a legal word as numbers: RSV is 0, OP is a command's, and LEN is 0 where the command takes none
(R91, R93). -/
theorem fields_of_decode {w : Word} {i : Instr} (h : decode (.command w) = .ok i) :
    w.toNat / 16 % 4096 = 0 ∧ w.toNat % 16 ∈ [0x1, 0x2, 0x3, 0x4] ∧
    (w.toNat % 16 ∈ [0x1, 0x4] → w.toNat / 65536 = 0) := by
  have hencode := (encode_of_decode h).2
  simp only [List.mem_cons, List.not_mem_nil, or_false]
  rcases decodeCommand_ok h with rfl | rfl | ⟨n, rfl⟩ | ⟨l, rfl⟩ <;>
  · have hw := toNat_of_command_eq hencode
    rw [BitVec.toNat_ofNat] at hw
    exact ⟨by omega, by omega, fun hop => by omega⟩

end Sys2Proof
end

section
/-! PROOFS. What an illegal command word does (30_encoding.md R93; 60_exceptions.md R301, R302). -/

namespace Sys2Proof.Machine

variable {s : State} {w : Word} {rest : List HostAccess}

theorem step_eq_raise_of_illegal {e : Illegal} (hcode : s.seq.code = none)
    (hinbox : s.inbox = HostAccess.writeReg .command w :: rest) (hd : decode (.command w) = .error e) :
    step s = .next ((s.takeAccess rest).raise .illegalCommand) := by
  simp only [step, State.pending, hcode, hinbox, commandWord?_writeReg, runCommand, hd]

/-- With the sequencer idle, the error epilogue of ILLEGAL_COMMAND writes ERR and RESULT only: FAULT is not its
(R301, 10_state.md R32). -/
theorem raise_illegalCommand (hseq : s.seq = Sequencer.idle) :
    s.raise .illegalCommand = { s with err := .illegalCommand, result := 0 } := by
  simp [State.raise, ErrCode.setsFault, ← hseq]

/-- Settles O4: a word with such a field decodes to no instruction, so the step ends with ILLEGAL_COMMAND. -/
theorem illegalWords : Obligations.IllegalWords := by
  intro s w rest hillegal hseq hinbox
  have hcode : s.seq.code = none := congrArg Sequencer.code hseq
  cases hd : decode (.command w) with
  | ok i =>
    obtain ⟨hrsv, hop, hlen⟩ := fields_of_decode hd
    rcases hillegal with h | h | ⟨hnone, h⟩
    · exact absurd hrsv h
    · exact absurd hop h
    · exact absurd (hlen hnone) h
  | error e =>
    rw [step_eq_raise_of_illegal hcode hinbox hd]
    exact congrArg Host.Outcome.next (raise_illegalCommand (s := s.takeAccess rest) hseq)

end Sys2Proof.Machine
end

section
/-! PROOFS. The places of the codes (30_encoding.md R85, R87). -/

namespace Sys2Proof.Machine

/-- The bytes of the codes go four to a channel and chunk, in the order of the samples of `pcmIndex` with a chunk for a
frame, behind the headers. -/
theorem codePlace_eq (ch f : Nat) (c : Channel) : codePlace ch f c =
    (4 * (ch + pcmIndex ch ((f - 1) / 8) c) + (f - 1) % 8 / 2, (f - 1) % 2) := by
  simp only [codePlace, pcmIndex]
  rw [Nat.mul_comm ((f - 1) / 8) ch, Nat.mul_assoc 4 ch]
  congr 1
  omega

theorem codePlace_inj {ch f g : Nat} {c d : Channel} (hc : c.toNat < ch) (hd : d.toNat < ch) (hf : 1 ≤ f)
    (hg : 1 ≤ g) (h : codePlace ch f c = codePlace ch g d) : f = g ∧ c = d := by
  rw [codePlace_eq, codePlace_eq, Prod.mk.injEq] at h
  obtain ⟨hbyte, hnibble⟩ := h
  have hlane : pcmIndex ch ((f - 1) / 8) c = pcmIndex ch ((g - 1) / 8) d := by omega
  obtain ⟨hchunk, hchannel⟩ := pcmIndex_inj hc hd hlane
  exact ⟨by omega, hchannel⟩

/-- Settles O5: the places by the two nibbles of a byte, and `codePlace_inj`. -/
theorem codePlaces : Obligations.CodePlaces := by
  refine ⟨fun ch k b h c hb hh => ?_, fun ch f g c d hc hd hf hg => codePlace_inj hc hd hf hg⟩
  obtain rfl | rfl : h = 0 ∨ h = 1 := by omega
  · rw [show 1 + 8 * k + 2 * b + 0 = 8 * k + 2 * b + 1 by omega]
    exact codePlace_low ch k c hb
  · rw [show 1 + 8 * k + 2 * b + 1 = 8 * k + 2 * b + 2 by omega]
    exact codePlace_high ch k c hb

end Sys2Proof.Machine
end

section
/-! PROOFS. The pseudo-instructions (30_encoding.md R96). -/

namespace Sys2Proof.Machine

/-- Once the accesses queued before a statement are performed, the statement's are left, expanded for the configuration
then in force. -/
theorem run_submit {s t : State} {p : Statement} (hcode : s.seq.code = none)
    (h : core.run s.inbox.length (s.submit p) = .next t) : t.inbox = p.accesses t.latch := by
  obtain ⟨hinbox, hsettings⟩ := run_settings s.inbox (p.accesses s.settingsAhead.latch) (s.submit p) t hcode rfl h
  have hlatch : t.latch = s.settingsAhead.latch := congrArg Settings.latch hsettings
  rw [hinbox, hlatch]

theorem accesses_encblk (l : Latch) : Statement.encblk.accesses l =
    [HostAccess.writeReg .command (BitVec.ofNat 32 (l.spb * 65536 + 2))] :=
  congrArg (fun w => [issue w]) (commandWord_eq_ofNat 0x2#4 l.spb)

theorem accesses_decblk (l : Latch) : Statement.decblk.accesses l =
    [HostAccess.writeReg .command (BitVec.ofNat 32 (l.bs * 65536 + 3))] :=
  congrArg (fun w => [issue w]) (commandWord_eq_ofNat 0x3#4 l.bs)

/-- Settles O7: working off the queue reaches the configuration that the statement was expanded for. -/
theorem pseudoInstructions : Obligations.PseudoInstructions := by
  refine ⟨fun _ _ _ _ _ => rfl, fun s t hcode => ⟨fun h => ?_, fun h => ?_⟩⟩
  · rw [run_submit hcode h, accesses_encblk]
  · rw [run_submit hcode h, accesses_decblk]

end Sys2Proof.Machine
end

section
/-! PROOFS. What a code computes: its delta, its index adjustment, and the ROMs (40_quantizer.md R110 to R113, R134,
R135). -/

namespace Sys2Proof.Machine

/-! ### The ROMs -/

theorem stepRom_lt_succ : ∀ i, i < 88 → stepRom i < stepRom (i + 1) := by decide

/-- The smallest step is the first, since the steps increase. -/
theorem seven_le_stepRom {i : Nat} (hi : i ≤ 88) : 7 ≤ stepRom i := by
  induction i with
  | zero => decide
  | succ i ih => exact Nat.le_trans (ih (by omega)) (Nat.le_of_lt (stepRom_lt_succ i hi))

theorem indexTable_getElem? (n : Nibble) : [-1, -1, -1, -1, 2, 4, 6, 8][n.toNat % 8]? = some (indexRom n) := by
  revert n
  decide

/-- Settles O13: the lists by evaluation, the order and the adjustments by the lemmas above. -/
theorem romContents : Obligations.RomContents := ⟨rfl, stepRom_lt_succ, indexTable_getElem?⟩

/-! ### The delta -/

/-- The delta without its sign: an eighth of the step, and the parts of the step that the three low bits select
(R113). -/
def deltaMagnitude (step : Nat) (n : Nibble) : Nat :=
  step / 8 + (if n.getLsbD 0 then step / 4 else 0) + (if n.getLsbD 1 then step / 2 else 0) +
    (if n.getLsbD 2 then step else 0)

theorem codeDelta_eq (step : Nat) (n : Nibble) :
    codeDelta step n = if n.getLsbD 3 then -(deltaMagnitude step n : Int) else deltaMagnitude step n := by
  simp only [codeDelta, deltaMagnitude, Nat.shiftRight_eq_div_pow]
  cases n.getLsbD 0 <;> cases n.getLsbD 1 <;> cases n.getLsbD 2 <;> rfl

/-- The codes `m` and `8 + m` differ in the sign bit alone. -/
theorem bits_of_code : ∀ m, m < 8 →
    (∀ k, k < 3 → (BitVec.ofNat 4 (8 + m)).getLsbD k = (BitVec.ofNat 4 m).getLsbD k) ∧
    (BitVec.ofNat 4 m).getLsbD 3 = false ∧ (BitVec.ofNat 4 (8 + m)).getLsbD 3 = true := by
  decide

theorem codeDelta_of_positive (step : Nat) {m : Nat} (hm : m < 8) :
    codeDelta step (BitVec.ofNat 4 m) = deltaMagnitude step (BitVec.ofNat 4 m) := by
  obtain ⟨-, hpositive, -⟩ := bits_of_code m hm
  rw [codeDelta_eq, hpositive]
  rfl

theorem codeDelta_of_negative (step : Nat) {m : Nat} (hm : m < 8) :
    codeDelta step (BitVec.ofNat 4 (8 + m)) = -deltaMagnitude step (BitVec.ofNat 4 m) := by
  obtain ⟨hlow, -, hnegative⟩ := bits_of_code m hm
  have hmagnitude : deltaMagnitude step (BitVec.ofNat 4 (8 + m)) = deltaMagnitude step (BitVec.ofNat 4 m) := by
    simp only [deltaMagnitude, hlow 0 (by decide), hlow 1 (by decide), hlow 2 (by decide)]
  rw [codeDelta_eq, hnegative, hmagnitude]
  rfl

theorem indexRom_sign_irrelevant : ∀ m, m < 8 → indexRom (BitVec.ofNat 4 (8 + m)) = indexRom (BitVec.ofNat 4 m) := by
  decide

/-- Settles O11: the two codes have one magnitude, and the index adjustment does not see the sign. -/
theorem codeSymmetry : Obligations.CodeSymmetry := fun step m hm =>
  ⟨by rw [codeDelta_of_negative step hm, codeDelta_of_positive step hm], indexRom_sign_irrelevant m hm⟩

/-! ### Monotonicity -/

/-- The parts of the step that one more bit brings outweigh the parts of the bits below it, from step 4 on. -/
theorem deltaMagnitude_lt_succ {step m : Nat} (hstep : 4 ≤ step) (hm : m < 7) :
    deltaMagnitude step (BitVec.ofNat 4 m) < deltaMagnitude step (BitVec.ofNat 4 (m + 1)) := by
  obtain rfl | rfl | rfl | rfl | rfl | rfl | rfl :
      m = 0 ∨ m = 1 ∨ m = 2 ∨ m = 3 ∨ m = 4 ∨ m = 5 ∨ m = 6 := by omega
  all_goals
    simp only [deltaMagnitude, Nat.reduceAdd, BitVec.reduceGetLsb, Bool.false_eq_true, ↓reduceIte]
    omega

theorem codeDelta_lt_succ {step m : Nat} (hstep : 4 ≤ step) (hm : m < 7) :
    codeDelta step (BitVec.ofNat 4 m) < codeDelta step (BitVec.ofNat 4 (m + 1)) := by
  rw [codeDelta_of_positive step (by omega), codeDelta_of_positive step (by omega)]
  exact Int.ofNat_lt.mpr (deltaMagnitude_lt_succ hstep hm)

/-- P0 and N0 coincide where an eighth of the step rounds to 0. -/
theorem codeDelta_p0_eq_n0_iff (step : Nat) : codeDelta step 0x0#4 = codeDelta step 0x8#4 ↔ step < 8 := by
  have hp : codeDelta step 0x0#4 = (step / 8 : Nat) := codeDelta_of_positive step (m := 0) (by decide)
  have hn : codeDelta step 0x8#4 = -(step / 8 : Nat) := codeDelta_of_negative step (m := 0) (by decide)
  rw [hp, hn]
  omega

/-- Settles O12: no step of the ROM is below 7, and the parts of a step compare as they should from there on. -/
theorem codeMonotonicity : Obligations.CodeMonotonicity := by
  refine ⟨fun i m hi hm => ?_, by decide, fun i hi => ?_, fun i hi => ?_⟩ <;>
    have hstep := seven_le_stepRom hi
  · exact codeDelta_lt_succ (by omega) hm
  · omega
  · rw [codeDelta_p0_eq_n0_iff]
    omega

end Sys2Proof.Machine
end

section
/-! PROOFS. What executing a code does to the state, and what it leaves (40_quantizer.md R114, R117 to R133). -/

namespace Sys2Proof.Machine

/-! ### The selected channel state -/

/-- The instruction whose encoding is the code `n` applies `n`. -/
theorem exec_of_encode {i : Instr} {n : Nibble} (h : encode i = .code n) (s : State) :
    exec i s = .next (s.applySelected n) := by
  cases i <;> cases h <;> rfl

theorem selectedQuant_applySelected (s : State) (n : Nibble) :
    (s.applySelected n).selectedQuant = s.selectedQuant.apply n :=
  selectedQuant_setSelectedQuant s _

theorem nextIndex_eq_clamp (index : Nat) (n : Nibble) : (nextIndex index n : Int) = clamp (index + indexRom n) 0 88 :=
  Int.toNat_of_nonneg (clamp_bounds (by decide) _).1

/-- A code acts as its delta and its index adjustment say. -/
theorem codeActs_of_encode {i : Instr} {n : Nibble} {delta : Nat → Int} {adjust : Int} (hi : encode i = .code n)
    (hdelta : ∀ step, codeDelta step n = delta step) (hadjust : indexRom n = adjust) : CodeActs i delta adjust := by
  refine fun s => ⟨_, exec_of_encode hi s, ?_, ?_⟩
  · rw [selectedQuant_applySelected, apply_sample, ← hdelta]
    rfl
  · rw [selectedQuant_applySelected, apply_index, nextIndex_eq_clamp, hadjust]

/-- Settles O8: the bits of each code select the parts of the step that its rule adds. -/
theorem positiveCodes : Obligations.PositiveCodes := by
  and_intros <;> exact codeActs_of_encode rfl (fun step => codeDelta_eq step _) rfl

/-- Settles O9: the bits of each code select the parts of the step that its rule subtracts. -/
theorem negativeCodes : Obligations.NegativeCodes := by
  and_intros <;> exact codeActs_of_encode rfl (fun step => codeDelta_eq step _) rfl

/-! ### The frame -/

section
variable (s : State) (q : Quant)

theorem setSelectedQuant_frame :
    s.setSelectedQuant q = { s with cs := (s.setSelectedQuant q).cs, dec := (s.setSelectedQuant q).dec } := by
  unfold State.setSelectedQuant
  split <;> rfl

theorem setSelectedQuant_cs_of_decoder (h : s.seq.engine = .decoder) : (s.setSelectedQuant q).cs = s.cs := by
  rw [State.setSelectedQuant_cs, h]

theorem setSelectedQuant_dec_of_encoder (h : s.seq.engine = .encoder) : (s.setSelectedQuant q).dec = s.dec := by
  rw [State.setSelectedQuant_dec, h]

theorem setSelectedQuant_get_other {c : Channel} (hc : c ≠ s.seq.pos.channel) :
    (s.setSelectedQuant q).cs.get c = s.cs.get c ∧ (s.setSelectedQuant q).dec.get c = s.dec.get c := by
  rw [State.setSelectedQuant_cs, State.setSelectedQuant_dec]
  cases s.seq.engine with
  | encoder => exact ⟨PerChannel.get_set_other _ _ _ _ hc, rfl⟩
  | decoder => exact ⟨rfl, PerChannel.get_set_other _ _ _ _ hc⟩

/-- Of a bank, a code writes the quantizer's part only. -/
theorem setSelectedQuant_get_cs (c : Channel) :
    ∃ q', (s.setSelectedQuant q).cs.get c = { s.cs.get c with toQuant := q' } := by
  by_cases hc : c = s.seq.pos.channel
  · rw [State.setSelectedQuant_cs]
    cases s.seq.engine with
    | encoder => exact ⟨q, by rw [hc, PerChannel.get_set_same]⟩
    | decoder => exact ⟨_, rfl⟩
  · exact ⟨_, (setSelectedQuant_get_other s q hc).1⟩

end

/-- Settles O10, by what writing the selected channel state leaves. -/
theorem codesFrame : Obligations.CodesFrame := by
  intro i s t hi h
  obtain ⟨n, hn⟩ := exec_code hi s
  rw [hn] at h
  cases h
  refine ⟨setSelectedQuant_frame s _, setSelectedQuant_cs_of_decoder s _, setSelectedQuant_dec_of_encoder s _,
    fun c => ⟨setSelectedQuant_get_other s _, ?_⟩⟩
  obtain ⟨q', hbank⟩ := setSelectedQuant_get_cs s (s.selectedQuant.apply n) c
  rw [State.applySelected, hbank]
  exact ⟨rfl, rfl, rfl, rfl⟩

end Sys2Proof.Machine
end

section
/-! PROOFS. DEC: what it decodes, how it fails, what it leaves unchanged and what it depends on (41_decoder.md). -/

namespace Sys2Proof.Machine

variable {s t u : State} {l : Nat}

/-! ### How a DEC ends -/

theorem exec_dec_of_unconfigured (hv : s.latch.cfgValid = false) :
    exec (.dec l) s = .next (s.raise .notConfigured) := by
  simp [exec, execDec, hv]

theorem exec_dec_of_overlong (hl : s.latch.legal = true) (hs : s.latch.bs < l) :
    exec (.dec l) s = .next (s.raise .badLength) := by
  simp [exec, execDec, hl, Latch.legal_cfgValid hl, hs]

theorem exec_dec_of_truncated (hl : s.latch.legal = true) (hs : l ≤ s.latch.bs) (hshort : l < 4 * s.latch.ch) :
    exec (.dec l) s = .next ((s.afterDecodeError l).raise .truncatedInput) :=
  (execDec_legal hl hs).trans (congrArg _ (if_pos hshort))

theorem exec_dec_of_malformed (hl : s.latch.legal = true) (hs : l ≤ s.latch.bs) (hlen : 4 * s.latch.ch ≤ l)
    (hbad : ¬ headersOk s.adpcmAt s.latch.ch) : exec (.dec l) s =
      .next ({ s.afterDecodeError l with
        dec := (parseHeaders s.adpcmAt (channels s.latch.ch) s.dec).1 }.raise .malformedBlockHeader) := by
  rw [execDec_legal hl hs]
  rcases decodeBlock_cases s l with ⟨hshort, -⟩ | ⟨-, -, ht⟩ | ⟨-, hok, -⟩
  · omega
  · rw [ht]
  · exact absurd hok hbad

/-- A block of well-formed headers is decoded as `BlockDecoded` says (41_decoder.md R152 to R155). -/
theorem exec_dec_of_headersOk (hl : s.latch.legal = true) (hs : l ≤ s.latch.bs) (hlen : 4 * s.latch.ch ≤ l)
    (hok : headersOk s.adpcmAt s.latch.ch) : ∃ w, BlockDecoded s.latch.ch l s.adpcmAt s.dec s.pcm w ∧
      exec (.dec l) s = .next ({ s with dec := w.dec, pcm := w.pcm }.finish (frameCount s.latch.ch l)) := by
  refine ⟨_, decodeChunks_decoded (Latch.legal_ch hl) l hok s.dec s.pcm, ?_⟩
  rw [execDec_legal hl hs]
  rcases decodeBlock_cases s l with ⟨hshort, -⟩ | ⟨-, hbad, -⟩ | ⟨-, -, ht⟩
  · omega
  · exact absurd hok hbad
  · rw [ht]

/-- Everything a DEC that goes on can have done. -/
inductive DecCase (s t : State) (l : Nat) : Prop where
  /-- The command was rejected (60_exceptions.md R302). -/
  | rejected (e : ErrCode) (he : e = .notConfigured ∨ e = .badLength) (ht : t = s.raise e)
  /-- The block was too short or a header malformed (41_decoder.md R151, R152, R158); only the working registers of the
  channels in use may have changed. -/
  | failed (e : ErrCode) (he : e = .truncatedInput ∨ e = .malformedBlockHeader) (dec : PerChannel Quant)
      (hdec : ∀ c : Channel, s.latch.ch ≤ c.toNat → dec.get c = s.dec.get c)
      (ht : t = { s.afterDecodeError l with dec := dec }.raise e)
  /-- The block was decoded (R155). -/
  | decoded (w : DecodeWork) (hw : BlockDecoded s.latch.ch l s.adpcmAt s.dec s.pcm w)
      (ht : t = { s with dec := w.dec, pcm := w.pcm }.finish (frameCount s.latch.ch l))

theorem exec_dec_case (h : exec (.dec l) s = .next t) : DecCase s t l := by
  rcases execDec_cases h with ⟨-, ht⟩ | ⟨-, -, ht⟩ | ⟨hl, -, rfl⟩
  · exact .rejected _ (.inl rfl) ht
  · exact .rejected _ (.inr rfl) ht
  · rcases decodeBlock_cases s l with ⟨-, ht⟩ | ⟨-, -, ht⟩ | ⟨-, hok, ht⟩
    · exact .failed _ (.inl rfl) s.dec (fun _ _ => rfl) ht
    · exact .failed _ (.inr rfl) _ (fun _ hc => parseHeaders_other (Latch.legal_ch hl) s.dec hc) ht
    · exact .decoded _ (decodeChunks_decoded (Latch.legal_ch hl) l hok s.dec s.pcm) ht

/-! ### Headers -/

theorem headerWellFormed_iff (b2 b3 : Byte) : headerWellFormed b2 b3 = true ↔ b2.toNat ≤ 88 ∧ b3 = 0 := by
  simp [headerWellFormed]

/-- A well-formed index byte fits the 7-bit register (30_encoding.md R84; log 15). -/
theorem headerQuant_index {b0 b1 b2 : Byte} (h : b2.toNat ≤ 88) : (headerQuant b0 b1 b2).index.toNat = b2.toNat :=
  (BitVec.toNat_setWidth 7 b2).trans (Nat.mod_eq_of_lt (by omega))

theorem headersOk_congr {ch : Nat} {b b' : Nat → Byte} (h : ∀ a, a < l → b a = b' a) (hlen : 4 * ch ≤ l) :
    headersOk b ch ↔ headersOk b' ch := by
  refine forall₂_congr fun c hc => ?_
  rw [h (headerAddress c 2) (by rw [headerAddress]; omega), h (headerAddress c 3) (by rw [headerAddress]; omega)]

/-! ### What DEC decodes -/

/-- Settles O33: the working registers after each frame are `decodedQuant`, and `BlockDecoded` says where they go. -/
theorem decodeReconstructs : Obligations.DecodeReconstructs := by
  intro s l hl hlen hs hheaders ch chunks
  have hok : headersOk s.adpcmAt s.latch.ch := fun c hc => (headerWellFormed_iff _ _).mpr (hheaders c hc)
  obtain ⟨w, hw, hexec⟩ := exec_dec_of_headersOk hl hs hlen hok
  refine ⟨_, decodedQuant ch s.adpcmAt, hexec, rfl, exec_dec_result hexec rfl, fun c hc => ?_⟩
  obtain ⟨hindex, -⟩ := hheaders c hc
  exact ⟨rfl, headerQuant_index hindex, fun _ _ => rfl, fun f hf => hw.samples _ c f hc hf, hw.registers c hc⟩

/-! ### How DEC fails -/

/-- Settles O36: the length is checked before the headers, and one malformed header is enough. -/
theorem decodeErrors : Obligations.DecodeErrors := by
  intro s l hl hs
  refine ⟨fun hshort => ⟨_, exec_dec_of_truncated hl hs hshort, rfl, rfl⟩, fun c hlen hc hheader => ?_⟩
  have hbad : ¬ headersOk s.adpcmAt s.latch.ch := fun hok => by
    obtain ⟨hindex, hreserved⟩ := (headerWellFormed_iff _ _).mp (hok c hc)
    exact hheader.elim (Nat.not_lt.mpr hindex) (absurd hreserved)
  exact ⟨_, exec_dec_of_malformed hl hs hlen hbad, rfl, rfl⟩

/-! ### What DEC leaves unchanged -/

theorem raise_of_not_setsFault {e : ErrCode} (he : e.setsFault = false) :
    s.raise e = { s with err := e, result := 0, seq := Sequencer.idle } := by
  simp [State.raise, he]

theorem exec_dec_keeps_rest (h : exec (.dec l) s = .next t) :
    t = { s with err := t.err, result := t.result, dec := t.dec, pcm := t.pcm, seq := t.seq,
                 freeCount := t.freeCount } := by
  cases exec_dec_case h with
  | rejected e he ht =>
    have hfault : e.setsFault = false := by rcases he with rfl | rfl <;> rfl
    rw [ht, raise_of_not_setsFault hfault]
  | failed e he dec _ ht =>
    have hfault : e.setsFault = false := by rcases he with rfl | rfl <;> rfl
    rw [ht, raise_of_not_setsFault hfault]
    rfl
  | decoded w _ ht => rw [ht]; rfl

/-- DEC writes no PCM entry past the frames that the block has or would have had (41_decoder.md R155, R158). -/
theorem exec_dec_pcmAt_beyond (h : exec (.dec l) s = .next t) {i : Nat}
    (hi : s.latch.ch * frameCount s.latch.ch l ≤ i) : t.pcmAt i = s.pcmAt i := by
  cases exec_dec_case h with
  | rejected _ _ ht => rw [ht]; rfl
  | failed _ _ _ _ ht =>
    rw [ht]
    exact (pcmEntry_writePcmPrefix _ _ _ _ _).trans (if_neg (Nat.not_lt.mpr hi))
  | decoded w hw ht =>
    rw [ht]
    exact hw.otherEntries _ i hi

/-- A rejected DEC changes neither PCM nor the working registers (60_exceptions.md R302). -/
theorem exec_dec_rejected (h : exec (.dec l) s = .next t) (hrej : t.err = .notConfigured ∨ t.err = .badLength) :
    t.pcm = s.pcm ∧ t.dec = s.dec := by
  cases exec_dec_case h with
  | rejected _ _ ht => rw [ht]; exact ⟨rfl, rfl⟩
  | failed e he _ _ ht =>
    rw [ht, State.raise_err] at hrej
    rcases he with rfl | rfl <;> rcases hrej with herr | herr <;> cases herr
  | decoded _ _ ht =>
    rw [ht, State.finish_err] at hrej
    rcases hrej with herr | herr <;> cases herr

theorem exec_dec_register_unused (h : exec (.dec l) s = .next t) {c : Channel} (hc : s.latch.ch ≤ c.toNat) :
    t.dec.get c = s.dec.get c := by
  cases exec_dec_case h with
  | rejected _ _ ht => rw [ht]; rfl
  | failed _ _ _ hdec ht => rw [ht]; exact hdec c hc
  | decoded w hw ht => rw [ht]; exact hw.otherRegisters c (Nat.not_lt.mpr hc)

/-- Settles O34, by the cases of DEC. -/
theorem decodeFrame : Obligations.DecodeFrame := fun _ _ _ h =>
  ⟨exec_dec_keeps_rest h, fun _ => exec_dec_pcmAt_beyond h, exec_dec_rejected h, fun _ => exec_dec_register_unused h⟩

/-! ### DEC and the encoder context -/

/-- The state with other banks and another CTX_VALID. -/
def State.withContext (s : State) (cs : PerChannel Chan) (valid : Bool) : State :=
  { s with cs := cs, ctxValid := valid }

theorem withContext_decodeBlock (s : State) (cs : PerChannel Chan) (valid : Bool) (l : Nat) :
    (s.withContext cs valid).decodeBlock l = (s.decodeBlock l).withContext cs valid := by
  simp only [State.decodeBlock, apply_ite (State.withContext · cs valid)]
  rfl

/-- Settles O35: every way DEC ends is the same under another context. -/
theorem decodeIgnoresContext : Obligations.DecodeIgnoresContext := by
  intro s t l cs valid h
  rcases execDec_cases h with ⟨hv, rfl⟩ | ⟨hl, hs, rfl⟩ | ⟨hl, hs, rfl⟩
  · exact exec_dec_of_unconfigured hv
  · exact exec_dec_of_overlong hl hs
  · exact (execDec_legal (s := s.withContext cs valid) hl hs).trans (congrArg _ (withContext_decodeBlock s cs valid l))

/-! ### What DEC depends on -/

/-- Every entry below `ch * frames` is the sample of a channel in use and of a frame below `frames`
(20_memory.md R61). -/
theorem exists_pcmIndex {ch frames i : Nat} (hch : ch = 1 ∨ ch = 2) (hi : i < ch * frames) :
    ∃ c f, c.toNat < ch ∧ f < frames ∧ pcmIndex ch f c = i := by
  have hpos : 0 < ch := by omega
  obtain ⟨c, hc⟩ := exists_channel hch (Nat.mod_lt i hpos)
  exact ⟨c, i / ch, hc ▸ Nat.mod_lt i hpos, Nat.div_lt_of_lt_mul hi, by rw [pcmIndex, hc, Nat.div_add_mod']⟩

/-- The entries of a decoded block are determined by CH, L and the bytes of the block (41_decoder.md R157). -/
theorem BlockDecoded.entries_unique {ch : Nat} {b b' : Nat → Byte} {dec dec' : PerChannel Quant} {pcm pcm' : Memory}
    {w w' : DecodeWork} (hch : ch = 1 ∨ ch = 2) (hlen : 4 * ch ≤ l) (hbytes : ∀ a, a < l → b a = b' a)
    (h : BlockDecoded ch l b dec pcm w) (h' : BlockDecoded ch l b' dec' pcm' w') (epoch epoch' : Nat) {i : Nat}
    (hi : i < ch * frameCount ch l) : pcmEntry w.pcm epoch i = pcmEntry w'.pcm epoch' i := by
  obtain ⟨c, f, hc, hf, rfl⟩ := exists_pcmIndex hch hi
  have hf : f ≤ 8 * chunkCount ch l := by
    rw [frameCount] at hf
    omega
  rw [h.samples epoch c f hc hf, h'.samples epoch' c f hc hf, decodedQuant_congr hbytes hlen hc hf]

/-- Settles O37: both states fail alike or decode the same block, sample by sample. -/
theorem decodeBlockIndependence : Obligations.DecodeBlockIndependence := by
  intro s u l hl hlu hch hs hsu hbytes
  by_cases hshort : l < 4 * s.latch.ch
  · exact ⟨_, _, exec_dec_of_truncated hl hs hshort, exec_dec_of_truncated hlu hsu (hch ▸ hshort), rfl, rfl,
      fun herr => by cases herr⟩
  have hlen : 4 * s.latch.ch ≤ l := Nat.not_lt.mp hshort
  have hlenu : 4 * u.latch.ch ≤ l := hch ▸ hlen
  have hheaders : headersOk s.adpcmAt s.latch.ch ↔ headersOk u.adpcmAt u.latch.ch :=
    hch ▸ headersOk_congr hbytes hlen
  by_cases hok : headersOk s.adpcmAt s.latch.ch
  · obtain ⟨w, hw, hexec⟩ := exec_dec_of_headersOk hl hs hlen hok
    obtain ⟨w', hw', hexec'⟩ := exec_dec_of_headersOk hlu hsu hlenu (hheaders.mp hok)
    refine ⟨_, _, hexec, hexec', rfl, ?_, fun _ i hi => ?_⟩
    · rw [State.finish_result, State.finish_result, hch]
    · rw [exec_dec_result hexec rfl] at hi
      rw [← hch] at hw'
      exact hw.entries_unique (Latch.legal_ch hl) hlen hbytes hw' _ _ hi
  · exact ⟨_, _, exec_dec_of_malformed hl hs hlen hok, exec_dec_of_malformed hlu hsu hlenu (mt hheaders.mpr hok), rfl,
      rfl, fun herr => by cases herr⟩

end Sys2Proof.Machine
end

section
/-! PROOFS. The initial index and the initial delta (42_context_init.md R170, R171, R173). -/

namespace Sys2Proof.Machine

/-! ### The initial index -/

/-- What the search of R171 finds: a midpoint above the delta or none, after midpoints that are not above it. -/
theorem seedIndex_spec (d : Nat) :
    (seedIndex d = 88 ∨ d < midpoint (seedIndex d)) ∧ ∀ i, i < seedIndex d → midpoint i ≤ d := by
  unfold seedIndex
  cases h : (List.range 88).find? fun i => d < midpoint i with
  | none =>
    rw [Option.getD_none]
    exact ⟨.inl rfl,
      by simpa only [List.find?_range_eq_none, Bool.not_eq_true', decide_eq_false_iff_not, Nat.not_lt] using h⟩
  | some k =>
    obtain ⟨hk, -, hbelow⟩ := List.find?_range_eq_some.mp h
    rw [Option.getD_some]
    exact ⟨.inr (of_decide_eq_true hk),
      by simpa only [Bool.not_eq_true', decide_eq_false_iff_not, Nat.not_lt] using hbelow⟩

theorem midpoint_le_succ {i : Nat} (hi : i + 1 < 88) : midpoint i ≤ midpoint (i + 1) := by
  have hlow := stepRom_lt_succ i (Nat.lt_of_succ_lt hi)
  have hhigh := stepRom_lt_succ (i + 1) hi
  exact Nat.div_le_div_right (by omega)

/-- The midpoints do not decrease, since the steps increase. -/
theorem midpoint_mono {i j : Nat} (hij : i ≤ j) (hj : j < 88) : midpoint i ≤ midpoint j := by
  induction hij with
  | refl => exact Nat.le_refl _
  | step _ ih => exact Nat.le_trans (ih (Nat.lt_of_succ_lt hj)) (midpoint_le_succ hj)

/-- The thresholds not above a delta are those of the indices below its initial index. -/
theorem midpoint_le_iff_lt_seedIndex {i : Nat} (hi : i < 88) (d : Nat) : midpoint i ≤ d ↔ i < seedIndex d := by
  obtain ⟨hfound, hbelow⟩ := seedIndex_spec d
  refine ⟨fun hle => Nat.lt_of_not_le fun hge => ?_, hbelow i⟩
  have hmono := midpoint_mono hge hi
  omega

theorem length_filter_lt_range (k n : Nat) : ((List.range n).filter fun i => i < k).length = min n k := by
  induction n with
  | zero => exact (Nat.zero_min k).symm
  | succ n ih =>
    rw [List.range_succ, List.filter_append, List.length_append, ih]
    by_cases hn : n < k
    · rw [List.filter_cons_of_pos (p := fun i => decide (i < k)) (decide_eq_true hn), List.filter_nil,
        List.length_singleton]
      omega
    · rw [List.filter_cons_of_neg (p := fun i => decide (i < k)) (Bool.eq_false_iff.mp (decide_eq_false hn)),
        List.filter_nil, List.length_nil]
      omega

theorem seedIndex_eq_count (d : Nat) :
    seedIndex d = ((List.range 88).filter fun i => midpoint i ≤ d).length := by
  have hfilter : ((List.range 88).filter fun i => midpoint i ≤ d) = (List.range 88).filter fun i => i < seedIndex d :=
    List.filter_congr fun i hi => by simp only [midpoint_le_iff_lt_seedIndex (List.mem_range.mp hi)]
  rw [hfilter, length_filter_lt_range, Nat.min_eq_right (seedIndex_le d)]

/-- Settles O38: the search's specification, the count, and the 88 thresholds by evaluation. -/
theorem seedIndexIsLeast : Obligations.SeedIndexIsLeast :=
  ⟨fun d => ⟨seedIndex_le d, (seedIndex_spec d).1, (seedIndex_spec d).2, seedIndex_eq_count d⟩, rfl⟩

/-! ### The initial delta -/

/-- The average `8·65535 + 7` loses an eighth, 65535, and gains at most as much from a difference of 16-bit samples; a
smaller one ends no higher (R170). -/
theorem runningAverage_lt {x : Nat → Int} (hx : ∀ f, is16 (x f)) (t : Nat) {avg : Nat} (havg : avg < 8 * 65535 + 8) :
    runningAverage x t avg < 8 * 65535 + 8 := by
  induction t generalizing avg with
  | zero => exact havg
  | succ t ih =>
    have hdiff : (x (t + 1) - x t).natAbs ≤ 65535 := by
      obtain ⟨hlow, hhigh⟩ := hx t
      obtain ⟨hlow', hhigh'⟩ := hx (t + 1)
      omega
    exact ih (by rw [Nat.shiftRight_eq_div_pow]; omega)

theorem runningAverage_congr {x y : Nat → Int} {t : Nat} (h : ∀ f, f ≤ t → x f = y f) (avg : Nat) :
    runningAverage x t avg = runningAverage y t avg := by
  induction t generalizing avg with
  | zero => rfl
  | succ t ih =>
    rw [runningAverage, runningAverage, h _ (Nat.le_refl _), h t (Nat.le_succ t)]
    exact ih (fun f hf => h f (Nat.le_succ_of_le hf)) _

/-- Frames equal to frame `t` that follow it come first in the iteration, where the average is still 0, and leave it
there (R173). -/
theorem runningAverage_constant_tail {x : Nat → Int} {t k : Nat} (h : ∀ j, j ≤ k → x (t + j) = x t) :
    runningAverage x (t + k) 0 = runningAverage x t 0 := by
  induction k with
  | zero => rfl
  | succ k ih =>
    have hdiff : x (t + k + 1) - x (t + k) = 0 := by
      rw [h k (Nat.le_succ k), Nat.add_assoc, h (k + 1) (Nat.le_refl _), Int.sub_self]
    rw [← Nat.add_assoc, runningAverage, hdiff]
    exact ih fun j hj => h j (Nat.le_succ_of_le hj)

/-- Copies of the last frame leave the initial delta as it is (R173). -/
theorem initialDelta_copy_last (x : Nat → Int) {n frames : Nat} (hn : 1 ≤ n) (hframes : n ≤ frames) :
    initialDelta (fun f => x (min f (n - 1))) frames = initialDelta x n := by
  obtain ⟨k, rfl⟩ := Nat.exists_eq_add_of_le hframes
  have htail : runningAverage (fun f => x (min f (n - 1))) (n - 1 + k) 0 =
      runningAverage (fun f => x (min f (n - 1))) (n - 1) 0 :=
    runningAverage_constant_tail fun j _ => by
      simp only [Nat.min_eq_right (Nat.le_add_right (n - 1) j), Nat.min_self]
  have hblock : runningAverage (fun f => x (min f (n - 1))) (n - 1) 0 = runningAverage x (n - 1) 0 :=
    runningAverage_congr (fun f hf => by rw [Nat.min_eq_left hf]) 0
  rw [initialDelta, Nat.sub_add_comm hn, htail, hblock, initialDelta]

/-- In a constant block every frame continues the first (R173). -/
theorem initialDelta_constant {x : Nat → Int} {n : Nat} (hn : 1 ≤ n) (hx : ∀ f, f < n → x f = x 0) :
    initialDelta x n = 0 := by
  have hzero : runningAverage x (0 + (n - 1)) 0 = runningAverage x 0 0 :=
    runningAverage_constant_tail fun j hj => hx _ (by omega)
  rw [initialDelta, ← Nat.zero_add (n - 1), hzero, runningAverage, Nat.zero_shiftRight]

/-- Settles O39: the average keeps its bound, padding copies the last frame, and a constant block has differences of
0. -/
theorem Seeding.initialDelta : Obligations.InitialDelta := fun x _ hn hx =>
  ⟨runningAverage_lt hx _ (by decide), initialDelta_copy_last x hn (le_pad hn), initialDelta_constant hn⟩

end Sys2Proof.Machine
end

section
/-! PROOFS. ENC: one sample and the search's inputs, the run of every channel, the headers and the round trip through
DEC (43_encoder.md). -/

namespace Sys2Proof.Machine

variable {s t : State} {n : Nat}

/-! ### The empty block -/

/-- Settles O40: `finish` rewrites ERR, RESULT and a sequencer that is idle already. -/
theorem encodeEmptyBlock : Obligations.EncodeEmptyBlock := by
  intro s hl hidle
  rw [exec_enc_zero hl, State.finish, ← hidle]
  rfl

/-! ### One sample -/

theorem Chan.eq_of_fields {b b' : Chan} (hquant : b.toQuant = b'.toQuant) (h0 : b.h0 = b'.h0) (h1 : b.h1 = b'.h1)
    (hweight : b.weight = b'.weight) (herror : b.error = b'.error) : b = b' := by
  cases b
  cases b'
  rw [Chan.mk.injEq]
  exact ⟨hquant, h0, h1, hweight, herror⟩

/-- A word holds a sum exactly if the sum is in range and the word is its pattern (00_scope.md R9). -/
theorem word_toInt_eq_iff {w : Word} {v : Int} :
    w.toInt = v ↔ -2147483648 ≤ v ∧ v ≤ 2147483647 ∧ w = BitVec.ofInt 32 v := by
  constructor
  · rintro rfl
    obtain ⟨hlow, hhigh⟩ := word_bounds w
    exact ⟨hlow, hhigh, BitVec.ofInt_toInt.symm⟩
  · rintro ⟨hlow, hhigh, rfl⟩
    exact toInt_ofInt_word hlow hhigh

/-- Error accumulation moves the error alone, and not in OFF (44_noise_shaping.md R207). -/
theorem accumulateError_eq_ok {mode : NsMode} {b b' : Chan} : accumulateError mode b = .ok b' ↔
    b'.toQuant = b.toQuant ∧ b'.h0 = b.h0 ∧ b'.h1 = b.h1 ∧ b'.weight = b.weight ∧
    (mode = .off → b'.error = b.error) ∧ (mode ≠ .off → b'.error.toInt = b.error.toInt + b.sample.toInt) := by
  cases mode with
  | off =>
    constructor
    · rintro ⟨⟩
      exact ⟨rfl, rfl, rfl, rfl, fun _ => rfl, fun h => absurd rfl h⟩
    · rintro ⟨hquant, h0, h1, hweight, herror, -⟩
      exact congrArg _ (Chan.eq_of_fields hquant h0 h1 hweight (herror rfl)).symm
  | static | dynamic =>
    simp only [accumulateError, bind_eq_ok, chk_eq_ok, Except.ok.injEq]
    constructor
    · rintro ⟨_, ⟨rfl, hlow, hhigh⟩, rfl⟩
      exact ⟨rfl, rfl, rfl, rfl, nofun, fun _ => toInt_ofInt_word hlow hhigh⟩
    · rintro ⟨hquant, h0, h1, hweight, -, herror⟩
      obtain ⟨hlow, hhigh, hword⟩ := word_toInt_eq_iff.mp (herror nofun)
      exact ⟨_, ⟨rfl, hlow, hhigh⟩, Chan.eq_of_fields hquant.symm h0.symm h1.symm hweight.symm hword.symm⟩

/-- Settles O41: shaping keeps the sample and the index, so the search and the code start from the bank's own. -/
theorem encodeSampleSteps : Obligations.EncodeSampleSteps := by
  intro mode b b' raw future n
  simp only [encodeSample, bind_eq_ok, Except.ok.injEq, Prod.mk.injEq, accumulateError_eq_ok, Prod.exists]
  constructor
  · rintro ⟨shaped, y, hshape, m, e, hsearch, _, ⟨hquant, h0, h1, hweight, hoff, hon⟩, rfl, rfl⟩
    have hkeeps : shaped.toQuant = b.toQuant := shape_quant hshape
    rw [hkeeps] at hsearch hquant
    refine ⟨shaped, y, e, hshape, hsearch, hquant, h0, h1, hweight, hoff, fun hmode => ?_⟩
    rw [hon hmode, hquant, hkeeps]
  · rintro ⟨shaped, y, e, hshape, hsearch, hquant, h0, h1, hweight, hoff, hon⟩
    have hkeeps : shaped.toQuant = b.toQuant := shape_quant hshape
    rw [← hkeeps] at hsearch hquant
    refine ⟨shaped, y, hshape, n, e, hsearch, b', ⟨hquant, h0, h1, hweight, hoff, fun hmode => ?_⟩, rfl, rfl⟩
    rw [hon hmode, hquant]

/-- Settles O42: the list is an initial range of the frames after `f`. -/
theorem searchDepth : Obligations.SearchDepth := by
  intro x frames f hf
  refine ⟨by rw [lookaheadTargets, List.length_map, List.length_range]; rfl, fun j v hv => ?_⟩
  rw [lookaheadTargets, List.getElem?_map, Option.map_eq_some_iff] at hv
  obtain ⟨i, hi, rfl⟩ := hv
  obtain ⟨hj, hij⟩ := List.getElem?_eq_some_iff.mp hi
  rw [List.getElem_range] at hij
  rw [List.length_range] at hj
  subst hij
  exact ⟨rfl, by omega⟩

/-! ### What an ENC that succeeds leaves, channel by channel -/

/-- The bank of a channel is the one its run ends in (43_encoder.md R190). -/
theorem encodedBlock_bank (hl : s.latch.legal = true) (hn : 1 ≤ n) {w : EncodeWork} (hw : s.encodedBlock n = .ok w)
    {c : Channel} (hc : c.toNat < s.latch.ch) : s.runAfter n c (pad n - 1) = .ok (w.cs.get c) := by
  have hbank := (encodedBlock_coded hl hn hw).banks c hc
  rwa [startBanks_blockStart hl n hc] at hbank

/-- The code chosen for a frame stands in its place (30_encoding.md R87). -/
theorem encodedBlock_code (hl : s.latch.legal = true) (hn : 1 ≤ n) {w : EncodeWork} (hw : s.encodedBlock n = .ok w)
    (epoch : Nat) {c : Channel} (hc : c.toNat < s.latch.ch) {f : Nat} (h1 : 1 ≤ f) (hf : f ≤ pad n - 1) :
    s.codeChosen n c f = .ok (codeOfFrame s.latch.ch (adpcmByte w.adpcm epoch) c f) := by
  have hcode := (encodedBlock_coded hl hn hw).codes epoch c f hc h1 hf
  rwa [startBanks_blockStart hl n hc] at hcode

/-- The header of a channel carries the bank its block starts from (43_encoder.md R184). -/
theorem encodedBlock_header (hl : s.latch.legal = true) (hn : 1 ≤ n) {w : EncodeWork}
    (hw : s.encodedBlock n = .ok w) (epoch : Nat) {c : Channel} (hc : c.toNat < s.latch.ch) {k : Nat} (hk : k < 4) :
    adpcmByte w.adpcm epoch (headerAddress c k) = headerByte (s.blockStart n c).toQuant k := by
  have hheader := (encodedBlock_coded hl hn hw).headers epoch c k hc hk
  rwa [startBanks_blockStart hl n hc] at hheader

/-- An ENC of frames that ends without error has encoded its block. -/
theorem exec_enc_noError (hn : 1 ≤ n) (h : exec (.enc n) s = .next t) (herr : t.err = .noError) :
    s.latch.legal = true ∧ n ≤ s.latch.spb ∧ ∃ w, s.encodedBlock n = .ok w ∧
      t = { s with ctxValid := true, cs := w.cs, adpcm := w.adpcm }.finish w.written := by
  cases exec_enc_case h with
  | rejected e he ht =>
    subst ht
    rw [State.raise_err] at herr
    rcases he with rfl | rfl <;> cases herr
  | empty _ h0 _ => omega
  | coded hl hs _ w hw ht => exact ⟨hl, hs, w, hw, ht⟩
  | outOfRange _ _ ht =>
    subst ht
    cases herr

/-! ### The run of every channel -/

/-- A block that fails ends the ENC with NUMERIC_RANGE: the self-check of the length never fails (R188;
60_exceptions.md R305). -/
theorem exec_enc_of_encodedBlock_error (hl : s.latch.legal = true) (hs : n ≤ s.latch.spb) (hn : 1 ≤ n) {e : ErrCode}
    (hw : s.encodedBlock n = .error e) :
    exec (.enc n) s = .next ((s.afterEncodeError n).raise .numericRange) := by
  rw [execEnc_legal hl hs, State.encodeBlock, if_neg (by omega), hw, ← (encodedBlock_error hl hn hw).1]

/-- Settles O43: the block is encoded exactly if every channel's own run reaches its end. -/
theorem encodeRunsEveryChannel : Obligations.EncodeRunsEveryChannel := by
  intro s n hl hn hs
  refine ⟨fun b hruns => ?_, fun ⟨c, e, hc, hfails⟩ => ?_⟩
  · obtain ⟨w, hw⟩ := (encodedBlock_iff_runs hl hn).mpr fun c hc => ⟨b c, hruns c hc⟩
    have hexec := exec_enc_of_encodedBlock hl hs hn hw
    refine ⟨_, hexec, rfl, rfl, exec_enc_result hexec rfl, fun c hc => ?_, fun c f hc h1 hf => ?_⟩
    · exact Except.ok.inj ((encodedBlock_bank hl hn hw hc).symm.trans (hruns c hc))
    · exact encodedBlock_code hl hn hw s.epoch hc h1 (by omega)
  · cases hw : s.encodedBlock n with
    | ok w =>
      rw [encodedBlock_bank hl hn hw hc] at hfails
      cases hfails
    | error e =>
      exact ⟨_, exec_enc_of_encodedBlock_error hl hs hn hw, rfl, Bool.or_true _, rfl⟩

/-! ### The headers -/

theorem blockStart_index (s : State) (n : Nat) (c : Channel) : (s.blockStart n c).index.toNat =
    if s.ctxValid then (s.cs.get c).index.toNat
    else seedIndex (initialDelta (fun f => s.input n f c) (pad n)) := by
  have hseed := seedIndex_le (initialDelta (fun f => s.input n f c) (pad n))
  rw [State.blockStart]
  split
  · rfl
  · rw [BitVec.toNat_ofNat]
    omega

theorem headerByte_index (q : Quant) : (headerByte q 2).toNat = q.index.toNat :=
  (BitVec.toNat_setWidth 8 q.index).trans (Nat.mod_eq_of_lt (by have := q.index.isLt; omega))

/-- Settles O44: a header carries the bank at block start. -/
theorem encodeHeaders : Obligations.EncodeHeaders := by
  intro s t n hn hexec herr c hc
  obtain ⟨hl, -, w, hw, rfl⟩ := exec_enc_noError hn hexec herr
  have hheader {k : Nat} (hk : k < 4) := encodedBlock_header hl hn hw s.epoch hc hk
  refine ⟨hheader (k := 0) (by omega), hheader (k := 1) (by omega), ?_, hheader (k := 3) (by omega)⟩
  rw [← blockStart_index, ← headerByte_index]
  exact congrArg BitVec.toNat (hheader (k := 2) (by omega))

/-! ### Shaping off -/

/-- The two banks have the same shaping fields (44_noise_shaping.md R209). -/
structure SameShaping (b b' : Chan) : Prop where
  h0 : b'.h0 = b.h0
  h1 : b'.h1 = b.h1
  weight : b'.weight = b.weight
  error : b'.error = b.error

/-- With shaping off a frame of 16-bit inputs is coded, from any bank, and the shaping fields stay
(45_lookahead.md R227). -/
theorem encodeFrame_off {x : Nat → Int} (hx : ∀ f, is16 (x f)) (frames : Nat) (b : Chan) (f : Nat) :
    ∃ r, encodeFrame .off x frames b f = .ok r ∧ SameShaping b r.2 := by
  have hfuture : ∀ v ∈ lookaheadTargets x frames f, is16 v := fun v hv => by
    obtain ⟨j, -, rfl⟩ := List.mem_map.mp hv
    exact hx _
  obtain ⟨⟨n, e⟩, hfound⟩ := search_is16 b.index.toNat (is16_half b.sample) (hx f) hfuture
  exact ⟨(n, { b with toQuant := b.toQuant.apply n }),
    (encodeSampleSteps _ _ _ _ _ _).mpr
      ⟨b, x f, e, rfl, hfound, rfl, rfl, rfl, rfl, fun _ => rfl, fun h => absurd rfl h⟩, rfl, rfl, rfl, rfl⟩

theorem bankAfter_off {x : Nat → Int} (hx : ∀ f, is16 (x f)) (frames : Nat) (start : Chan) (f : Nat) :
    ∃ b, bankAfter .off x frames start f = .ok b ∧ SameShaping start b := by
  induction f with
  | zero => exact ⟨start, rfl, rfl, rfl, rfl, rfl⟩
  | succ f ih =>
    obtain ⟨b, hb, hsame⟩ := ih
    obtain ⟨r, hr, hsame'⟩ := encodeFrame_off hx frames b (f + 1)
    exact ⟨r.2, (bankAfter_succ hb hr).1, hsame'.h0.trans hsame.h0, hsame'.h1.trans hsame.h1,
      hsame'.weight.trans hsame.weight, hsame'.error.trans hsame.error⟩

/-- Settles O45: with shaping off the run of every channel reaches its end. -/
theorem encodeCompletesWhenOff : Obligations.EncodeCompletesWhenOff := by
  intro s n hl hoff hn hs
  have hrun : ∀ c, ∃ b, s.runAfter n c (pad n - 1) = .ok b ∧ SameShaping (s.blockStart n c) b := fun c => by
    rw [State.runAfter, hoff]
    exact bankAfter_off (fun _ => is16_half _) _ _ _
  obtain ⟨b, hb⟩ := Classical.skolem.mp hrun
  obtain ⟨t, hexec, herr, hctx, hresult, hbanks, -⟩ :=
    (encodeRunsEveryChannel s n hl hn hs).1 b fun c _ => (hb c).1
  refine ⟨t, hexec, herr, hctx, hresult, fun c => ?_⟩
  by_cases hc : c.toNat < s.latch.ch
  · rw [hbanks c hc]
    obtain ⟨-, h0, h1, hweight, herror⟩ := hb c
    exact ⟨h0, h1, hweight, herror⟩
  · rw [exec_enc_bank_unused hexec (Nat.not_lt.mp hc)]
    exact ⟨rfl, rfl, rfl, rfl⟩

/-! ### The round trip -/

/-- The decoder finds in a block of `n` frames the chunks the encoder wrote (41_decoder.md R153;
46_block_arithmetic.md R245). -/
theorem chunkCount_blockBytes {ch : Nat} (hch : ch = 1 ∨ ch = 2) (hn : 1 ≤ n) :
    chunkCount ch (blockBytes ch n) = (pad n - 1) / 8 := by
  rw [chunkCount, blockBytes_pos hn]
  rcases hch with rfl | rfl <;> omega

theorem frameCount_blockBytes {ch : Nat} (hch : ch = 1 ∨ ch = 2) (hn : 1 ≤ n) :
    frameCount ch (blockBytes ch n) = pad n := by
  rw [frameCount, chunkCount_blockBytes hch hn, ← pad_sub_one]
  have := le_pad hn
  omega

/-- The headers of an encoded block are well formed (30_encoding.md R84; 10_state.md R22). -/
theorem encodedBlock_headersOk (hl : s.latch.legal = true) (hn : 1 ≤ n)
    (hindex : ∀ c, (s.cs.get c).index.toNat ≤ 88) {w : EncodeWork} (hw : s.encodedBlock n = .ok w) (epoch : Nat) :
    headersOk (adpcmByte w.adpcm epoch) s.latch.ch := by
  intro c hc
  rw [encodedBlock_header hl hn hw epoch hc (by omega), encodedBlock_header hl hn hw epoch hc (by omega)]
  exact headerWellFormed_headerByte (blockStart_index_le (hindex c))

/-- The decoder's registers on an encoded block are the encoder's running reconstruction (43_encoder.md R190;
40_quantizer.md R116). -/
theorem encodedBlock_decodes (hl : s.latch.legal = true) (hn : 1 ≤ n) {w : EncodeWork}
    (hw : s.encodedBlock n = .ok w) (epoch : Nat) {c : Channel} (hc : c.toNat < s.latch.ch) {f : Nat}
    (hf : f ≤ pad n - 1) : ∃ b, s.runAfter n c f = .ok b ∧
      decodedQuant s.latch.ch (adpcmByte w.adpcm epoch) c f = b.toQuant := by
  obtain ⟨b, hb⟩ := bankAfter_prefix hf (encodedBlock_bank hl hn hw hc)
  refine ⟨b, hb, bankAfter_quant hb ?_ fun g m h1 hg hm => ?_⟩
  · rw [decodedQuant, encodedBlock_header hl hn hw epoch hc (by omega),
      encodedBlock_header hl hn hw epoch hc (by omega), encodedBlock_header hl hn hw epoch hc (by omega),
      headerQuant_headerByte]
  · exact Except.ok.inj ((encodedBlock_code hl hn hw epoch hc h1 (by omega)).symm.trans hm)

/-- Settles O49: the block's headers are well formed, and each frame decodes to the bank of the run. -/
theorem roundTrip : Obligations.RoundTrip := by
  intro s t n hl hn hs hindex hexec herr
  obtain ⟨-, -, w, hw, rfl⟩ := exec_enc_noError hn hexec herr
  have hch := Latch.legal_ch hl
  have hchunks := chunkCount_blockBytes hch hn
  have hheaders : 4 * s.latch.ch ≤ blockBytes s.latch.ch n := by
    rw [blockBytes_pos hn]
    exact Nat.le_mul_of_pos_right _ (by omega)
  obtain ⟨v, hv, hdec⟩ := exec_dec_of_headersOk
    (s := State.finish { s with ctxValid := true, cs := w.cs, adpcm := w.adpcm } w.written) hl (blockBytes_le hl hs)
    hheaders (encodedBlock_headersOk hl hn hindex hw s.epoch)
  refine ⟨_, hdec, rfl, (exec_dec_result hdec rfl).trans (frameCount_blockBytes hch hn), fun c f hc hf => ?_⟩
  obtain ⟨b, hb, hquant⟩ := encodedBlock_decodes hl hn hw s.epoch hc (f := f) (by omega)
  refine ⟨b, hb, ?_, ?_⟩
  · have hlast : f ≤ 8 * chunkCount s.latch.ch (blockBytes s.latch.ch n) := by
      rw [hchunks, ← pad_sub_one]
      omega
    exact (hv.samples s.epoch c f hc hlast).trans (congrArg Quant.sample hquant)
  · rintro rfl
    exact Except.ok.inj ((encodedBlock_bank hl hn hw hc).symm.trans hb)

end Sys2Proof.Machine
end

section
/-! PROOFS. Noise shaping: when each step of the pre-filter answers and what, and encode-sample with shaping on
(44_noise_shaping.md). -/

namespace Sys2Proof.Machine

variable {b b' : Chan} {s y : Int}

/-! ### Static shaping -/

/-- Both checked values stay in 32 bits exactly if the shaped sample and its negation do (R201). -/
theorem shape_static_eq_ok : shape .static b s = .ok (b', y) ↔
    y = s - b.error.toInt ∧ -2147483647 ≤ y ∧ y ≤ 2147483647 ∧ b' = { b with error := BitVec.ofInt 32 (-y) } := by
  simp only [shape, shapeStatic, bind_eq_ok, chk_eq_ok, Except.ok.injEq, Prod.mk.injEq]
  constructor
  · rintro ⟨_, ⟨rfl, _, _⟩, _, ⟨rfl, _, _⟩, rfl, rfl⟩
    exact ⟨rfl, by omega, by omega, rfl⟩
  · rintro ⟨rfl, hlow, hhigh, rfl⟩
    exact ⟨_, ⟨rfl, by omega, by omega⟩, _, ⟨rfl, by omega, by omega⟩, rfl, rfl⟩

/-- Settles O50: the cases of the pre-filter, and the steps of encode-sample around it. -/
theorem staticShaping : Obligations.StaticShaping := by
  refine ⟨fun b raw hlow hhigh => ?_, fun b raw hout => ?_, fun b b' raw future n h => ?_⟩
  · exact ⟨_, shape_static_eq_ok.mpr ⟨rfl, hlow, hhigh, rfl⟩, toInt_ofInt_word (by omega) (by omega), rfl⟩
  · cases hshape : shape .static b raw with
    | error e => rw [shape_rangeOnly _ _ _ e hshape]
    | ok r =>
      obtain ⟨hy, hlow, hhigh, -⟩ := shape_static_eq_ok.mp hshape
      omega
  · obtain ⟨shaped, y, e, hshape, hsearch, hquant, h0, h1, hweight, -, herror⟩ :=
      (encodeSampleSteps _ _ _ _ _ _).mp h
    obtain ⟨rfl, hlow, hhigh, rfl⟩ := shape_static_eq_ok.mp hshape
    refine ⟨⟨e, hsearch⟩, hquant, ?_, h0, h1, hweight⟩
    rw [herror nofun, toInt_ofInt_word (by omega) (by omega)]
    omega

/-! ### The steps of dynamic shaping, on integers -/

/-- The prediction `sam` (R202). -/
def prediction (b : Chan) : Int := (3 * b.h0.toInt - b.h1.toInt) / 2

/-- The weight after adaptation (R203). -/
def adaptedWeight (weight sam temp : Int) : Int :=
  if sam = 0 ∨ temp = 0 then weight
  else if sam < 0 ∧ temp < 0 ∨ 0 < sam ∧ 0 < temp then weight + 2 else weight - 2

/-- The gain `sw` (R205). -/
def gainOf (weight : Int) : Int := if weight < 256 then 1024 else 1536 - 2 * weight

/-- The filtered error term `t` before its correction (R206). -/
def filteredError (sw error : Int) : Int := -((sw * error + 512) / 1024)

theorem prediction_bounds (b : Chan) : -65536 ≤ prediction b ∧ prediction b ≤ 65534 := by
  have h0 := half_bounds b.h0
  have h1 := half_bounds b.h1
  unfold prediction
  omega

/-- The prediction never leaves 32 bits. -/
theorem predict_eq (b : Chan) : predict b = .ok (prediction b) := by
  have h0 := half_bounds b.h0
  have h1 := half_bounds b.h1
  unfold predict
  rw [chk_of_mem (by omega) (by omega)]
  rfl

/-- A product checked before and after its rounding (R202, R206). -/
theorem checkedProduct_eq_ok {α : Type} {p : Int} {f : Int → Checked α} {v : α} :
    (chk p >>= fun product => chk (product + 512) >>= f) = .ok v ↔
      -2147483648 ≤ p ∧ p + 512 ≤ 2147483647 ∧ f (p + 512) = .ok v := by
  simp only [bind_eq_ok, chk_eq_ok]
  constructor
  · rintro ⟨_, ⟨rfl, hlow, -⟩, _, ⟨rfl, -, hhigh⟩, hf⟩
    exact ⟨hlow, hhigh, hf⟩
  · rintro ⟨hlow, hhigh, hf⟩
    exact ⟨_, ⟨rfl, hlow, by omega⟩, _, ⟨rfl, by omega, hhigh⟩, hf⟩

theorem residual_eq_ok {weight sam temp : Int} : residual weight sam s = .ok temp ↔
    -2147483648 ≤ weight * sam ∧ weight * sam + 512 ≤ 2147483647 ∧
    temp = s - (weight * sam + 512) / 1024 ∧
    -2147483648 ≤ s - (weight * sam + 512) / 1024 ∧ s - (weight * sam + 512) / 1024 ≤ 2147483647 :=
  checkedProduct_eq_ok.trans (and_congr_right' (and_congr_right' chk_eq_ok))

/-- From a weight in 32 bits the adaptation answers exactly if the adapted weight stays there. -/
theorem adaptWeight_eq {weight : Int} (hlow : -2147483648 ≤ weight) (hhigh : weight ≤ 2147483647) (sam temp : Int) :
    adaptWeight weight sam temp = chk (adaptedWeight weight sam temp) := by
  unfold adaptWeight adaptedWeight
  by_cases hzero : sam = 0 ∨ temp = 0
  · rw [if_neg (by omega), if_pos hzero, chk_of_mem hlow hhigh]
  · rw [if_pos (by omega), if_neg hzero]
    by_cases hsigns : (sam < 0) = (temp < 0)
    · rw [if_pos hsigns, if_pos]
      rw [eq_iff_iff] at hsigns
      omega
    · rw [if_neg hsigns, if_neg]
      rw [eq_iff_iff] at hsigns
      omega

theorem adaptedWeight_bounds (weight sam temp : Int) :
    weight - 2 ≤ adaptedWeight weight sam temp ∧ adaptedWeight weight sam temp ≤ weight + 2 := by
  unfold adaptedWeight
  split
  · omega
  · split <;> omega

/-- Doubling the weight is the only check of the gain that can fail (R205). -/
theorem shapingGain_eq_ok {weight sw : Int} : shapingGain weight = .ok sw ↔
    sw = gainOf weight ∧ weight ≤ 1073741823 := by
  unfold shapingGain gainOf
  by_cases hsmall : weight < 256
  · rw [if_pos hsmall, if_pos hsmall, Except.ok.injEq]
    omega
  · rw [if_neg hsmall, if_neg hsmall]
    simp only [bind_eq_ok, chk_eq_ok]
    constructor
    · rintro ⟨_, ⟨rfl, -, hhigh⟩, rfl, -, -⟩
      exact ⟨rfl, by omega⟩
    · rintro ⟨rfl, hhigh⟩
      exact ⟨_, ⟨rfl, by omega, by omega⟩, rfl, by omega, by omega⟩

theorem errorTerm_eq_ok {sw error t : Int} : errorTerm sw error = .ok t ↔
    -2147483648 ≤ sw * error ∧ sw * error + 512 ≤ 2147483647 ∧ t = filteredError sw error :=
  checkedProduct_eq_ok.trans (and_congr_right' (and_congr_right' (by rw [Except.ok.injEq, eq_comm]; rfl)))

/-- The correction of a term other than 0 (R206). -/
theorem correctTerm_of_ne_zero {t : Int} (ht : t ≠ 0) (error : Int) :
    correctTerm t error = if t = error then (if t < 0 then t + 1 else t - 1) else t := by
  unfold correctTerm
  by_cases hneg : t < 0
  · rw [if_pos hneg, if_pos hneg]
  · rw [if_neg hneg, if_neg hneg, if_pos (show t > 0 by omega)]

theorem correctTerm_bounds (t error : Int) : t - 1 ≤ correctTerm t error ∧ correctTerm t error ≤ t + 1 := by
  unfold correctTerm
  split
  · split
    · omega
    · split <;> omega
  · omega

/-- With a negative gain and a term other than 0 the error is negated from the raw sample, otherwise from the shaped one
(R206). -/
theorem feedBack_eq_ok (hs : is16 s) {sw error e : Int} : feedBack sw error s = .ok (e, y) ↔
    ∃ t, errorTerm sw error = .ok t ∧
      if sw < 0 ∧ t ≠ 0 then y = s + correctTerm t error ∧ e = -s ∧ -2147483648 ≤ y ∧ y ≤ 2147483647
      else y = s + t ∧ e = -y ∧ -2147483647 ≤ y ∧ y ≤ 2147483647 := by
  obtain ⟨hslow, hshigh⟩ := hs
  simp only [feedBack, bind_eq_ok]
  refine exists_congr fun t => and_congr_right' ?_
  by_cases hneg : sw < 0 ∧ t ≠ 0
  · rw [if_pos hneg, if_pos hneg]
    simp only [bind_eq_ok, chk_eq_ok, Except.ok.injEq, Prod.mk.injEq]
    constructor
    · rintro ⟨_, ⟨rfl, -, -⟩, _, ⟨rfl, hlow, hhigh⟩, rfl, rfl⟩
      exact ⟨rfl, rfl, hlow, hhigh⟩
    · rintro ⟨rfl, rfl, hlow, hhigh⟩
      exact ⟨_, ⟨rfl, by omega, by omega⟩, _, ⟨rfl, hlow, hhigh⟩, rfl, rfl⟩
  · rw [if_neg hneg, if_neg hneg]
    simp only [bind_eq_ok, chk_eq_ok, Except.ok.injEq, Prod.mk.injEq]
    constructor
    · rintro ⟨_, ⟨rfl, -, hhigh⟩, _, ⟨rfl, -, hneghigh⟩, rfl, rfl⟩
      exact ⟨rfl, rfl, by omega, hhigh⟩
    · rintro ⟨rfl, rfl, hlow, hhigh⟩
      exact ⟨_, ⟨rfl, by omega, hhigh⟩, _, ⟨rfl, by omega, by omega⟩, rfl, rfl⟩

/-! ### Dynamic shaping -/

/-- The steps in their order (R208): what each answers, and the bank they leave. -/
theorem shape_dynamic_eq_ok : shape .dynamic b s = .ok (b', y) ↔
    ∃ temp, residual b.weight.toInt (prediction b) s = .ok temp ∧
    ∃ weight, chk (adaptedWeight b.weight.toInt (prediction b) temp) = .ok weight ∧
    ∃ sw, shapingGain weight = .ok sw ∧
    ∃ e, feedBack sw b.error.toInt s = .ok (e, y) ∧
      b' = { b with h1 := b.h0, h0 := BitVec.ofInt 16 s, weight := BitVec.ofInt 32 weight,
                    error := BitVec.ofInt 32 e } := by
  obtain ⟨hlow, hhigh⟩ := word_bounds b.weight
  simp only [shape, shapeDynamic, predict_eq, bind_eq_ok, adaptWeight_eq hlow hhigh, Except.ok.injEq, Prod.mk.injEq,
    Prod.exists, exists_eq_left']
  constructor
  · rintro ⟨temp, htemp, weight, hweight, sw, hsw, e, _, hfeed, rfl, rfl⟩
    exact ⟨temp, htemp, weight, hweight, sw, hsw, e, hfeed, rfl⟩
  · rintro ⟨temp, htemp, weight, hweight, sw, hsw, e, hfeed, rfl⟩
    exact ⟨temp, htemp, weight, hweight, sw, hsw, e, y, hfeed, rfl, rfl⟩

/-- Settles O51: each step's value, put together in the order of the rules. -/
theorem dynamicShaping : Obligations.DynamicShaping := by
  intro b b' s y hs h
  obtain ⟨temp, htemp, weight, hweight, sw, hsw, e, hfeed, rfl⟩ := shape_dynamic_eq_ok.mp h
  obtain ⟨-, -, rfl, -, -⟩ := residual_eq_ok.mp htemp
  obtain ⟨rfl, hlow, hhigh⟩ := chk_eq_ok.mp hweight
  obtain ⟨rfl, -⟩ := shapingGain_eq_ok.mp hsw
  obtain ⟨t, ht, hfed⟩ := (feedBack_eq_ok hs).mp hfeed
  obtain ⟨-, -, rfl⟩ := errorTerm_eq_ok.mp ht
  obtain ⟨hslow, hshigh⟩ := hs
  refine ⟨rfl, toInt_ofInt_half hslow hshigh, rfl, toInt_ofInt_word hlow hhigh, fun hneg => ?_, fun hneg => ?_⟩
  · obtain ⟨hy, rfl, -, -⟩ := (if_pos hneg).mp hfed
    exact ⟨hy.trans (congrArg (s + ·) (correctTerm_of_ne_zero hneg.2 _)), toInt_ofInt_word (by omega) (by omega)⟩
  · obtain ⟨hy, rfl, hylow, hyhigh⟩ := (if_neg hneg).mp hfed
    exact ⟨hy, toInt_ofInt_word (by omega) (by omega)⟩

end Sys2Proof.Machine
end

section
/-! PROOFS. Noise shaping while weight and error are small: the dynamic pre-filter stays in 32 bits, and encode-sample
goes on in STATIC and DYNAMIC (44_noise_shaping.md R210; 45_lookahead.md R227). -/

namespace Sys2Proof.Machine

variable {b : Chan} {s : Int}

/-! ### The dynamic pre-filter -/

theorem natAbs_mul_le {x y : Int} {m n : Nat} (hx : x.natAbs ≤ m) (hy : y.natAbs ≤ n) : (x * y).natAbs ≤ m * n := by
  rw [Int.natAbs_mul]
  exact Nat.mul_le_mul hx hy

/-- The residual is defined while the weighted prediction is at most `2^30` (R202). -/
theorem residual_of_small (hs : is16 s) {weight sam : Int} (hweight : weight.natAbs ≤ 16384)
    (hsam : sam.natAbs ≤ 65536) : ∃ temp, residual weight sam s = .ok temp := by
  obtain ⟨hslow, hshigh⟩ := hs
  have hproduct := natAbs_mul_le hweight hsam
  exact ⟨_, residual_eq_ok.mpr ⟨by omega, by omega, rfl, by omega, by omega⟩⟩

theorem gainOf_bounds {weight : Int} (hlow : -16386 ≤ weight) (hhigh : weight ≤ 16386) :
    (gainOf weight).natAbs ≤ 31236 := by
  unfold gainOf
  split <;> omega

/-- A product of gain and error below `31236 · 65536` filters to a term below `2^21`, whichever way it is fed back
(R206). -/
theorem feedBack_of_small (hs : is16 s) {sw error : Int} (hsw : sw.natAbs ≤ 31236) (herror : error.natAbs ≤ 65536) :
    ∃ e y, feedBack sw error s = .ok (e, y) ∧ e.natAbs ≤ 2097152 ∧ y.natAbs ≤ 2097152 := by
  have hproduct := natAbs_mul_le hsw herror
  have hterm : errorTerm sw error = .ok (filteredError sw error) := errorTerm_eq_ok.mpr ⟨by omega, by omega, rfl⟩
  have ht : (filteredError sw error).natAbs ≤ 1999105 := by
    unfold filteredError
    omega
  have hcorrect := correctTerm_bounds (filteredError sw error) error
  obtain ⟨hslow, hshigh⟩ := hs
  by_cases hneg : sw < 0 ∧ filteredError sw error ≠ 0
  · refine ⟨-s, s + correctTerm (filteredError sw error) error, (feedBack_eq_ok ⟨hslow, hshigh⟩).mpr ⟨_, hterm, ?_⟩,
      by omega, by omega⟩
    rw [if_pos hneg]
    exact ⟨rfl, rfl, by omega, by omega⟩
  · refine ⟨-(s + filteredError sw error), s + filteredError sw error,
      (feedBack_eq_ok ⟨hslow, hshigh⟩).mpr ⟨_, hterm, ?_⟩, by omega, by omega⟩
    rw [if_neg hneg]
    exact ⟨rfl, rfl, by omega, by omega⟩

/-- Each step answers, so the pre-filter does, with a shaped sample and an error below `2^21`. -/
theorem shape_dynamic_of_small (hs : is16 s) (hweight : b.weight.toInt.natAbs ≤ 16384)
    (herror : b.error.toInt.natAbs ≤ 65536) :
    ∃ b' y, shape .dynamic b s = .ok (b', y) ∧ b'.error.toInt.natAbs ≤ 2097152 ∧ y.natAbs ≤ 2097152 := by
  obtain ⟨hsamlow, hsamhigh⟩ := prediction_bounds b
  obtain ⟨temp, htemp⟩ := residual_of_small hs hweight (sam := prediction b) (by omega)
  obtain ⟨hwlow, hwhigh⟩ := adaptedWeight_bounds b.weight.toInt (prediction b) temp
  have hgain := gainOf_bounds (weight := adaptedWeight b.weight.toInt (prediction b) temp) (by omega) (by omega)
  obtain ⟨e, y, hfeed, he, hy⟩ := feedBack_of_small hs hgain herror
  refine ⟨_, y, shape_dynamic_eq_ok.mpr ⟨temp, htemp, _, chk_of_mem (by omega) (by omega), _,
    shapingGain_eq_ok.mpr ⟨rfl, by omega⟩, e, hfeed, rfl⟩, ?_, hy⟩
  rwa [toInt_ofInt_word (by omega) (by omega)]

/-- Settles O52: the bounds of the statement are those under which each step answers. -/
theorem dynamicShapingCompletes : Obligations.DynamicShapingCompletes := by
  intro b s hs hwlow hwhigh helow hehigh
  obtain ⟨b', y, hshape, -⟩ := shape_dynamic_of_small (b := b) hs (by omega) (by omega)
  exact ⟨(b', y), hshape⟩

/-! ### One sample with shaping on -/

/-- encode-sample goes on once the pre-filter has, if its greedy step can scale the shaped sample (R221) and the sum of
R207 stays in 32 bits whatever 16-bit sample the code reconstructs. -/
theorem encodeSample_of_shape {mode : NsMode} (hmode : mode ≠ .off) {shaped : Chan} {raw y : Int} {future : List Int}
    (hshape : shape mode b raw = .ok (shaped, y)) (hy : y.natAbs ≤ 536838143)
    (herror : shaped.error.toInt.natAbs ≤ 2147450879) (hfuture : ∀ v ∈ future, is16 v) :
    ∃ n b', encodeSample mode b raw future = .ok (n, b') ∧
      b'.error.toInt = shaped.error.toInt + b'.sample.toInt := by
  have hsample := half_bounds b.sample
  obtain ⟨⟨n, e⟩, hsearch⟩ := search_of_mem (sample := b.sample.toInt) (s := y) b.index.toNat (by omega) hfuture
  have hnew := half_bounds (b.toQuant.apply n).sample
  have hsum : (BitVec.ofInt 32 (shaped.error.toInt + (b.toQuant.apply n).sample.toInt)).toInt =
      shaped.error.toInt + (b.toQuant.apply n).sample.toInt := toInt_ofInt_word (by omega) (by omega)
  exact ⟨n, { shaped with toQuant := b.toQuant.apply n, error := BitVec.ofInt 32 _ },
    (encodeSampleSteps _ _ _ _ _ _).mpr ⟨shaped, y, e, hshape, hsearch, rfl, rfl, rfl, rfl,
      fun hoff => absurd hoff hmode, fun _ => hsum⟩, hsum⟩

/-- Settles O53: in both modes the pre-filter answers within the bounds that `encodeSample_of_shape` asks for. -/
theorem shapedSampleCompletes : Obligations.ShapedSampleCompletes := by
  intro b raw future hraw hfuture
  refine ⟨fun helow hehigh => ?_, fun hwlow hwhigh helow hehigh => ?_⟩
  · obtain ⟨hrawlow, hrawhigh⟩ := hraw
    obtain ⟨shaped, hshape, hnegated, -⟩ := staticShaping.1 b raw (by omega) (by omega)
    obtain ⟨n, b', hencode, herror⟩ := encodeSample_of_shape (by decide) hshape (by omega) (by omega) hfuture
    have hsample := half_bounds b'.sample
    exact ⟨n, b', hencode, by omega⟩
  · obtain ⟨shaped, y, hshape, herror, hy⟩ := shape_dynamic_of_small (b := b) hraw (by omega) (by omega)
    obtain ⟨n, b', hencode, -⟩ := encodeSample_of_shape (by decide) hshape (by omega) (by omega) hfuture
    exact ⟨(n, b'), hencode⟩

end Sys2Proof.Machine
end

section
/-! PROOFS. The lookahead search: when the greedy code exists, and that the search answers a least total error
(45_lookahead.md R221, R222, R226, R227). The loop invariant `Best` and its fold are in Sys2Proof/Laws/Search.lean. -/

namespace Sys2Proof.Machine

variable {sample s : Int} {index : Nat}

/-- The shift of R221 is the check that bounds the distance. -/
theorem le_of_greedyMagnitude_eq_ok {distance : Int} {step m : Nat} (h : greedyMagnitude distance step = .ok m) :
    distance ≤ 536870911 := by
  obtain ⟨scaled, hscaled, -⟩ := bind_eq_ok.mp h
  obtain ⟨-, -, hhigh⟩ := chk_eq_ok.mp hscaled
  omega

/-- The converse of `greedy_of_mem`: on either side of the sample, the distance that the greedy step scales is that of
the target. -/
theorem natAbs_le_of_greedy_eq_ok {g : Nibble} (h : greedy sample index s = .ok g) :
    (s - sample).natAbs ≤ 536870911 := by
  obtain ⟨delta, hdelta, h⟩ := bind_eq_ok.mp h
  obtain ⟨rfl, -, -⟩ := chk_eq_ok.mp hdelta
  split at h
  · obtain ⟨distance, hdistance, h⟩ := bind_eq_ok.mp h
    obtain ⟨rfl, -, -⟩ := chk_eq_ok.mp hdistance
    obtain ⟨m, hm, -⟩ := bind_eq_ok.mp h
    have := le_of_greedyMagnitude_eq_ok hm
    omega
  · obtain ⟨m, hm, -⟩ := bind_eq_ok.mp h
    have := le_of_greedyMagnitude_eq_ok hm
    omega

theorem greedy_eq_error (h : 536870911 < (s - sample).natAbs) : greedy sample index s = .error .numericRange := by
  cases hg : greedy sample index s with
  | ok g => exact absurd (natAbs_le_of_greedy_eq_ok hg) (by omega)
  | error e => rw [greedy_rangeOnly _ _ _ e hg]

/-- Settles O54: the greedy code exists exactly up to the bound, and at depth 0 the search applies it. -/
theorem greedyCode : Obligations.GreedyCode := by
  intro sample s index
  refine ⟨greedy_of_mem index, greedy_eq_error, fun g hg => ?_⟩
  simp only [search, hg]
  rfl

/-- Settles O55, by the induction on the future inputs of `search_is16`: every child starts from a 16-bit sample. -/
theorem searchStaysInRange : Obligations.SearchStaysInRange :=
  fun _ _ index _ hsample hs hfuture => search_is16 index hsample hs hfuture

/-- Settles O56: every child search answers, so the loop ends with `Best` of all codes (R226). -/
theorem searchFindsLeastTotal : Obligations.SearchFindsLeastTotal := by
  intro sample s target index future g _ htarget hfuture hg
  obtain ⟨⟨n, e⟩, hsearch, hbest⟩ := search_best hg fun m =>
    search_is16 _ (applyCode_is16 sample index m) htarget hfuture
  obtain rfl : e = totalError sample index s target future n := hbest.value
  exact ⟨n, hsearch, fun m => hbest.least m trivial, hbest.tie, fun hn m => hbest.first hn m trivial⟩

end Sys2Proof.Machine
end

section
/-! PROOFS. Block arithmetic: the padded frame count, the full block, the size of a stream, and the self-check of the
encoder (46_block_arithmetic.md R240 to R248). -/

namespace Sys2Proof.Machine

variable {s t : State} {ch bs n k : Nat}

/-! ### The padded frame count (R244) -/

theorem pad_form (n : Nat) : ∃ k, pad n = 8 * k + 1 := ⟨(n - 1 + 7) / 8, rfl⟩

theorem pad_le (h : n ≤ 8 * k + 1) : pad n ≤ 8 * k + 1 := by
  unfold pad; omega

/-- A count of the padded form is not padded further. -/
theorem pad_eight_mul_add_one (k : Nat) : pad (8 * k + 1) = 8 * k + 1 :=
  Nat.le_antisymm (pad_le (Nat.le_refl _)) (le_pad (Nat.le_add_left 1 _))

/-- Settles O15. -/
theorem padIsLeast : Obligations.PadIsLeast := fun n hn => ⟨le_pad hn, pad_form n, fun _ => pad_le⟩

/-! ### The full block (R240, R241, R245) -/

theorem fullChunks_one (bs : Nat) : fullChunks 1 bs = (bs - 4) / 4 := by
  rw [fullChunks, samplesPerBlock_one]; omega

theorem fullChunks_two (bs : Nat) : fullChunks 2 bs = (bs - 8) / 8 := by
  rw [fullChunks, samplesPerBlock_two]; omega

/-- The frames after the header frame fill whole chunks. -/
theorem samplesPerBlock_eq_fullChunks (hch : ch = 1 ∨ ch = 2) (h8 : bs % 8 = 0) (hbs : 8 ≤ bs) :
    samplesPerBlock ch bs = 8 * fullChunks ch bs + 1 := by
  rcases hch with rfl | rfl
  · rw [samplesPerBlock_one, fullChunks_one]; omega
  · rw [samplesPerBlock_two, fullChunks_two]; omega

/-- The headers and the chunks fill the block's bytes. -/
theorem fullChunks_bytes (hch : ch = 1 ∨ ch = 2) (h8 : bs % 8 = 0) (hbs : 8 ≤ bs) :
    4 * ch * (1 + fullChunks ch bs) = bs := by
  rcases hch with rfl | rfl
  · rw [fullChunks_one]; omega
  · rw [fullChunks_two]; omega

/-- The bytes of a block whose frame count is of the padded form. -/
theorem blockBytes_eight_mul_add_one (ch k : Nat) : blockBytes ch (8 * k + 1) = 4 * ch * (1 + k) := by
  rw [blockBytes_pos (Nat.le_add_left 1 _), pad_eight_mul_add_one, Nat.add_sub_cancel,
    Nat.mul_div_cancel_left k (by decide)]

/-- Settles O14: everything follows from SPB being 8 times the chunk count plus 1. -/
theorem fullBlockIsWholeChunks : Obligations.FullBlockIsWholeChunks := by
  intro ch bs hch h8 hbs
  have hspb := samplesPerBlock_eq_fullChunks hch h8 hbs
  have hbytes := fullChunks_bytes hch h8 hbs
  refine ⟨?_, ?_, hspb, hbytes, ?_, ?_⟩
  · rcases hch with rfl | rfl
    · exact samplesPerBlock_one bs
    · exact samplesPerBlock_two bs
  · rcases hch with rfl | rfl
    · exact fullChunks_one bs
    · exact fullChunks_two bs
  · rw [hspb, pad_eight_mul_add_one]
  · rw [hspb, blockBytes_eight_mul_add_one, hbytes]

/-! ### The size of a stream (R246) -/

theorem samplesPerBlock_pos (ch bs : Nat) : 0 < samplesPerBlock ch bs := Nat.succ_pos _

/-- The quotient of the frame count by SPB counts the full blocks, the remainder is the tail. -/
theorem outputSize_mul_add (q : Nat) {r : Nat} (hr : r < samplesPerBlock ch bs) :
    outputSize ch bs (q * samplesPerBlock ch bs + r) = q * bs + blockBytes ch r := by
  have hdiv : (q * samplesPerBlock ch bs + r) / samplesPerBlock ch bs = q := by
    rw [Nat.add_comm, Nat.add_mul_div_right _ _ (samplesPerBlock_pos ch bs), Nat.div_eq_of_lt hr, Nat.zero_add]
  have hmod : (q * samplesPerBlock ch bs + r) % samplesPerBlock ch bs = r := Nat.mul_add_mod_of_lt hr
  rw [outputSize, hdiv, hmod]

/-- Settles O17; the rule's boundary values are evaluated. -/
theorem outputSizes : Obligations.OutputSizes :=
  ⟨fun _ _ q _ hr => outputSize_mul_add q hr, by decide, by decide⟩

/-! ### The self-check of the encoder (R248) -/

/-- However an ENC ends, its self-check did not fail (43_encoder.md R188). -/
theorem exec_enc_err_ne_encodingSizeMismatch (h : exec (.enc n) s = .next t) : t.err ≠ .encodingSizeMismatch := by
  cases exec_enc_case h with
  | rejected e he ht =>
    rw [ht, State.raise_err]
    rcases he with rfl | rfl <;> decide
  | empty _ _ ht | coded _ _ _ _ _ ht =>
    rw [ht, State.finish_err]
    decide
  | outOfRange _ _ ht =>
    rw [ht, State.raise_err]
    decide

/-- Settles O16. -/
theorem sizesAgree : Obligations.SizesAgree := fun _ _ hl hn hs =>
  ⟨(blockBytes_pos hn).symm, blockBytes_le hl hs, fun _ => exec_enc_err_ne_encodingSizeMismatch⟩

end Sys2Proof.Machine
end

section
/-! PROOFS. CONFIGURE, RESET_STREAM and the host's register writes (47_host_commands.md R261, R264, R265). -/

namespace Sys2Proof.Machine

variable {s : State} {off : Nat} {v : Word} {rest : List HostAccess}

/-! ### What CONFIGURE accepts (R261) -/

/-- The mode of R200, selected by NS_EN as a number. -/
theorem selectNsMode_configNsEn (config : Word) (rate : Nat) : selectNsMode (configNsEn config) rate =
    if config.toNat / 4 % 2 = 0 then .off else if rate > 64000 then .static else .dynamic := by
  simp [selectNsMode, configNsEn_eq]

/-- The register values of the rule are those that pass the three checks. -/
theorem configAccepted_iff {config blockSize sampleRate : Word} {bs : Nat} :
    ConfigAccepted config.toNat blockSize.toNat sampleRate.toNat bs ↔
      ¬ ((configChannels config ≠ 1 ∧ configChannels config ≠ 2) ∨ configReserved config ≠ 0#29) ∧
      ¬ (sampleRate.toNat = 0 ∨ sampleRate.toNat > 2147483647) ∧
      effectiveBlockSize (configChannels config) sampleRate.toNat blockSize.toNat = .ok bs := by
  rw [effectiveBlockSize_eq_ok, ne_eq (configReserved config), configReserved_eq_zero, configChannels_eq]
  unfold ConfigAccepted
  constructor
  · rintro ⟨hch, hreserved, hlow, hhigh, hsize⟩
    exact ⟨by omega, by omega, hsize⟩
  · rintro ⟨hconfig, hrate, hsize⟩
    exact ⟨by omega, by omega, by omega, by omega, hsize⟩

/-- The latch of R261 for the block size in force. -/
def configuredLatch (config sampleRate : Word) (bs : Nat) : Latch :=
  { cfgValid := true
    ch := configChannels config
    nsMode := selectNsMode (configNsEn config) sampleRate.toNat
    bs := bs
    spb := samplesPerBlock (configChannels config) bs
    rate := sampleRate.toNat }

theorem checkConfig_eq_ok {config blockSize sampleRate : Word} {l : Latch} :
    checkConfig config blockSize sampleRate = .ok l ↔
      ∃ bs, ConfigAccepted config.toNat blockSize.toNat sampleRate.toNat bs ∧
        l = configuredLatch config sampleRate bs := by
  simp only [configAccepted_iff]
  constructor
  · intro h
    simp only [checkConfig] at h
    split at h
    case isTrue => cases h
    case isFalse hconfig =>
      split at h
      case isTrue => cases h
      case isFalse hrate =>
        split at h
        case h_1 => cases h
        case h_2 bs hsize =>
          cases h
          exact ⟨bs, ⟨hconfig, hrate, hsize⟩, rfl⟩
  · rintro ⟨bs, ⟨hconfig, hrate, hsize⟩, rfl⟩
    simp only [checkConfig, if_neg hconfig, if_neg hrate, hsize, configuredLatch]

/-! ### CFG -/

theorem exec_cfg_of_accepted {bs : Nat} (h : ConfigAccepted s.config.toNat s.blockSize.toNat s.sampleRate.toNat bs) :
    exec .cfg s =
      .next ({ s.invalidateContext with latch := configuredLatch s.config s.sampleRate bs }.finish 0) := by
  have hok := checkConfig_eq_ok.mpr ⟨bs, h, rfl⟩
  rcases execCfg_cases s with ⟨l, hl, he⟩ | ⟨e, hl, -⟩ <;> rw [hok] at hl <;> cases hl
  exact he

theorem exec_cfg_of_rejected (h : ∀ bs, ¬ ConfigAccepted s.config.toNat s.blockSize.toNat s.sampleRate.toNat bs) :
    exec .cfg s = .next ({ s.invalidateContext with latch := Latch.invalid }.raise .configurationError) := by
  rcases execCfg_cases s with ⟨l, hl, -⟩ | ⟨e, -, he⟩
  · obtain ⟨bs, hbs, -⟩ := checkConfig_eq_ok.mp hl
    exact absurd hbs (h bs)
  · exact he

/-- Settles O19, by the latch of the accepted configuration. -/
theorem configureLatches : Obligations.ConfigureLatches := by
  intro s bs h
  rw [exec_cfg_of_accepted h, configuredLatch, selectNsMode_configNsEn, configChannels_eq]
  rfl

/-! ### ENC and DEC without a configuration (60_exceptions.md R302, R303) -/

theorem exec_enc_of_unconfigured {n : Nat} (hv : s.latch.cfgValid = false) :
    exec (.enc n) s = .next (s.raise .notConfigured) := by
  simp [exec, execEnc, hv]

/-- After a command that failed, an error that sets no FAULT moves ERR only. -/
theorem raise_of_result_zero {e : ErrCode} (he : e.setsFault = false) (hresult : s.result = 0)
    (hseq : s.seq = Sequencer.idle) : s.raise e = { s with err := e } := by
  rw [raise_of_not_setsFault he, ← hresult, ← hseq]

/-- Settles O20: no accepted value, so the latch stays invalid, and ENC and DEC find it so. -/
theorem configureRejects : Obligations.ConfigureRejects := by
  intro s h
  refine ⟨_, exec_cfg_of_rejected h, raise_of_not_setsFault rfl, fun n => ?_⟩
  rw [exec_enc_of_unconfigured rfl, exec_dec_of_unconfigured rfl, raise_of_result_zero rfl rfl rfl]
  exact ⟨rfl, rfl⟩

/-! ### RSTS (R264) -/

/-- Settles O21: only an idle sequencer is where `finish` leaves it. -/
theorem resetStreamEndsStream : Obligations.ResetStreamEndsStream := by
  intro s hseq
  show Host.Outcome.next (s.invalidateContext.finish 0) = _
  rw [State.finish, ← hseq]
  rfl

/-! ### Register writes (R265) -/

theorem writeAt_offset (s : State) (v : Word) (r : Register) : s.writeAt .regs r.offset v = s.writeRegister v r := by
  simp only [State.writeAt, registerAt_offset]

theorem offset_of_registerAt {r : Register} (h : registerAt off = some r) : r.offset = off := by
  unfold registerAt at h
  simpa using List.find?_some h

/-- Only the three configuration registers store what is written to their offsets. -/
theorem writeAt_ignored (s : State) (v : Word) (hconfig : off ≠ Register.config.offset)
    (hblockSize : off ≠ Register.blockSize.offset) (hsampleRate : off ≠ Register.sampleRate.offset) :
    s.writeAt .regs off v = s := by
  simp only [State.writeAt]
  cases hr : registerAt off with
  | none => rfl
  | some r =>
    have hoff : off = r.offset := (offset_of_registerAt hr).symm
    cases r with
    | config => exact absurd hoff hconfig
    | blockSize => exact absurd hoff hblockSize
    | sampleRate => exact absurd hoff hsampleRate
    | _ => rfl

theorem step_write_regs (hcode : s.seq.code = none) (hinbox : s.inbox = .write .regs off 4 v :: rest)
    (halign : off % 4 = 0) (hlt : off < 128) (hcommand : off ≠ Register.command.offset) :
    step s = .next ((s.takeAccess rest).writeAt .regs off v) := by
  have hw : (HostAccess.write .regs off 4 v).commandWord? = none := if_neg fun h => hcommand h.1
  have ha : Space.regs.admits off 4 = true := (admits_iff .regs off 4).mpr ⟨rfl, halign, hlt⟩
  exact (step_eq_perform hcode hinbox hw).trans (perform_write ha)

/-- Settles O29, by the register at the offset. -/
theorem registerWrites : Obligations.RegisterWrites := by
  intro s off v rest hcode hinbox halign hlt hcommand
  rw [step_write_regs hcode hinbox halign hlt hcommand]
  congr 1
  split_ifs with hconfig hblockSize hsampleRate
  · subst hconfig
    exact writeAt_offset _ v .config
  · subst hblockSize
    exact writeAt_offset _ v .blockSize
  · subst hsampleRate
    exact writeAt_offset _ v .sampleRate
  · exact writeAt_ignored _ v hconfig hblockSize hsampleRate

end Sys2Proof.Machine
end

section
/-! PROOFS. What the errors leave, and that a command does not depend on the status of the one before it
(60_exceptions.md R302, R305, R306; 70_reset_and_hazards.md R337). -/

namespace Sys2Proof.Machine

variable {s t : State} {n : Nat} {e : ErrCode}

/-! ### NUMERIC_RANGE and ENCODING_SIZE_MISMATCH (R305) -/

/-- The bank of a channel in use has a legal index after a failed ENC (10_state.md R22). -/
theorem afterEncodeError_index_le (hl : s.latch.legal = true) {c : Channel} (hc : c.toNat < s.latch.ch) :
    ((s.afterEncodeError n).cs.get c).index.toNat ≤ 88 := by
  rw [State.afterEncodeError_cs, freeBanks_get (Latch.legal_ch hl), if_pos hc]
  exact freeBank_index_le _ _

/-- An ENC that ends with an error that sets FAULT has left its range: the other ways to end set none. -/
theorem exec_enc_of_setsFault (h : exec (.enc n) s = .next t) (herr : t.err.setsFault = true) :
    s.latch.legal = true ∧ t = (s.afterEncodeError n).raise .numericRange := by
  cases exec_enc_case h with
  | rejected e he ht =>
    rw [ht, State.raise_err] at herr
    rcases he with rfl | rfl <;> cases herr
  | empty _ _ ht | coded _ _ _ _ _ ht =>
    rw [ht, State.finish_err] at herr
    cases herr
  | outOfRange hl _ ht => exact ⟨hl, ht⟩

/-- Settles O47: the bounds on the indexes by `freeBank`, the frame by O46's lemmas. -/
theorem encodeErrorState : Obligations.EncodeErrorState := by
  intro s t n h herr
  obtain ⟨hl, ht⟩ := exec_enc_of_setsFault h ((ErrCode.setsFault_iff _).mpr herr)
  have hfault : t.fault = true := by rw [ht, State.raise_fault, ErrCode.setsFault, Bool.or_true]
  have hindex : ∀ c : Channel, c.toNat < s.latch.ch → (t.cs.get c).index.toNat ≤ 88 := by
    rw [ht]
    exact fun _ => afterEncodeError_index_le (n := n) hl
  obtain ⟨hlatch, hpcm⟩ := exec_enc_frame h
  exact ⟨hfault, ht ▸ rfl, ht ▸ rfl, hpcm, hlatch, hindex, fun _ => exec_enc_bank_unused h,
    fun _ => exec_enc_adpcmAt_beyond h⟩

/-! ### NOT_CONFIGURED and BAD_LENGTH (R302, R306) -/

theorem exec_enc_of_overlong (hl : s.latch.legal = true) (hs : s.latch.spb < n) :
    exec (.enc n) s = .next (s.raise .badLength) := by
  simp [exec, execEnc, hl, Latch.legal_cfgValid hl, hs]

theorem raise_of_idle (he : e.setsFault = false) (hseq : s.seq = Sequencer.idle) :
    s.raise e = { s with err := e, result := 0 } := by
  rw [raise_of_not_setsFault he, ← hseq]

/-- Settles O22: neither error sets FAULT, and the sequencer is idle already. -/
theorem rejectedCommandsChangeNothing : Obligations.RejectedCommandsChangeNothing := by
  intro s n hseq
  rw [← raise_of_idle (e := .notConfigured) rfl hseq, ← raise_of_idle (e := .badLength) rfl hseq]
  exact ⟨fun hv => ⟨exec_enc_of_unconfigured hv, exec_dec_of_unconfigured hv⟩, exec_enc_of_overlong,
    exec_dec_of_overlong⟩

/-! ### ERR and RESULT (R337) -/

/-- The state with another ERR and RESULT. -/
def State.withStatus (s : State) (e : ErrCode) (r : Word) : State := { s with err := e, result := r }

section
variable (s : State) (e : ErrCode) (r : Word)

@[simp] theorem withStatus_latch : (s.withStatus e r).latch = s.latch := rfl

@[simp] theorem withStatus_raise (e' : ErrCode) : (s.withStatus e r).raise e' = s.raise e' := rfl

/-- The block is encoded from the latch, the context and PCM, and `finish` or `raise` ends it. -/
@[simp] theorem withStatus_encodeBlock (n : Nat) : (s.withStatus e r).encodeBlock n = s.encodeBlock n := rfl

@[simp] theorem withStatus_decodeBlock (l : Nat) : (s.withStatus e r).decodeBlock l = s.decodeBlock l := rfl

theorem exec_cfg_withStatus : exec .cfg (s.withStatus e r) = exec .cfg s := rfl

theorem exec_enc_withStatus (n : Nat) : exec (.enc n) (s.withStatus e r) = exec (.enc n) s := by
  simp only [exec, execEnc, withStatus_latch, withStatus_raise, withStatus_encodeBlock]
  rfl

theorem exec_dec_withStatus (l : Nat) : exec (.dec l) (s.withStatus e r) = exec (.dec l) s := by
  simp only [exec, execDec, withStatus_latch, withStatus_raise, withStatus_decodeBlock]
  rfl

theorem exec_rsts_withStatus : exec .rsts (s.withStatus e r) = exec .rsts s := rfl

end

/-- Settles O25: every command ends with `finish` or `raise`, and both write ERR and RESULT. -/
theorem statusIsPerCommand : Obligations.StatusIsPerCommand := by
  intro i s e r hi
  cases i with
  | cfg => exact exec_cfg_withStatus s e r
  | enc n => exact exec_enc_withStatus s e r n
  | dec l => exact exec_dec_withStatus s e r l
  | rsts => exact exec_rsts_withStatus s e r
  | _ => cases hi

end Sys2Proof.Machine
end

section
/-! PROOFS. Hardware reset, and that no step of a run from it faults (60_exceptions.md R309; 70_reset_and_hazards.md
R330). -/

namespace Sys2Proof.Machine

variable {s : State} {rest : List HostAccess}

/-! ### Hardware reset (R330) -/

theorem step_hardwareReset (hcode : s.seq.code = none) (hinbox : s.inbox = .hardwareReset :: rest) :
    step s = .next (s.takeAccess rest).hardwareReset := step_eq_perform hcode hinbox rfl

/-- STATUS reads 0 after reset (10_state.md R40). -/
theorem hardwareReset_statusWord (s : State) : s.hardwareReset.statusWord = 0 := by
  show State.reset.statusWord = 0
  decide

/-- Settles O32: the fields are those of `State.reset`, and the host keeps its queue and its record. -/
theorem hardwareReset : Obligations.HardwareReset := by
  intro s rest hcode hinbox
  have hbanks : ∀ c, PerChannel.zeroBanks.get c = Chan.zero := fun c => by cases c <;> rfl
  exact ⟨_, step_hardwareReset hcode hinbox, rfl, hbanks, rfl, rfl, rfl, rfl, rfl, rfl, rfl,
    hardwareReset_statusWord _, rfl, rfl, rfl, rfl⟩

/-! ### No step faults (R309) -/

section Commands

variable (hlatch : s.latch = Latch.invalid ∨ s.latch.legal = true)
include hlatch

/-- The one fault of ENC is a valid latch that no CONFIGURE can have left (log 10). -/
theorem exec_enc_goes_on (n : Nat) : ∃ t, exec (.enc n) s = .next t := by
  rcases hlatch with hinvalid | hl
  · exact ⟨_, exec_enc_of_unconfigured (congrArg Latch.cfgValid hinvalid)⟩
  · rcases Nat.lt_or_ge s.latch.spb n with hs | hs
    · exact ⟨_, exec_enc_of_overlong hl hs⟩
    · exact ⟨_, execEnc_legal hl hs⟩

theorem exec_dec_goes_on (l : Nat) : ∃ t, exec (.dec l) s = .next t := by
  rcases hlatch with hinvalid | hl
  · exact ⟨_, exec_dec_of_unconfigured (congrArg Latch.cfgValid hinvalid)⟩
  · rcases Nat.lt_or_ge s.latch.bs l with hs | hs
    · exact ⟨_, exec_dec_of_overlong hl hs⟩
    · exact ⟨_, execDec_legal hl hs⟩

theorem command_goes_on {w : Word} {i : Instr} (hd : decode (.command w) = .ok i) : ∃ t, exec i s = .next t := by
  rcases decodeCommand_ok hd with rfl | rfl | ⟨n, rfl⟩ | ⟨l, rfl⟩
  · rcases execCfg_cases s with ⟨l, -, he⟩ | ⟨e, -, he⟩ <;> exact ⟨_, he⟩
  · exact ⟨_, rfl⟩
  · exact exec_enc_goes_on hlatch n
  · exact exec_dec_goes_on hlatch l

/-- The host's word goes on, whether it is a command or illegal (30_encoding.md R93). -/
theorem step_command_goes_on {w : Word} (hcode : s.seq.code = none)
    (hinbox : s.inbox = HostAccess.writeReg .command w :: rest) : Safe s := by
  unfold Safe
  cases hd : decode (.command w) with
  | ok i =>
    rw [step_eq_exec_of_command hcode hinbox hd]
    exact command_goes_on (s := s.takeAccess rest) hlatch hd
  | error e => exact ⟨_, step_eq_raise_of_illegal hcode hinbox hd⟩

end Commands

/-- An access that carries no command goes on, or lies outside the interface and is refused (20_memory.md R66). -/
theorem step_access_goes_on_or_refuses {a : HostAccess} (hcode : s.seq.code = none) (hinbox : s.inbox = a :: rest)
    (hw : a.commandWord? = none) :
    Safe s ∨ step s = .refused .outsideInterface ∧ nextAdmitted s = false := by
  have hstep := step_eq_perform hcode hinbox hw
  cases a with
  | write space off bytes v =>
    by_cases ha : space.admits off bytes = true
    · exact .inl ⟨_, hstep.trans (perform_write ha)⟩
    · exact .inr ⟨step_write_outside hcode hinbox ha, by simpa [nextAdmitted, hinbox] using ha⟩
  | read space off bytes =>
    by_cases ha : space.admits off bytes = true
    · exact .inl ⟨_, hstep.trans (perform_read ha)⟩
    · exact .inr ⟨step_read_outside hcode hinbox ha, by simpa [nextAdmitted, hinbox] using ha⟩
  | hardwareReset => exact .inl ⟨_, hstep⟩

/-- A step goes on, or refuses an access outside the interface. -/
theorem step_goes_on_or_refuses (h : Invariant s) :
    Safe s ∨ step s = .refused .outsideInterface ∧ nextAdmitted s = false := by
  have hcode : s.seq.code = none := congrArg Sequencer.code h.idle
  cases hinbox : s.inbox with
  | nil => exact .inl ⟨_, step_eq_self_of_idle hcode hinbox⟩
  | cons a rest =>
    cases hw : a.commandWord? with
    | some w => exact .inl (step_command_goes_on h.latch hcode (commandWord_eq_some hw ▸ hinbox))
    | none => exact step_access_goes_on_or_refuses hcode hinbox hw

/-- Settles O59: an outcome that goes on or is refused is no fault, and an admitted access is not refused. -/
theorem stepGoesOn : Obligations.StepGoesOn := by
  intro s h
  rcases step_goes_on_or_refuses h with hsafe | ⟨hrefused, hout⟩
  · obtain ⟨t, ht⟩ := hsafe
    exact ⟨fun f hf => by simp [ht] at hf, fun _ => ⟨t, ht⟩⟩
  · exact ⟨fun f hf => by simp [hrefused] at hf, fun hin => by simp [hout] at hin⟩

end Sys2Proof.Machine
end
